-- ==== Sys2Proof/Word.lean ====
section
/-! DEFINITION. The widths of the machine's values (00_scope.md R7, R9). -/

namespace Sys2Proof

/-- A code-buffer element, an opcode byte or a register identifier byte: 8 bits (R7). -/
abbrev Byte := BitVec 8

/-- A register, a memory word, an immediate, an address or a syscall id: an unsigned 16-bit value (R7, R9). -/
abbrev Word := BitVec 16

/-- A binary32 bit pattern of the "native float" (40_half_converter.md R103). -/
abbrev F32 := BitVec 32

end Sys2Proof
end

