-- ==== Sys2Proof/Config.lean ====
section
/-! DEFINITION. The names the spec enumerates, the parameters a model takes (00_scope.md R8), the
plain-data description of a host function (46_syscall.md R242 to R252), and the FREE VALUES: opaque
constants without a body, one for each value the spec leaves open. -/

namespace Sys2Proof

/-- The 28 mnemonics in the order of the source's encoding table (30_encoding.md R71, R74). A mnemonic
also stands for the handler its instruction rule defines: it is what an entry of HANDLER holds. -/
inductive Mnemonic where
  | loadi | load | storei | store | move
  | add | sub | mul | div | addf | subf | mulf | divf | and | or | xor
  | cmp | cmpf | push | pop
  | jmp | je | jne | jg | jge | jl | jle
  | syscall
  deriving DecidableEq, Repr

/-- The six instruction formats (30_encoding.md R71). -/
inductive Format where
  | RI | RR | RRR | R | A | S
  deriving DecidableEq, Repr

/-- The two execution units (41_engine_step.md R141, R142). -/
inductive ExecUnit where
  | alu | fpu
  deriving DecidableEq, Repr

/-- The sixteen registers by name (10_state.md R20). Which identifier byte names which register is the
parameter REGNUM (`Params.regnum`). -/
inductive Reg where
  | ip | sp | fp
  | a0 | a1 | a2 | a3 | a4 | a5 | a6 | a7 | a8 | a9 | a10 | a11 | a12
  deriving DecidableEq, Repr

/-- HALF_ROUND: rounding of FloatToHalf for normal results (40_half_converter.md R106). -/
inductive HalfRound where
  | trunc | rne
  deriving DecidableEq, Repr

/-- JLE_MODE: the condition of JLE (45_control_transfer.md R227). -/
inductive JleMode where
  | observed | intended
  deriving DecidableEq, Repr

/-- IP_OPERAND: whether programs that name `Ip` in a register operand are admitted
(93_implementation_defined.md U5). -/
inductive IpOperand where
  | spec | refuse
  deriving DecidableEq, Repr

/-- The parameters of one machine that no operation changes (00_scope.md R8). OPC and UNITS are not
here: what they decide is held in the machine's handler table. -/
structure Params where
  /-- REGNUM: the register each identifier 0 to 15 names; a bijection (10_state.md R21). -/
  regnum : Vector Reg 16
  halfRound : HalfRound
  /-- CMPF_DEMOTE: whether CMPF rounds the difference to Half before testing it (44_fpu.md R205). -/
  cmpfDemote : Bool
  jleMode : JleMode
  ipOperand : IpOperand
  deriving DecidableEq, Repr

/-- Every parameter at the spec's default (00_scope.md R8; 92_eei_decisions.md D2, D12, D16, D17). -/
def Params.default : Params where
  regnum := #v[.ip, .sp, .fp, .a0, .a1, .a2, .a3, .a4, .a5, .a6, .a7, .a8, .a9, .a10, .a11, .a12]
  halfRound := .trunc
  cmpfDemote := true
  jleMode := .observed
  ipOperand := .spec

/-- The text of a host's error message, as its bytes. The machine only carries it (10_state.md R33). -/
abbrev HostMsg := List Byte

/-- One operation of the accessor a host function acts through (46_syscall.md R247 to R252). -/
inductive AccessorOp where
  /-- Read the 16-bit argument of index `n` (R247). -/
  | readArg (n : Word)
  /-- Read the constants-pool string the argument of index `n` designates (R248). -/
  | readString (n : Word)
  /-- Set the return value (R249). -/
  | setReturn (v : Word)
  /-- Signal a fatal error: record it in ERR (R250). -/
  | signalError (msg : HostMsg)
  /-- Establish a call frame (R251). -/
  | establish
  /-- Tear the call frame down (R252). -/
  | teardown
  deriving DecidableEq, Repr

/-- The signal a resumption ends with (46_syscall.md R242). `error` carries the message the host gives
when it has recorded none (log 7). -/
inductive Signal where
  | continue
  | done
  | error (msg : HostMsg)
  deriving DecidableEq, Repr, Inhabited

/-- What a host function does in one resumption: any finite sequence of accessor operations, then one
signal (41_engine_step.md R134, 46_syscall.md R244). -/
structure Resumption where
  ops : List AccessorOp
  signal : Signal
  deriving DecidableEq, Repr, Inhabited

/-- A host function, as far as the machine can see it: what its first resumptions do. Once the listed
resumptions are used up, each further one is the free value `Config.hostResumption`, so a listed prefix
followed by free resumptions covers every host behaviour R244 admits, the ones that never end among
them (93_implementation_defined.md U15; log 6). -/
structure HostFn where
  script : List Resumption
  deriving DecidableEq, Repr

/-! ## Free values -/

/-- FREE VALUE (40_half_converter.md R112, 93 U1): the sign of the `n`-th binary32 NaN drawn. -/
opaque Config.f32NanSign : Nat → Bool

/-- FREE VALUE (40_half_converter.md R112, 93 U1): the fraction field, less one, of the `n`-th binary32
NaN drawn; less one because a NaN's fraction is any of 1 to 2^23 - 1. -/
opaque Config.f32NanFraction : Nat → Fin 8388607

/-- FREE VALUE (46_syscall.md R244, 93 U15): what a host function whose script is used up does in the
`n`-th resumption drawn. -/
opaque Config.hostResumption : Nat → Resumption

/-- FREE VALUE (60_exceptions.md R261, 93 U2): the `slot`-th register or memory word after the `n`-th
failing step. -/
opaque Config.residueWord : (n slot : Nat) → Word

/-- FREE VALUE (60_exceptions.md R261, 93 U2): the `slot`-th flag after the `n`-th failing step. -/
opaque Config.residueFlag : (n slot : Nat) → Bool

end Sys2Proof
end

