-- ==== Sys2Proof/Machine/Float32.lean ====
section
/-! DEFINITION. Binary32 patterns and the four operations of the "native float" (40_half_converter.md R103,
R111 to R113): IEEE 754 binary32, round to nearest, ties to even, no trapping (92_eei_decisions.md D15;
log 11). All arithmetic is exact in the naturals or integers and rounded once. -/

namespace Sys2Proof.Machine

/-- The sign bit S. -/
def F32.sign (f : F32) : Bool := f.getLsbD 31

/-- The biased exponent field E. -/
def F32.exp (f : F32) : BitVec 8 := f.extractLsb' 23 8

/-- The fraction field M. -/
def F32.frac (f : F32) : BitVec 23 := f.extractLsb' 0 23

/-- A pattern from its three fields. -/
def F32.make (s : Bool) (e : BitVec 8) (m : BitVec 23) : F32 := BitVec.ofBool s ++ e ++ m

/-- `E = 255, M != 0`. -/
def F32.isNaN (f : F32) : Bool := F32.exp f == 255 && F32.frac f != 0

/-- `E = 255, M = 0`. -/
def F32.isInf (f : F32) : Bool := F32.exp f == 255 && F32.frac f == 0

/-- `E = 0, M = 0`. -/
def F32.isZero (f : F32) : Bool := F32.exp f == 0 && F32.frac f == 0

/-- The pattern with the other sign. -/
def F32.negate (f : F32) : F32 := F32.make (!F32.sign f) (F32.exp f) (F32.frac f)

/-- A zero. -/
def F32.zero (s : Bool) : F32 := F32.make s 0 0

/-- An infinity. -/
def F32.inf (s : Bool) : F32 := F32.make s 255 0

/-- The significand of a finite pattern as an integer: `2^23 + M` for a normal, `M` for a subnormal or zero
(R103). -/
def F32.mant (f : F32) : Nat :=
  if F32.exp f = 0 then (F32.frac f).toNat else 2 ^ 23 + (F32.frac f).toNat

/-- The scale of a finite pattern: its magnitude is `mant * 2^(scale - 149)` (R103). -/
def F32.scale (f : F32) : Nat := if F32.exp f = 0 then 0 else (F32.exp f).toNat - 1

/-- The value of a finite pattern, in units of `2^-149` (R103). -/
def F32.value (f : F32) : Int :=
  (if F32.sign f then -1 else 1) * ((F32.mant f * 2 ^ F32.scale f : Nat) : Int)

/-- `n / 2^k` rounded to the nearest integer, ties to even. -/
def roundShift (n k : Nat) : Nat :=
  let q := n / 2 ^ k
  let r := n % 2 ^ k
  if 2 * r > 2 ^ k ∨ (2 * r = 2 ^ k ∧ q % 2 = 1) then q + 1 else q

/-- The binary32 pattern nearest to `± n * 2^(e - 400)`, ties to even, for `n > 0`: the significand keeps 24
bits, or as many as lie at or above `2^-149`; a carry out of the significand moves into the exponent field;
a magnitude of `2^128` or more is infinity. -/
def F32.round (s : Bool) (n e : Nat) : F32 :=
  let t := max (Nat.log2 n + e - 23) 251
  let m := if t ≤ e then n * 2 ^ (e - t) else roundShift n (t - e)
  let mag := (t - 251) * 2 ^ 23 + m
  if 0x7F800000 ≤ mag then F32.inf s else BitVec.ofBool s ++ BitVec.ofNat 31 mag

/-- The result of a binary32 operation: a pattern, or a NaN whose sign and payload are left open (R112). -/
inductive FloatResult where
  | val (f : F32)
  | nan
  deriving DecidableEq, Repr

/-- `f32_add`. -/
def f32Add (a b : F32) : FloatResult :=
  if F32.isNaN a || F32.isNaN b then .nan
  else if F32.isInf a then
    if F32.isInf b && F32.sign a != F32.sign b then .nan else .val a
  else if F32.isInf b then .val b
  else
    let sum := F32.value a + F32.value b
    if sum = 0 then .val (F32.zero (F32.sign a && F32.sign b))
    else .val (F32.round (sum < 0) sum.natAbs 251)

/-- `f32_sub`: the sum with the second operand's sign turned. -/
def f32Sub (a b : F32) : FloatResult := f32Add a (F32.negate b)

/-- `f32_mul`. -/
def f32Mul (a b : F32) : FloatResult :=
  let s := F32.sign a ^^ F32.sign b
  if F32.isNaN a || F32.isNaN b then .nan
  else if F32.isInf a || F32.isInf b then
    if F32.isZero a || F32.isZero b then .nan else .val (F32.inf s)
  else if F32.isZero a || F32.isZero b then .val (F32.zero s)
  else .val (F32.round s (F32.mant a * F32.mant b) (F32.scale a + F32.scale b + 102))

/-- The quotient of two positive integers with 64 fraction bits, and one more bit below them that is 1 when
the division leaves a remainder: enough to round once, correctly. -/
def stickyQuotient (n d : Nat) : Nat :=
  2 * (n * 2 ^ 64 / d) + (if n * 2 ^ 64 % d = 0 then 0 else 1)

/-- `f32_div`. -/
def f32Div (a b : F32) : FloatResult :=
  let s := F32.sign a ^^ F32.sign b
  if F32.isNaN a || F32.isNaN b then .nan
  else if F32.isInf a then if F32.isInf b then .nan else .val (F32.inf s)
  else if F32.isInf b then .val (F32.zero s)
  else if F32.isZero b then if F32.isZero a then .nan else .val (F32.inf s)
  else if F32.isZero a then .val (F32.zero s)
  else .val (F32.round s (stickyQuotient (F32.mant a) (F32.mant b)) (F32.scale a + 335 - F32.scale b))

end Sys2Proof.Machine
end

