-- ==== Sys2Proof/Syntax.lean ====
section
/-! DEFINITION. The instructions: one constructor per row of opcode_table.json (30_encoding.md R71).
A register operand is its identifier byte as the code buffer holds it, all eight bits of it (R72): a byte
above 15 is an encoding of the instruction whose execution fails (R77). -/

namespace Sys2Proof

/-- An instruction with its operands in encoding order (30_encoding.md R71, R88). -/
inductive Instr where
  | loadi (reg : Byte) (imm : Word)
  | load (dst ptr : Byte)
  | storei (reg : Byte) (imm : Word)
  | store (ptr src : Byte)
  | move (dst src : Byte)
  | add (dst src target : Byte)
  | sub (dst src target : Byte)
  | mul (dst src target : Byte)
  | div (dst src target : Byte)
  | addf (dst src target : Byte)
  | subf (dst src target : Byte)
  | mulf (dst src target : Byte)
  | divf (dst src target : Byte)
  | and (dst src target : Byte)
  | or (dst src target : Byte)
  | xor (dst src target : Byte)
  | cmp (a b : Byte)
  | cmpf (a b : Byte)
  | push (reg : Byte)
  | pop (reg : Byte)
  | jmp (addr : Word)
  | je (addr : Word)
  | jne (addr : Word)
  | jg (addr : Word)
  | jge (addr : Word)
  | jl (addr : Word)
  | jle (addr : Word)
  | syscall (id : Word)
  deriving DecidableEq, Repr

/-- The mnemonic of an instruction. -/
def Instr.mnemonic : Instr → Mnemonic
  | .loadi _ _ => .loadi
  | .load _ _ => .load
  | .storei _ _ => .storei
  | .store _ _ => .store
  | .move _ _ => .move
  | .add _ _ _ => .add
  | .sub _ _ _ => .sub
  | .mul _ _ _ => .mul
  | .div _ _ _ => .div
  | .addf _ _ _ => .addf
  | .subf _ _ _ => .subf
  | .mulf _ _ _ => .mulf
  | .divf _ _ _ => .divf
  | .and _ _ _ => .and
  | .or _ _ _ => .or
  | .xor _ _ _ => .xor
  | .cmp _ _ => .cmp
  | .cmpf _ _ => .cmpf
  | .push _ => .push
  | .pop _ => .pop
  | .jmp _ => .jmp
  | .je _ => .je
  | .jne _ => .jne
  | .jg _ => .jg
  | .jge _ => .jge
  | .jl _ => .jl
  | .jle _ => .jle
  | .syscall _ => .syscall

/-- The register identifier bytes of an instruction, in operand order. -/
def Instr.regOperands : Instr → List Byte
  | .loadi r _ | .storei r _ | .push r | .pop r => [r]
  | .load a b | .store a b | .move a b | .cmp a b | .cmpf a b => [a, b]
  | .add d s t | .sub d s t | .mul d s t | .div d s t
  | .addf d s t | .subf d s t | .mulf d s t | .divf d s t
  | .and d s t | .or d s t | .xor d s t => [d, s, t]
  | .jmp _ | .je _ | .jne _ | .jg _ | .jge _ | .jl _ | .jle _ | .syscall _ => []

end Sys2Proof
end

