-- ==== Sys2Proof/WellFormed.lean ====
section
/-! DEFINITION. Which instruction terms are valid encodings (30_encoding.md R72, R77), and which programs
the parameter IP_OPERAND admits (93_implementation_defined.md U5). -/

namespace Sys2Proof

/-- A register operand is valid iff its byte is at most 15 (30_encoding.md R72). -/
def validRegId (b : Byte) : Bool := b.toNat ≤ 15

/-- Every register operand of the instruction is a valid identifier. Every 16-bit operand is legal
(30_encoding.md R79), so nothing else is checked. -/
def Instr.wellFormed (i : Instr) : Bool := i.regOperands.all validRegId

/-- The instruction names register `Ip` in a register operand. -/
def Instr.namesIp (p : Params) (i : Instr) : Bool :=
  i.regOperands.any fun b => p.regnum[b.toNat]? == some .ip

/-- With IP_OPERAND = REFUSE, "programs that name register 0 in a register operand are excluded by
hypothesis" (93_implementation_defined.md U5); with SPEC, every instruction is admitted. -/
def Instr.admitted (p : Params) (i : Instr) : Bool :=
  p.ipOperand == .spec || !i.namesIp p

end Sys2Proof
end

