-- ==== Sys2Proof/Decode.lean ====
section
/-! DEFINITION. The opcode map, the decoder and the encoder (30_encoding.md R70 to R79). -/

namespace Sys2Proof

/-- All mnemonics, in the order of the encoding table (30_encoding.md R71). -/
def allMnemonics : List Mnemonic :=
  [.loadi, .load, .storei, .store, .move,
   .add, .sub, .mul, .div, .addf, .subf, .mulf, .divf, .and, .or, .xor,
   .cmp, .cmpf, .push, .pop, .jmp, .je, .jne, .jg, .jge, .jl, .jle, .syscall]

/-- The default opcode map OPC (30_encoding.md R74, 92_eei_decisions.md D1). -/
def opc : Mnemonic → Byte
  | .loadi => 0x00
  | .load => 0x01
  | .storei => 0x02
  | .store => 0x03
  | .move => 0x04
  | .add => 0x05
  | .sub => 0x06
  | .mul => 0x07
  | .div => 0x08
  | .addf => 0x09
  | .subf => 0x0A
  | .mulf => 0x0B
  | .divf => 0x0C
  | .and => 0x0D
  | .or => 0x0E
  | .xor => 0x0F
  | .cmp => 0x10
  | .cmpf => 0x11
  | .push => 0x12
  | .pop => 0x13
  | .jmp => 0x14
  | .je => 0x15
  | .jne => 0x16
  | .jg => 0x17
  | .jge => 0x18
  | .jl => 0x19
  | .jle => 0x1A
  | .syscall => 0x1B

/-- The mnemonic an opcode byte stands for under the default map; none for 0x1C to 0xFF (R76). -/
def mnemonicOf (op : Byte) : Option Mnemonic := allMnemonics.find? fun m => opc m == op

/-- The format of each mnemonic (30_encoding.md R71). -/
def Mnemonic.format : Mnemonic → Format
  | .loadi | .storei => .RI
  | .load | .store | .move | .cmp | .cmpf => .RR
  | .add | .sub | .mul | .div | .addf | .subf | .mulf | .divf | .and | .or | .xor => .RRR
  | .push | .pop => .R
  | .jmp | .je | .jne | .jg | .jge | .jl | .jle => .A
  | .syscall => .S

/-- The length in bytes of an instruction of a format (30_encoding.md R71). -/
def Format.length : Format → Nat
  | .RI | .RRR => 4
  | .RR | .A | .S => 3
  | .R => 2

/-- The length of an instruction "depends on nothing else" than its opcode (30_encoding.md R75). -/
def Instr.length (i : Instr) : Nat := i.mnemonic.format.length

/-- A 16-bit value from its low and its high byte (20_memory.md R50). -/
def wordOfBytes (lo hi : Byte) : Word := hi ++ lo

/-- Bits 7 to 0 of a word. -/
def loByte (w : Word) : Byte := w.extractLsb' 0 8

/-- Bits 15 to 8 of a word. -/
def hiByte (w : Word) : Byte := w.extractLsb' 8 8

/-- `CodeRead8` (20_memory.md R66). A read past the end fails with the offset of the failed read. -/
def codeRead8 (code : List Byte) (c : Nat) : Except Nat Byte :=
  match code[c]? with
  | some b => .ok b
  | none => .error c

/-- `CodeRead16` (20_memory.md R66, R50): fails when `c + 1` is at or past the end. -/
def codeRead16 (code : List Byte) (c : Nat) : Except Nat Word :=
  match code[c]?, code[c + 1]? with
  | some lo, some hi => .ok (wordOfBytes lo hi)
  | _, _ => .error c

/-- Operands of format RI, read by the cursor `c` (30_encoding.md R71, 41_engine_step.md R137). -/
def readRI (mk : Byte → Word → Instr) (code : List Byte) (c : Nat) : Except Nat Instr := do
  let r ← codeRead8 code c
  let imm ← codeRead16 code (c + 1)
  pure (mk r imm)

/-- Operands of format RR. -/
def readRR (mk : Byte → Byte → Instr) (code : List Byte) (c : Nat) : Except Nat Instr := do
  let a ← codeRead8 code c
  let b ← codeRead8 code (c + 1)
  pure (mk a b)

/-- Operands of format RRR. -/
def readRRR (mk : Byte → Byte → Byte → Instr) (code : List Byte) (c : Nat) : Except Nat Instr := do
  let d ← codeRead8 code c
  let s ← codeRead8 code (c + 1)
  let t ← codeRead8 code (c + 2)
  pure (mk d s t)

/-- Operand of format R. -/
def readR (mk : Byte → Instr) (code : List Byte) (c : Nat) : Except Nat Instr := do
  let r ← codeRead8 code c
  pure (mk r)

/-- Operand of formats A and S. -/
def readA (mk : Word → Instr) (code : List Byte) (c : Nat) : Except Nat Instr := do
  let addr ← codeRead16 code c
  pure (mk addr)

/-- The operand sequence each handler reads, starting at the cursor `c`; an error is the offset of the
read that failed (30_encoding.md R75, R78). -/
def decodeOperands (m : Mnemonic) (code : List Byte) (c : Nat) : Except Nat Instr :=
  match m with
  | .loadi => readRI .loadi code c
  | .load => readRR .load code c
  | .storei => readRI .storei code c
  | .store => readRR .store code c
  | .move => readRR .move code c
  | .add => readRRR .add code c
  | .sub => readRRR .sub code c
  | .mul => readRRR .mul code c
  | .div => readRRR .div code c
  | .addf => readRRR .addf code c
  | .subf => readRRR .subf code c
  | .mulf => readRRR .mulf code c
  | .divf => readRRR .divf code c
  | .and => readRRR .and code c
  | .or => readRRR .or code c
  | .xor => readRRR .xor code c
  | .cmp => readRR .cmp code c
  | .cmpf => readRR .cmpf code c
  | .push => readR .push code c
  | .pop => readR .pop code c
  | .jmp => readA .jmp code c
  | .je => readA .je code c
  | .jne => readA .jne code c
  | .jg => readA .jg code c
  | .jge => readA .jge code c
  | .jl => readA .jl code c
  | .jle => readA .jle code c
  | .syscall => readA .syscall code c

/-- Why bytes do not decode. -/
inductive DecodeError where
  /-- There is no opcode byte: the offset is outside the code buffer. The engine halts there (R136). -/
  | noOpcode
  /-- The opcode byte has no handler (30_encoding.md R76). -/
  | opcode (op : Byte)
  /-- An operand read at this offset ran past the end of the buffer (30_encoding.md R78). -/
  | operand (offset : Nat)
  deriving DecidableEq, Repr

/-- Decoding at offset `p` of a code buffer, the opcode byte looked up in `lookup`
(30_encoding.md R75, 41_engine_step.md R136, R137). -/
def decodeAt (lookup : Byte → Option Mnemonic) (code : List Byte) (p : Nat) : Except DecodeError Instr :=
  match code[p]? with
  | none => .error .noOpcode
  | some op =>
    match lookup op with
    | none => .error (.opcode op)
    | some m =>
      match decodeOperands m code (p + 1) with
      | .ok i => .ok i
      | .error c => .error (.operand c)

/-- The decoder under the default opcode map: the instruction at the head of a byte string. -/
def decode (bytes : List Byte) : Except DecodeError Instr := decodeAt mnemonicOf bytes 0

/-! ## The encoder -/

/-- The bytes of an instruction under an opcode map (30_encoding.md R70, R71). -/
def encodeWith (code : Mnemonic → Byte) (i : Instr) : List Byte :=
  match i with
  | .loadi r imm | .storei r imm => [code i.mnemonic, r, loByte imm, hiByte imm]
  | .load a b | .store a b | .move a b | .cmp a b | .cmpf a b => [code i.mnemonic, a, b]
  | .add d s t | .sub d s t | .mul d s t | .div d s t
  | .addf d s t | .subf d s t | .mulf d s t | .divf d s t
  | .and d s t | .or d s t | .xor d s t => [code i.mnemonic, d, s, t]
  | .push r | .pop r => [code i.mnemonic, r]
  | .jmp w | .je w | .jne w | .jg w | .jge w | .jl w | .jle w | .syscall w =>
      [code i.mnemonic, loByte w, hiByte w]

/-- The bytes of an instruction under the default opcode map (30_encoding.md R74). -/
def encode (i : Instr) : List Byte := encodeWith opc i

/-! ## The opcode table's bit numbering -/

/-- The four bytes (the longest instruction) of an instruction whose first `nbits` bits are `w`, bit 0 the
least significant bit of byte 0; bits from `nbits` on are 0. -/
def tableBytes (nbits w : Nat) : List Byte :=
  let v := BitVec.ofNat 32 (w % 2 ^ nbits)
  [v.extractLsb' 0 8, v.extractLsb' 8 8, v.extractLsb' 16 8, v.extractLsb' 24 8]

/-- The instruction the decoder reads from a word of the opcode table. -/
def decodeTableWord (nbits w : Nat) : Option Instr :=
  match decode (tableBytes nbits w) with
  | .ok i => some i
  | .error _ => none

end Sys2Proof
end

