-- ==== Sys2Proof/Machine/Table.lean ====
section
/-! DEFINITION. Sparse data by key: a list of (key, value) pairs with keys strictly rising, so that equal
tables are equal lists. MEM, HANDLER and SYSCALLS are held so. -/

namespace Sys2Proof.Machine

/-- The value under a key, if the key is listed. -/
def Table.lookup {α : Type} : List (Nat × α) → Nat → Option α
  | [], _ => none
  | (k', v') :: t, k => if k = k' then some v' else Table.lookup t k

/-- Put a value under a key, in key order, replacing the one there. -/
def Table.insert {α : Type} : List (Nat × α) → Nat → α → List (Nat × α)
  | [], k, v => [(k, v)]
  | (k', v') :: t, k, v =>
    if k < k' then (k, v) :: (k', v') :: t
    else if k = k' then (k, v) :: t
    else (k', v') :: Table.insert t k v

/-- Take a key out. -/
def Table.erase {α : Type} : List (Nat × α) → Nat → List (Nat × α)
  | [], _ => []
  | (k', v') :: t, k => if k = k' then t else (k', v') :: Table.erase t k

/-- The canonical form: keys strictly rising. -/
abbrev Table.Sorted {α : Type} (t : List (Nat × α)) : Prop := t.Pairwise fun a b => a.1 < b.1

end Sys2Proof.Machine
end

