-- ==== Sys2Proof/Machine/Memory.lean ====
section
/-! DEFINITION. Linear memory MEM (10_state.md R38, 20_memory.md R51, R65): word addressed, so a cell is
an address and a 16-bit word. The list is in one canonical form: addresses strictly rising and no word
listed that equals what an unlisted address reads as, which is 0 (10_state.md R42). -/

namespace Sys2Proof.Machine

/-- The contents of MEM: the words that are not 0, by address. -/
abbrev Memory := List (Nat × Word)

/-- What an address nothing is listed for reads as: the value `Init` puts into every word (10_state.md
R42; log 4). -/
def Memory.unlisted : Word := 0

/-- The word at an address. -/
def Memory.read (m : Memory) (a : Nat) : Word := (Table.lookup m a).getD Memory.unlisted

/-- `m` with `v` at address `a`. -/
def Memory.write (m : Memory) (a : Nat) (v : Word) : Memory :=
  if v = Memory.unlisted then Table.erase m a else Table.insert m a v

/-- The canonical form of a memory of `size` words: addresses strictly rising and below `size`, nothing
listed that an unlisted address reads as. -/
abbrev Memory.wf (size : Nat) (m : Memory) : Prop :=
  Table.Sorted m ∧ ∀ c ∈ m, c.1 < size ∧ c.2 ≠ Memory.unlisted

/-- The canonical memory of `size` words whose word at each address is given by `word`. -/
def Memory.ofWords (size : Nat) (word : Nat → Word) : Memory :=
  (List.range size).filterMap fun a => if word a = Memory.unlisted then none else some (a, word a)

end Sys2Proof.Machine
end

