-- ==== Sys2Proof/Machine/State.lean ====
section
/-! DEFINITION. The machine's state (10_state.md), the faults (60_exceptions.md R262), the refusals, and
the state after reset (10_state.md R42). -/

namespace Sys2Proof.Machine

/-- The step faults of 60_exceptions.md R262, each with what its message records. A fault ends the run
(R261, R266, R267). All are faults the spec names: safe. -/
inductive Fault where
  /-- F_OPCODE: raised by the fetch when the opcode byte has no handler (41_engine_step.md R136). Safe. -/
  | opcode (op : Byte)
  /-- F_OPERAND: raised by an operand read at this offset that runs past the code buffer (20_memory.md
  R66). Safe. -/
  | operand (offset : Nat)
  /-- F_REGID: raised by a register operand byte above 15 (10_state.md R22). Safe. -/
  | regId (id : Byte)
  /-- F_MEM: raised by a word address at or beyond MEM_SIZE (20_memory.md R65). Safe. -/
  | mem (addr : Word)
  /-- F_DIV0: raised by DIV with a zero divisor (43_integer_alu.md R184; log 20). Safe. -/
  | div0
  /-- F_SYSCALL_ID: raised by SYSCALL with an id no host function is registered under (46_syscall.md
  R240). Safe. -/
  | syscallId (id : Word)
  /-- F_SYSCALL_ERR: raised by the step loop when a host function yields error or an error is pending
  (41_engine_step.md R134, R135). Safe. -/
  | syscallErr (msg : HostMsg)
  /-- F_CONST: raised by the accessor's string read for an index of the constants pool at or beyond CONST_LEN
  (20_memory.md R54, 46_syscall.md R248). Safe. -/
  | const (index : Word)
  deriving DecidableEq, Repr

/-- What the model does not accept, each case one where 93_implementation_defined.md says `refuse` (or one
no machine reaches). Refusing is safe: the model gives no result. -/
inductive Refusal where
  /-- Raised by `exec` for an instruction without a meaning. No instruction is left so. Safe. -/
  | notModelled (mnemonic : String)
  /-- Raised by the step and the register port before the first successful `Init`, and by every operation but
  `Init` after a failed one (93 U3, U11; 41_engine_step.md R131, 70_reset_and_hazards.md R292). Safe. -/
  | notInitialised
  /-- Raised by any operation after a unit registration failed: "a configuration whose setup failed is not
  run" (93 U14). Safe. -/
  | setupFailed
  /-- Raised by the step when IP_OPERAND is REFUSE and the instruction names `Ip` in a register operand
  (93 U5). Safe. -/
  | ipOperand
  /-- Raised by the step when `sysc` is set and there is no generator, which no machine reaches (10_state.md
  R35). Safe. -/
  | noGenerator
  /-- Raised by `Init` with a memory size of 0 or above 65536 (93 U16). Safe. -/
  | memorySize (words : Nat)
  /-- Raised by `Init` on a module in which this tag occurs twice (93 U9). Safe. -/
  | duplicateSection (tag : Byte)
  /-- Raised by `Init` on a constants payload of odd size (93 U10). Safe. -/
  | oddConstants (size : Nat)
  /-- Raised by a registration after the first `StepRun` (93 U12). Safe. -/
  | lateRegistration
  /-- Raised by `RegisterOpcode` and `RegisterUnit` for a handler that already stands under another opcode
  byte: the table would have an entry besides those of the 28 instructions (30_encoding.md R79, 93 U8; log
  31). Safe. -/
  | foreignHandler (op : Byte)
  /-- Raised by `RegisterSyscall` with an id already registered (93 U13). Safe. -/
  | duplicateSyscall (id : Word)
  deriving DecidableEq, Repr

/-- The engine states of 41_engine_step.md R131 that the other fields do not tell apart: Ready, Running and
Faulted are `ready`, with the FAULT latch empty or not; Halted is stored nowhere (R145). -/
inductive Phase where
  | uninitialised
  | ready
  /-- After a failed `Init` (70_reset_and_hazards.md R292). -/
  | initFailed
  /-- After a unit registration that failed (41_engine_step.md R141). -/
  | setupFailed
  deriving DecidableEq, Repr

/-- The suspension state of the host function in progress: the resumptions still listed (10_state.md R35). -/
structure Generator where
  script : List Resumption
  deriving DecidableEq, Repr

/-- The whole state of one engine instance (10_state.md). -/
structure State where
  phase : Phase
  /-- The model's own: the caller has called `StepRun` (93 U12; log 24). -/
  stepped : Bool
  cfg : Params
  /-- The register file (10_state.md R20), in the order Ip, Sp, Fp, A0 to A12. -/
  regs : Vector Word 16
  zero : Bool
  sign : Bool
  /-- The syscall-in-progress flag (10_state.md R29). -/
  sysc : Bool
  /-- ERR, the pending-error latch (10_state.md R33). -/
  err : Option HostMsg
  /-- FAULT, the fault latch (10_state.md R34). -/
  fault : Option Fault
  /-- GEN, the active generator (10_state.md R35). -/
  gen : Option Generator
  /-- HANDLER: the filled entries of the 256, by opcode byte (10_state.md R36). -/
  handlers : List (Nat × Mnemonic)
  /-- SYSCALLS: the registered host functions, by id (10_state.md R37). -/
  syscalls : List (Nat × HostFn)
  /-- MEM_SIZE (10_state.md R38). -/
  memSize : Nat
  /-- MEM (10_state.md R38). -/
  mem : Memory
  /-- CODE (10_state.md R40); its length is CODE_LEN. -/
  code : List Byte
  /-- CONST (10_state.md R39); its length is CONST_LEN. -/
  consts : List Word
  /-- The model's own: how many free values have been drawn (log 5). -/
  draws : Nat
  deriving DecidableEq, Repr

/-- The handler table with both units registered under the default opcode map (41_engine_step.md R141,
R142; 00_scope.md R8, UNITS and OPC). -/
def bothUnits : List (Nat × Mnemonic) :=
  allMnemonics.foldl (fun t m => Table.insert t (opc m).toNat m) []

/-- The machine right after a successful `Init` of the empty module with MEM_SIZE = 65536, both units
registered, no host function, every parameter at its default (10_state.md R42, 70_reset_and_hazards.md
R291; logs 1, 2, 4, 5, 24). -/
def State.reset : State where
  phase := .ready
  stepped := false
  cfg := Params.default
  regs := #v[0x0000, 0xFFFF, 0xFFFF, 0, 0, 0, 0, 0, 0, 0, 0, 0, 0, 0, 0, 0]
  zero := false
  sign := false
  sysc := false
  err := none
  fault := none
  gen := none
  handlers := bothUnits
  syscalls := []
  memSize := 65536
  mem := []
  code := []
  consts := []
  draws := 0

/-- What a meaning or a step answers. -/
abbrev Result := Host.Outcome State Fault Refusal

end Sys2Proof.Machine
end

