-- ==== Sys2Proof/Machine/Ops.lean ====
section
/-! DEFINITION. The named operations over registers, memory, stack, tables and latches, and the raising of
a fault. Every access of the model goes through these. -/

namespace Sys2Proof.Machine

/-! ## Registers (10_state.md R20 to R28) -/

/-- The entry of the register file a register is: Ip, Sp, Fp, A0 to A12 in order. -/
def Reg.idx : Reg → Fin 16
  | .ip => 0
  | .sp => 1
  | .fp => 2
  | .a0 => 3
  | .a1 => 4
  | .a2 => 5
  | .a3 => 6
  | .a4 => 7
  | .a5 => 8
  | .a6 => 9
  | .a7 => 10
  | .a8 => 11
  | .a9 => 12
  | .a10 => 13
  | .a11 => 14
  | .a12 => 15

/-- The value of a register. -/
def State.reg (s : State) (r : Reg) : Word := s.regs[(Reg.idx r).val]

/-- `s` with one register written; no other entry changes (10_state.md R23). -/
def State.setReg (s : State) (r : Reg) (v : Word) : State :=
  { s with regs := s.regs.set (Reg.idx r).val v }

/-- `Ip`, the program counter (10_state.md R25). -/
def State.ip (s : State) : Word := s.reg .ip

/-- The program-counter write. -/
def State.setIp (s : State) (v : Word) : State := s.setReg .ip v

/-- The register an identifier byte names, or F_REGID if the byte is above 15 (10_state.md R22). -/
def State.regOf (s : State) (b : Byte) : Except Fault Reg :=
  if h : b.toNat < 16 then .ok s.cfg.regnum[b.toNat] else .error (.regId b)

/-- The handler's cursor `n` bytes on from `Ip`, which holds `P + 1` while a handler runs
(41_engine_step.md R137). -/
def State.cursor (s : State) (n : Nat) : Word := s.ip + BitVec.ofNat 16 n

/-! ## Linear memory (20_memory.md R65) -/

/-- The word of MEM at an address, without a bounds check. -/
def State.peek (s : State) (a : Nat) : Word := s.mem.read a

/-- `MemRead(addr, 1)`. -/
def State.memRead (s : State) (a : Word) : Except Fault Word :=
  if a.toNat < s.memSize then .ok (s.peek a.toNat) else .error (.mem a)

/-- `MemWrite(addr, 1, v)`. -/
def State.memWrite (s : State) (a v : Word) : Except Fault State :=
  if a.toNat < s.memSize then .ok { s with mem := s.mem.write a.toNat v } else .error (.mem a)

/-- Push a word: write it at `Sp`, then decrement `Sp` modulo 2^16 (42_data_movement.md R166). -/
def State.push (s : State) (v : Word) : Except Fault State := do
  let s' ← s.memWrite (s.reg .sp) v
  pure (s'.setReg .sp (s.reg .sp - 1))

/-- Pop a word: increment `Sp` modulo 2^16, then read the word there (42_data_movement.md R167). -/
def State.pop (s : State) : Except Fault (Word × State) := do
  let sp := s.reg .sp + 1
  let v ← s.memRead sp
  pure (v, s.setReg .sp sp)

/-! ## The constants pool (20_memory.md R54) -/

/-- Word `i` of CONST, or F_CONST at or beyond CONST_LEN. -/
def State.constRead (s : State) (i : Nat) : Except Fault Word :=
  match s.consts[i]? with
  | some w => .ok w
  | none => .error (.const (BitVec.ofNat 16 i))

/-- The `n` words of CONST from word `i` on, read in order, each bounds-checked. -/
def State.constReads (s : State) : (i n : Nat) → Except Fault (List Word)
  | _, 0 => pure []
  | i, n + 1 => do
    let w ← s.constRead i
    let ws ← s.constReads (i + 1) n
    pure (w :: ws)

/-! ## Configuration tables (10_state.md R36, R37) -/

/-- HANDLER at an opcode byte. -/
def State.handler (s : State) (op : Byte) : Option Mnemonic := Table.lookup s.handlers op.toNat

/-- SYSCALLS at an id. -/
def State.hostFn (s : State) (id : Word) : Option HostFn := Table.lookup s.syscalls id.toNat

/-! ## Flags (10_state.md R29, R30) -/

/-- The compare flags written together (43_integer_alu.md R188, 44_fpu.md R205). -/
def State.setCompare (s : State) (zero sign : Bool) : State := { s with zero := zero, sign := sign }

/-- The flags packed into one byte: `zero` bit 0, `sign` bit 1, `sysc` bit 2 (10_state.md R29; log 21). -/
def State.flagsByte (s : State) : Byte :=
  (0 : BitVec 5) ++ BitVec.ofBool s.sysc ++ BitVec.ofBool s.sign ++ BitVec.ofBool s.zero

/-! ## Free values -/

/-- Draw the binary32 pattern F32_NAN: any NaN, fresh for each operation (40_half_converter.md R112; log
5). -/
def State.drawNan (s : State) : F32 × State :=
  (BitVec.ofBool (Config.f32NanSign s.draws) ++ (0xFF : BitVec 8) ++
      BitVec.ofNat 23 ((Config.f32NanFraction s.draws).val + 1),
    { s with draws := s.draws + 1 })

/-! ## Taking a fault (60_exceptions.md R261, R266) -/

/-- Taking a fault is the end of the run: nothing is saved, no mode changes and control goes nowhere inside
the machine (R266), so the step has no next state; there is no return from it (R267). What the caller finds
afterwards is `State.afterFail`. -/
def raise (f : Fault) : Result := .fault f

/-- What a handler answers: its next state, or the fault that ended it. -/
def outcome : Except Fault State → Result
  | .ok s => .next s
  | .error f => raise f

/-- The state a failing fetch, handler or resumption leaves for the caller of `StepRun`. Guaranteed: FAULT
holds the fault, `sysc` is 0 with no generator, and `Ip` is `ip`. Every other register, memory word and
compare flag is unspecified, so each is a free value (60_exceptions.md R261, 93 U2; log 10). ERR is `err`:
what the failing step has recorded stays recorded, since nothing clears ERR (10_state.md R33); that a failing
step is no exception to this is DEDUCED (log 32). -/
def State.afterFail (s : State) (f : Fault) (ip : Word) (err : Option HostMsg) : State :=
  let n := s.draws
  { s with
    regs := #v[ip, Config.residueWord n 1, Config.residueWord n 2, Config.residueWord n 3,
      Config.residueWord n 4, Config.residueWord n 5, Config.residueWord n 6, Config.residueWord n 7,
      Config.residueWord n 8, Config.residueWord n 9, Config.residueWord n 10, Config.residueWord n 11,
      Config.residueWord n 12, Config.residueWord n 13, Config.residueWord n 14, Config.residueWord n 15]
    zero := Config.residueFlag n 0
    sign := Config.residueFlag n 1
    sysc := false
    gen := none
    err := err
    fault := some f
    mem := Memory.ofWords s.memSize fun a => Config.residueWord n (16 + a)
    draws := n + 1 }

end Sys2Proof.Machine
end

