-- ==== Sys2Proof/Machine/Flags.lean ====
section
/-! DEFINITION. What the compares write into `zero` and `sign`, and the conditions the jumps read from them
(43_integer_alu.md R188, 44_fpu.md R205, 45_control_transfer.md R229). -/

namespace Sys2Proof.Machine

/-- `zero` after CMP: the operands are equal. -/
def cmpZero (a b : Word) : Bool := a.toNat == b.toNat

/-- `sign` after CMP: the difference taken in the integers is negative; not bit 15 of the wrapped difference
(90_conflicts.md C4). -/
def cmpSign (a b : Word) : Bool := (a.toNat : Int) - (b.toNat : Int) < 0

/-- `zero` after CMPF: the difference is +0 or -0. -/
def cmpfZero (d : F32) : Bool := d.extractLsb' 0 31 == 0

/-- `sign` after CMPF: the difference is below zero by value: no NaN, negative, not -0. -/
def cmpfSign (d : F32) : Bool := !F32.isNaN d && F32.sign d && d.extractLsb' 0 31 != 0

/-- The condition of JMP. -/
def condJmp : Bool := true
/-- The condition of JE. -/
def condJe (zero : Bool) : Bool := zero
/-- The condition of JNE. -/
def condJne (zero : Bool) : Bool := !zero
/-- The condition of JG, strict (92_eei_decisions.md D18). -/
def condJg (zero sign : Bool) : Bool := !zero && !sign
/-- The condition of JGE. -/
def condJge (zero sign : Bool) : Bool := zero || !sign
/-- The condition of JL, strict (92_eei_decisions.md D18). -/
def condJl (zero sign : Bool) : Bool := sign && !zero
/-- The condition of JLE: the observed one is JGE's (45_control_transfer.md R227; log 14). -/
def condJle (mode : JleMode) (zero sign : Bool) : Bool :=
  match mode with
  | .observed => zero || !sign
  | .intended => zero || sign

end Sys2Proof.Machine
end

