-- ==== Sys2Proof/Machine/Operands.lean ====
section
/-! DEFINITION. The operand forms: which registers an instruction's identifier bytes name, checked in
operand order before anything else (60_exceptions.md R265, 42_data_movement.md R160, 43_integer_alu.md
R180; log 19), and the bodies the three-register and the jump instructions share. Operand bytes have all
been read before: that is the decoder's part (F_OPERAND comes first). -/

namespace Sys2Proof.Machine

/-- One register operand (formats RI and R). -/
def State.reg1 (s : State) (a : Byte) : Except Fault Reg := s.regOf a

/-- Two register operands, checked in operand order (format RR). -/
def State.reg2 (s : State) (a b : Byte) : Except Fault (Reg × Reg) := do
  let ra ← s.regOf a
  let rb ← s.regOf b
  pure (ra, rb)

/-- Three register operands, checked in the order `dst`, `src`, `target` (format RRR). -/
def State.reg3 (s : State) (d a b : Byte) : Except Fault (Reg × Reg × Reg) := do
  let rd ← s.regOf d
  let ra ← s.regOf a
  let rb ← s.regOf b
  pure (rd, ra, rb)

/-- The last action of a handler: the cursor goes back into `Ip`, over whatever the effect wrote there
(41_engine_step.md R137, 70_reset_and_hazards.md R300). `c` is the cursor after the operands. -/
def State.finish (s : State) (c : Word) : State := s.setIp c

/-- The three-register form of the integer operations (43_integer_alu.md R180): both sources are read
before the destination is written. -/
def threeReg (op : Word → Word → Word) (d a b : Byte) (s : State) : Result := outcome do
  let (rd, ra, rb) ← s.reg3 d a b
  pure ((s.setReg rd (op (s.reg ra) (s.reg rb))).finish (s.cursor 3))

/-- The jump form (45_control_transfer.md R220): `Ip` becomes the target when the condition holds and the
cursor's final position otherwise. -/
def jumpWhen (cond : Bool) (addr : Word) (s : State) : Result :=
  .next (s.setIp (if cond then addr else s.cursor 2))

end Sys2Proof.Machine
end

