-- ==== Sys2Proof/Machine/ControlTransfer.lean ====
section
/-! DEFINITION. JMP, JE, JNE, JG, JGE, JL, JLE (45_control_transfer.md R220 to R229). The target is an
absolute byte offset that nothing checks; the next step decides what it means. -/

namespace Sys2Proof.Machine

/-- JMP addr (R221). -/
def execJmp (addr : Word) (s : State) : Result := jumpWhen condJmp addr s

/-- JE addr (R222). -/
def execJe (addr : Word) (s : State) : Result := jumpWhen (condJe s.zero) addr s

/-- JNE addr (R223). -/
def execJne (addr : Word) (s : State) : Result := jumpWhen (condJne s.zero) addr s

/-- JG addr (R224). -/
def execJg (addr : Word) (s : State) : Result := jumpWhen (condJg s.zero s.sign) addr s

/-- JGE addr (R225). -/
def execJge (addr : Word) (s : State) : Result := jumpWhen (condJge s.zero s.sign) addr s

/-- JL addr (R226). -/
def execJl (addr : Word) (s : State) : Result := jumpWhen (condJl s.zero s.sign) addr s

/-- JLE addr (R227): under the default JLE_MODE, JGE's condition (log 14). -/
def execJle (addr : Word) (s : State) : Result := jumpWhen (condJle s.cfg.jleMode s.zero s.sign) addr s

end Sys2Proof.Machine
end

