-- ==== Sys2Proof/Machine/DataMovement.lean ====
section
/-! DEFINITION. LOADI, LOAD, STOREI, STORE, MOVE, PUSH, POP (42_data_movement.md). In every meaning `Ip`
holds `P + 1` and `s.cursor n` is the offset after `n` operand bytes (41_engine_step.md R137). -/

namespace Sys2Proof.Machine

/-- LOADI dst,imm (R161). -/
def execLoadi (dst : Byte) (imm : Word) (s : State) : Result := outcome do
  let rd ← s.reg1 dst
  pure ((s.setReg rd imm).finish (s.cursor 3))

/-- LOAD dst,ptr (R162): the address is read before the destination is written. -/
def execLoad (dst ptr : Byte) (s : State) : Result := outcome do
  let (rd, rp) ← s.reg2 dst ptr
  let v ← s.memRead (s.reg rp)
  pure ((s.setReg rd v).finish (s.cursor 2))

/-- STOREI ptr,imm (R163): the register's value goes to the immediate address. -/
def execStorei (reg : Byte) (imm : Word) (s : State) : Result := outcome do
  let r ← s.reg1 reg
  let s' ← s.memWrite imm (s.reg r)
  pure (s'.finish (s.cursor 3))

/-- STORE ptr,src (R164, 90_conflicts.md C3): the value of `src` goes to the address in `ptr`. -/
def execStore (ptr src : Byte) (s : State) : Result := outcome do
  let (rp, rs) ← s.reg2 ptr src
  let s' ← s.memWrite (s.reg rp) (s.reg rs)
  pure (s'.finish (s.cursor 2))

/-- MOVE dst,src (R165). -/
def execMove (dst src : Byte) (s : State) : Result := outcome do
  let (rd, rs) ← s.reg2 dst src
  pure ((s.setReg rd (s.reg rs)).finish (s.cursor 2))

/-- PUSH reg (R166). -/
def execPush (reg : Byte) (s : State) : Result := outcome do
  let r ← s.reg1 reg
  let s' ← s.push (s.reg r)
  pure (s'.finish (s.cursor 1))

/-- POP reg (R167): the register is written after `Sp`, so `POP Sp` ends with the popped word. -/
def execPop (reg : Byte) (s : State) : Result := outcome do
  let r ← s.reg1 reg
  let (v, s') ← s.pop
  pure ((s'.setReg r v).finish (s.cursor 1))

end Sys2Proof.Machine
end

