-- ==== Sys2Proof/Machine/Half.lean ====
section
/-! DEFINITION. The half-precision converter (40_half_converter.md R100 to R110), a pure function pair
(R110, R130). -/

namespace Sys2Proof.Machine

/-- The sign bit `s` (R100). -/
def Half.sign (h : Word) : Bool := h.getLsbD 15

/-- The biased exponent `e` (R100). -/
def Half.exp (h : Word) : BitVec 5 := h.extractLsb' 10 5

/-- The fraction `m` (R100). -/
def Half.frac (h : Word) : BitVec 10 := h.extractLsb' 0 10

/-- A pattern from its three fields. -/
def Half.make (s : Bool) (e : BitVec 5) (m : BitVec 10) : Word := BitVec.ofBool s ++ e ++ m

/-- The classes of R101. -/
def Half.isZero (h : Word) : Bool := Half.exp h == 0 && Half.frac h == 0
/-- `e = 0` and `m != 0` (R101). -/
def Half.isSubnormal (h : Word) : Bool := Half.exp h == 0 && Half.frac h != 0
/-- `1 <= e <= 30` (R101). -/
def Half.isNormal (h : Word) : Bool := Half.exp h != 0 && Half.exp h != 31
/-- `e = 31` and `m = 0` (R101). -/
def Half.isInf (h : Word) : Bool := Half.exp h == 31 && Half.frac h == 0
/-- `e = 31` and `m != 0` (R101). -/
def Half.isNaN (h : Word) : Bool := Half.exp h == 31 && Half.frac h != 0

/-- The value of a finite Half in units of `2^-24` (R102). -/
def Half.value (h : Word) : Int :=
  (if Half.sign h then -1 else 1) *
    ((if Half.exp h = 0 then (Half.frac h).toNat
      else (1024 + (Half.frac h).toNat) * 2 ^ ((Half.exp h).toNat - 1) : Nat) : Int)

/-- `HalfToFloat` (R104). A subnormal is normalised: with `k` the index of its highest 1 bit, the leading 1
is dropped and the rest stands at the top of the fraction. -/
def halfToFloat (h : Word) : F32 :=
  let s := Half.sign h
  let e := Half.exp h
  let m := Half.frac h
  if e = 0 then
    if m = 0 then F32.make s 0 0
    else
      let k := Nat.log2 m.toNat
      F32.make s (BitVec.ofNat 8 (103 + k)) (m.setWidth 23 <<< (23 - k))
  else if e = 31 then F32.make s 255 (m ++ (0 : BitVec 13))
  else F32.make s (e.setWidth 8 + 112) (m ++ (0 : BitVec 13))

/-- `round_up` of the RNE mode (R106): the 13 dropped bits are above half, or exactly half with `mag` odd. -/
def roundUp (dropped : BitVec 13) (mag : BitVec 15) : BitVec 15 :=
  if 0x1000 < dropped.toNat ∨ (dropped.toNat = 0x1000 ∧ mag.getLsbD 0) then 1 else 0

/-- `FloatToHalf` (R105): the branch is chosen by `E` and `M` alone, before any rounding. -/
def floatToHalf (mode : HalfRound) (f : F32) : Word :=
  let s := F32.sign f
  let e := (F32.exp f).toNat
  let m := F32.frac f
  let p : BitVec 10 := m.extractLsb' 13 10
  if e = 255 then
    if m = 0 then Half.make s 31 0
    else Half.make s 31 (if p = 0 then 0x200 else p)
  else if e ≤ 112 then Half.make s 0 0
  else if 143 ≤ e then Half.make s 31 0
  else
    let mag : BitVec 15 := BitVec.ofNat 5 (e - 112) ++ p
    let mag := match mode with
      | .trunc => mag
      | .rne => mag + roundUp (m.extractLsb' 0 13) mag
    BitVec.ofBool s ++ mag

end Sys2Proof.Machine
end

