-- ==== Sys2Proof/Machine/Fpu.lean ====
section
/-! DEFINITION. ADDF, SUBF, MULF, DIVF, CMPF (44_fpu.md): promote to binary32, compute, demote. -/

namespace Sys2Proof.Machine

/-- The binary32 pattern an operation leaves and the state after it: a NaN is drawn afresh
(40_half_converter.md R112). -/
def State.resolve (s : State) : FloatResult → F32 × State
  | .val f => (f, s)
  | .nan => s.drawNan

/-- The three-register float form (44_fpu.md R200). -/
def threeRegFloat (op : F32 → F32 → FloatResult) (d a b : Byte) (s : State) : Result := outcome do
  let (rd, ra, rb) ← s.reg3 d a b
  let (f, s') := s.resolve (op (halfToFloat (s.reg ra)) (halfToFloat (s.reg rb)))
  pure ((s'.setReg rd (floatToHalf s.cfg.halfRound f)).finish (s.cursor 3))

/-- ADDF (R201). -/
def execAddf (dst src target : Byte) (s : State) : Result := threeRegFloat f32Add dst src target s

/-- SUBF (R202). -/
def execSubf (dst src target : Byte) (s : State) : Result := threeRegFloat f32Sub dst src target s

/-- MULF (R203). -/
def execMulf (dst src target : Byte) (s : State) : Result := threeRegFloat f32Mul dst src target s

/-- DIVF (R204): division by zero is no fault. -/
def execDivf (dst src target : Byte) (s : State) : Result := threeRegFloat f32Div dst src target s

/-- What CMPF tests (44_fpu.md R205): the binary32 difference, or that difference rounded to a Half and read
back, as CMPF_DEMOTE says (log 16). -/
def cmpfTested (p : Params) (d : F32) : F32 :=
  if p.cmpfDemote then halfToFloat (floatToHalf p.halfRound d) else d

/-- CMPF a,b (R205): writes both compare flags and no register but `Ip`. -/
def execCmpf (a b : Byte) (s : State) : Result := outcome do
  let (ra, rb) ← s.reg2 a b
  let (f, s') := s.resolve (f32Sub (halfToFloat (s.reg ra)) (halfToFloat (s.reg rb)))
  let d := cmpfTested s.cfg f
  pure ((s'.setCompare (cmpfZero d) (cmpfSign d)).finish (s.cursor 2))

end Sys2Proof.Machine
end

