-- ==== Sys2Proof/Machine/IntegerAlu.lean ====
section
/-! DEFINITION. ADD, SUB, MUL, DIV, AND, OR, XOR, CMP (43_integer_alu.md). -/

namespace Sys2Proof.Machine

/-- ADD (R181): the sum modulo 2^16. -/
def execAdd (dst src target : Byte) (s : State) : Result := threeReg (fun a b => a + b) dst src target s

/-- SUB (R182): the difference modulo 2^16. -/
def execSub (dst src target : Byte) (s : State) : Result := threeReg (fun a b => a - b) dst src target s

/-- MUL (R183): the low 16 bits of the product. -/
def execMul (dst src target : Byte) (s : State) : Result := threeReg (fun a b => a * b) dst src target s

/-- DIV (R184): the unsigned quotient; a zero divisor is F_DIV0, after the register checks and before any
write (log 20). -/
def execDiv (dst src target : Byte) (s : State) : Result := outcome do
  let (rd, ra, rb) ← s.reg3 dst src target
  if s.reg rb = 0 then .error .div0
  else pure ((s.setReg rd (BitVec.ofNat 16 ((s.reg ra).toNat / (s.reg rb).toNat))).finish (s.cursor 3))

/-- AND (R185). -/
def execAnd (dst src target : Byte) (s : State) : Result := threeReg (fun a b => a &&& b) dst src target s

/-- OR (R186). -/
def execOr (dst src target : Byte) (s : State) : Result := threeReg (fun a b => a ||| b) dst src target s

/-- XOR (R187). -/
def execXor (dst src target : Byte) (s : State) : Result := threeReg (fun a b => a ^^^ b) dst src target s

/-- CMP a,b (R188): writes both compare flags and no register but `Ip`. -/
def execCmp (a b : Byte) (s : State) : Result := outcome do
  let (ra, rb) ← s.reg2 a b
  let x := s.reg ra
  let y := s.reg rb
  pure ((s.setCompare (cmpZero x y) (cmpSign x y)).finish (s.cursor 2))

end Sys2Proof.Machine
end

