-- ==== Sys2Proof/Machine/Syscall.lean ====
section
/-! DEFINITION. SYSCALL, the accessor operations a host function acts through, and the resumption of the
host function in progress (46_syscall.md, 41_engine_step.md R134). -/

namespace Sys2Proof.Machine

/-- SYSCALL id (R240): start the host function and mark the call in progress; none of it runs in this step. -/
def execSyscall (id : Word) (s : State) : Result := outcome do
  match s.hostFn id with
  | none => .error (.syscallId id)
  | some fn => pure ({ s with gen := some ⟨fn.script⟩, sysc := true }.finish (s.cursor 2))

/-! ## The accessor (R246 to R252) -/

/-- The word address of argument `n`: `(Fp - n + 2) mod 2^16` (R247; log 9). -/
def State.argAddr (s : State) (n : Word) : Word := s.reg .fp - n + 2

/-- `ReadArg(n)` (R247). -/
def State.readArg (s : State) (n : Word) : Except Fault Word := s.memRead (s.argAddr n)

/-- Read the string argument of index `n` (R248): the argument is the word index of an entry of the constants
pool (log 8), whose length word and text words are read in order, each bounds-checked (20_memory.md R54, R64).
The words of the text go to the host and to nothing of the engine. -/
def State.readString (s : State) (n : Word) : Except Fault (List Word) := do
  let index ← s.readArg n
  let len ← s.constRead index.toNat
  s.constReads (index.toNat + 1) len.toNat

/-- Establish a call frame: push `Fp`, then `Fp <- Sp` (R251). -/
def State.establish (s : State) : Except Fault State := do
  let s' ← s.push (s.reg .fp)
  pure (s'.setReg .fp (s'.reg .sp))

/-- Tear down a call frame: `Sp <- Fp`, then pop into `Fp` (R252). -/
def State.teardown (s : State) : Except Fault State := do
  let (v, s') ← (s.setReg .sp (s.reg .fp)).pop
  pure (s'.setReg .fp v)

/-- One accessor operation. The two reads change no state (R247, R248). -/
def State.access (s : State) : AccessorOp → Except Fault State
  | .readArg n => do
    let _ ← s.readArg n
    pure s
  | .readString n => do
    let _ ← s.readString n
    pure s
  | .setReturn v => pure (s.setReg .a0 v)
  | .signalError msg => pure { s with err := some msg }
  | .establish => s.establish
  | .teardown => s.teardown

/-- The accessor operations of one resumption, in order; the first that fails ends it (R246). -/
def State.accessAll (s : State) : List AccessorOp → Except Fault State
  | [] => .ok s
  | op :: ops => do
    let s' ← s.access op
    s'.accessAll ops

/-- ERR after the accessor operations of one resumption, up to the first that fails (R250, 10_state.md R33). -/
def State.errAfter (s : State) : List AccessorOp → Option HostMsg
  | [] => s.err
  | op :: ops =>
    match s.access op with
    | .ok s' => s'.errAfter ops
    | .error _ => s.err

/-! ## The resumption (41_engine_step.md R134) -/

/-- The next resumption of a generator, the generator after it, and how many free values were drawn: the
next one of its script, or a free one when the script is used up (log 6). -/
def Generator.next (g : Generator) (draws : Nat) : Resumption × Generator × Nat :=
  match g.script with
  | r :: rest => (r, ⟨rest⟩, draws)
  | [] => (Config.hostResumption draws, ⟨[]⟩, draws + 1)

/-- What the signal of a resumption does to the engine. The message of an `error` is the recorded one where
there is one (log 7). -/
def State.afterSignal (s : State) (g : Generator) : Signal → Except Fault State
  | .continue => pure { s with gen := some g }
  | .done => pure { s with gen := none, sysc := false }
  | .error msg => .error (.syscallErr (s.err.getD msg))

/-- Advance the generator `g` by one unit: its accessor operations in order, then its signal. -/
def State.resume (s : State) (g : Generator) : Except Fault State := do
  let (r, g', draws) := g.next s.draws
  let s' ← { s with draws := draws }.accessAll r.ops
  s'.afterSignal g' r.signal

end Sys2Proof.Machine
end

