-- ==== Sys2Proof/Machine/Dispatch.lean ====
section
/-! DEFINITION. One arm per instruction, each a direct call of its meaning. The state `exec` is given is the
one a handler starts in: `Ip` holds `P + 1`, the offset of the first operand byte (41_engine_step.md R137,
70_reset_and_hazards.md R301; log 12). -/

namespace Sys2Proof.Machine

def exec (i : Instr) (s : State) : Host.Outcome State Fault Refusal :=
  match i with
  | .loadi reg imm => Sys2Proof.Machine.execLoadi reg imm s
  | .load dst ptr => Sys2Proof.Machine.execLoad dst ptr s
  | .storei reg imm => Sys2Proof.Machine.execStorei reg imm s
  | .store ptr src => Sys2Proof.Machine.execStore ptr src s
  | .move dst src => Sys2Proof.Machine.execMove dst src s
  | .add dst src target => Sys2Proof.Machine.execAdd dst src target s
  | .sub dst src target => Sys2Proof.Machine.execSub dst src target s
  | .mul dst src target => Sys2Proof.Machine.execMul dst src target s
  | .div dst src target => Sys2Proof.Machine.execDiv dst src target s
  | .addf dst src target => Sys2Proof.Machine.execAddf dst src target s
  | .subf dst src target => Sys2Proof.Machine.execSubf dst src target s
  | .mulf dst src target => Sys2Proof.Machine.execMulf dst src target s
  | .divf dst src target => Sys2Proof.Machine.execDivf dst src target s
  | .and dst src target => Sys2Proof.Machine.execAnd dst src target s
  | .or dst src target => Sys2Proof.Machine.execOr dst src target s
  | .xor dst src target => Sys2Proof.Machine.execXor dst src target s
  | .cmp a b => Sys2Proof.Machine.execCmp a b s
  | .cmpf a b => Sys2Proof.Machine.execCmpf a b s
  | .push reg => Sys2Proof.Machine.execPush reg s
  | .pop reg => Sys2Proof.Machine.execPop reg s
  | .jmp addr => Sys2Proof.Machine.execJmp addr s
  | .je addr => Sys2Proof.Machine.execJe addr s
  | .jne addr => Sys2Proof.Machine.execJne addr s
  | .jg addr => Sys2Proof.Machine.execJg addr s
  | .jge addr => Sys2Proof.Machine.execJge addr s
  | .jl addr => Sys2Proof.Machine.execJl addr s
  | .jle addr => Sys2Proof.Machine.execJle addr s
  | .syscall id => Sys2Proof.Machine.execSyscall id s

end Sys2Proof.Machine
end

