-- ==== Sys2Proof/Machine/Fetch.lean ====
section
/-! DEFINITION. The cases of the step contract (41_engine_step.md R133 to R137): which case a step takes,
and the fetch, look-up and dispatch. -/

namespace Sys2Proof.Machine

/-- Which case of R133 applies, in its priority order. -/
inductive StepCase where
  /-- Case 0: FAULT is set. -/
  | latched (f : Fault)
  /-- Case 1: a syscall is in progress. -/
  | syscall
  /-- Case 2: an error is pending. -/
  | pending (msg : HostMsg)
  /-- Cases 3 and 4: fetch, dispatch, run the handler. -/
  | fetch
  deriving DecidableEq, Repr

/-- The priority order of R133. -/
def State.stepCase (s : State) : StepCase :=
  match s.fault with
  | some f => .latched f
  | none =>
    if s.sysc then .syscall
    else
      match s.err with
      | some msg => .pending msg
      | none => .fetch

/-- `Ip` is outside the code buffer: the halt condition (R136, R145). -/
def State.ipOutside (s : State) : Bool := s.code.length ≤ s.ip.toNat

/-- The instruction at `Ip`, as this machine's handler table and code buffer give it (R136). -/
def State.fetched (s : State) : Except DecodeError Instr := decodeAt s.handler s.code s.ip.toNat

/-- Cases 3 and 4. A fetch outside the code buffer is normal termination and changes nothing (R145; log
22); otherwise `Ip` is advanced past the opcode byte, the handler is looked up, reads its operands and
runs. With IP_OPERAND = REFUSE an instruction that names `Ip` is refused (93 U5; log 13). -/
def State.fetchAndRun (s : State) : Result :=
  match s.fetched with
  | .error .noOpcode => .next s
  | .error (.opcode op) => raise (.opcode op)
  | .error (.operand c) => raise (.operand c)
  | .ok i =>
    if i.admitted s.cfg then exec i (s.setIp (s.ip + 1)) else .refused .ipOperand

/-- Case 1: advance the generator by one unit (R134). -/
def State.advance (s : State) : Result :=
  match s.gen with
  | some g => outcome (s.resume g)
  | none => .refused .noGenerator

/-- One step of an initialised engine (R133). -/
def State.runCase (s : State) : Result :=
  match s.stepCase with
  | .latched f => raise f
  | .syscall => s.advance
  | .pending msg => raise (.syscallErr msg)
  | .fetch => s.fetchAndRun

/-- The code buffer with `bytes` stored from offset `p` on, zeros before it where the buffer is shorter. -/
def spliceCode (code : List Byte) (p : Nat) (bytes : List Byte) : List Byte :=
  (code ++ List.replicate (p - code.length) 0).take p ++ bytes ++ code.drop (p + bytes.length)

end Sys2Proof.Machine
end

