-- ==== Sys2Proof/Machine/Step.lean ====
section
/-! DEFINITION. The step: one `StepRun` of the engine (41_engine_step.md R133). -/

namespace Sys2Proof.Machine

/-- One step. Before a successful `Init`, after a failed one, and after a failed setup the model refuses
(93_implementation_defined.md U3, U11, U14). -/
def step (s : State) : Host.Outcome State Fault Refusal :=
  match s.phase with
  | .ready => s.runCase
  | .uninitialised | .initFailed => .refused .notInitialised
  | .setupFailed => .refused .setupFailed

/-- `s` with an instruction of the opcode table stored in the code buffer at `Ip`, where the next step
fetches (log 2, log 25). -/
def State.withFetchWord (s : State) (nbits w : Nat) : State :=
  { s with code := spliceCode s.code s.ip.toNat (tableBytes nbits w) }

end Sys2Proof.Machine
end

