-- ==== Sys2Proof/Machine/Loader.lean ====
section
/-! DEFINITION. The binary module and its loading (20_memory.md R62 to R64). -/

namespace Sys2Proof.Machine

/-- Why a module does not load: a decode error of the source ("truncated section", "unknown tag"), which is
E_MODULE (60_exceptions.md R263). -/
inductive ModuleError where
  | truncated
  | unknownTag (tag : Byte)
  deriving DecidableEq, Repr

/-- What loading a module answers. -/
inductive LoadResult where
  | loaded (code : List Byte) (consts : List Word)
  /-- E_MODULE. -/
  | malformed (e : ModuleError)
  /-- A module the spec leaves outside (93 U9, U10). -/
  | refused (r : Refusal)
  deriving DecidableEq, Repr

/-- The words of a constants payload: word `i` is `payload[2i] + 256 * payload[2i+1]` (R64, 92 D24). A last
odd byte is not read: such a payload is refused before (93 U10). -/
def wordsOfBytes : List Byte → List Word
  | lo :: hi :: rest => wordOfBytes lo hi :: wordsOfBytes rest
  | _ => []

/-- The loading loop of R63: `code` and `consts` are what the sections read so far have filled. `fuel` bounds
the number of sections; each takes at least three bytes, so the module's length is enough. A module with
several things wrong answers for the first one the loop meets (log 23). -/
def loadSections : (fuel : Nat) → List Byte → (code : Option (List Byte)) → (consts : Option (List Word)) →
    LoadResult
  | _, [], code, consts => .loaded (code.getD []) (consts.getD [])
  | 0, _ :: _, _, _ => .malformed .truncated
  | fuel + 1, tag :: rest, code, consts =>
    match rest with
    | lo :: hi :: body =>
      let size := (wordOfBytes lo hi).toNat
      if body.length < size then .malformed .truncated
      else if tag = 1 then
        if code.isSome then .refused (.duplicateSection tag)
        else loadSections fuel (body.drop size) (some (body.take size)) consts
      else if tag = 0 then
        if consts.isSome then .refused (.duplicateSection tag)
        else if size % 2 = 1 then .refused (.oddConstants size)
        else loadSections fuel (body.drop size) code (some (wordsOfBytes (body.take size)))
      else .malformed (.unknownTag tag)
    | _ => .malformed .truncated

/-- Load a module. -/
def loadModule (m : List Byte) : LoadResult := loadSections m.length m none none

/-- A section of a module: tag, size, payload (R62). -/
def sectionBytes (tag : Byte) (payload : List Byte) : List Byte :=
  let size := BitVec.ofNat 16 payload.length
  [tag, loByte size, hiByte size] ++ payload

/-- The bytes of a word array in a constants payload (R64). -/
def bytesOfWords (ws : List Word) : List Byte := ws.flatMap fun w => [loByte w, hiByte w]

end Sys2Proof.Machine
end

