-- ==== Sys2Proof/Machine/Interface.lean ====
section
/-! DEFINITION. The interface operations of the block (41_engine_step.md R130): registration, `Init`,
`StepRun` and the register port. Each is one atomic transaction on the state (00_scope.md R6). The two
converter operations are `halfToFloat` and `floatToHalf`. -/

namespace Sys2Proof.Machine

/-- The errors of setup operations (60_exceptions.md R263); they set no FAULT. -/
inductive SetupError where
  /-- E_MODULE. -/
  | badModule (e : ModuleError)
  /-- E_DUP_OPCODE. -/
  | dupOpcode (op : Byte)
  /-- E_REGID. -/
  | badReg (id : Byte)
  deriving DecidableEq, Repr

/-- What `StepRun` reports (41_engine_step.md R132). -/
inductive Report where
  | ok
  /-- Normal termination: no message, no fault. -/
  | halt
  | fail (f : Fault)
  deriving DecidableEq, Repr

/-- What an interface operation answers: a value or an error, never both (60_exceptions.md R260), and the
state after it; or the model's refusal of the call. -/
inductive Answer (α : Type) where
  | value (a : α) (s : State)
  | error (e : SetupError) (s : State)
  | refused (r : Refusal)
  deriving DecidableEq, Repr

/-! ## Registration (41_engine_step.md R140 to R142, 46_syscall.md R241) -/

/-- Why a registration makes no entry: it fails with an error, or the model refuses it. -/
inductive RegistrationStop where
  | error (e : SetupError)
  | refused (r : Refusal)
  deriving DecidableEq, Repr

/-- `RegisterOpcode(op, handler)` on the table (R140): an entry once written is never overwritten. A handler
that stands under another opcode is refused: the entries are those of the 28 instructions, each under one
opcode byte (30_encoding.md R74, R79, 93 U8; log 31). -/
def addHandler (t : List (Nat × Mnemonic)) (op : Byte) (h : Mnemonic) :
    Except RegistrationStop (List (Nat × Mnemonic)) :=
  match Table.lookup t op.toNat with
  | some _ => .error (.error (.dupOpcode op))
  | none =>
    if h ∈ t.map Prod.snd then .error (.refused (.foreignHandler op))
    else .ok (Table.insert t op.toNat h)

/-- The opcodes a unit registers, in the order of R141 and R142. -/
def unitOpcodes : ExecUnit → List Mnemonic
  | .alu => [.loadi, .load, .storei, .store, .move, .add, .sub, .mul, .div, .and, .or, .xor, .cmp,
      .push, .pop, .jmp, .je, .jne, .jg, .jge, .jl, .jle, .syscall]
  | .fpu => [.addf, .subf, .mulf, .divf, .cmpf]

/-- Register a list of handlers under the opcode map `code`; stops at the first error. -/
def addHandlers (code : Mnemonic → Byte) (t : List (Nat × Mnemonic)) :
    List Mnemonic → Except RegistrationStop (List (Nat × Mnemonic))
  | [] => .ok t
  | m :: ms => do
    let t' ← addHandler t (code m) m
    addHandlers code t' ms

/-- Registration is refused after a failed setup (93 U14), after a failed `Init` (93 U3) and once stepping has
begun (93 U12). -/
def State.whenSetup {α : Type} (s : State) (k : Answer α) : Answer α :=
  match s.phase with
  | .setupFailed => .refused .setupFailed
  | .initFailed => .refused .notInitialised
  | .uninitialised | .ready => if s.stepped then .refused .lateRegistration else k

/-- `RegisterOpcode(op, handler)` (R140). A handler is one of the 28 of this spec (30_encoding.md R79, 93
U8). DESIGN CHOICE: after an E_DUP_OPCODE of this single call the machine may go on, since "nothing changes"
(R140), though 60_exceptions.md R263 calls the error fatal to setup; only a failed unit ends setup (log 31). -/
def registerOpcode (op : Byte) (h : Mnemonic) (s : State) : Answer Unit :=
  s.whenSetup <|
    match addHandler s.handlers op h with
    | .ok t => .value () { s with handlers := t }
    | .error (.error e) => .error e s
    | .error (.refused r) => .refused r

/-- `RegisterUnit(unit)` under the opcode map OPC (R141, R142, 00_scope.md R8). Which entries a failed
registration leaves is unspecified, and the machine is not run after it (93 U14). -/
def registerUnit (code : Mnemonic → Byte) (u : ExecUnit) (s : State) : Answer Unit :=
  s.whenSetup <|
    match addHandlers code s.handlers (unitOpcodes u) with
    | .ok t => .value () { s with handlers := t }
    | .error (.error e) => .error e { s with phase := .setupFailed }
    | .error (.refused r) => .refused r

/-- `RegisterSyscall(id, fn)` (46_syscall.md R241; 93 U13). -/
def registerSyscall (id : Word) (fn : HostFn) (s : State) : Answer Unit :=
  s.whenSetup <|
    match s.hostFn id with
    | some _ => .refused (.duplicateSyscall id)
    | none => .value () { s with syscalls := Table.insert s.syscalls id.toNat fn }

/-! ## `Init` (70_reset_and_hazards.md R290 to R292) -/

/-- A freshly constructed engine: nothing registered, not initialised (70_reset_and_hazards.md R293). None
of the state `Init` creates exists yet (10_state.md R43); the fields stand at their reset values. -/
def State.constructed (p : Params) : State :=
  { State.reset with phase := .uninitialised, cfg := p, handlers := [] }

/-- The complete reset state of 10_state.md R42 for a loaded module; handlers, host functions, parameters
and the model's own fields stay. -/
def State.initialised (s : State) (code : List Byte) (consts : List Word) (memorySize : Nat) : State :=
  let top := BitVec.ofNat 16 (memorySize - 1)
  { s with
    phase := .ready
    regs := #v[0, top, top, 0, 0, 0, 0, 0, 0, 0, 0, 0, 0, 0, 0, 0]
    zero := false
    sign := false
    sysc := false
    err := none
    fault := none
    gen := none
    memSize := memorySize
    mem := []
    code := code
    consts := consts }

/-- `Init(module, memorySize)` (R291). -/
def init (m : List Byte) (memorySize : Nat) (s : State) : Answer Unit :=
  if s.phase = .setupFailed then .refused .setupFailed
  else if memorySize = 0 ∨ 65536 < memorySize then .refused (.memorySize memorySize)
  else
    match loadModule m with
    | .loaded code consts => .value () (s.initialised code consts memorySize)
    | .malformed e => .error (.badModule e) { s with phase := .initFailed }
    | .refused r => .refused r

/-! ## `StepRun` (41_engine_step.md R132, R133, R145, R146) -/

/-- A step that would take the fetch case finds `Ip` outside the code buffer (R136). -/
def State.halts (s : State) : Bool := s.stepCase == .fetch && s.ipOutside

/-- ERR after a failing resumption: what its accessor operations have recorded before it failed (46_syscall.md
R250); that the failure keeps it is DEDUCED (log 32). -/
def State.errAtFailure (s : State) : Option HostMsg :=
  match s.gen with
  | some g =>
    let (r, _, draws) := g.next s.draws
    { s with draws := draws }.errAfter r.ops
  | none => s.err

/-- The state a failing step leaves for the caller (60_exceptions.md R261; log 10): nothing changes in the
latched case (R146), only FAULT in the pending case (R135), and otherwise `State.afterFail`: with `Ip`
unwritten by a resumption (R134) and ERR as the resumption has recorded it, with `Ip` at `P + 1` after a fetch
or a handler (R136, R139), neither of which writes ERR. -/
def State.failed (s : State) (f : Fault) : State :=
  match s.stepCase with
  | .latched _ => s
  | .pending _ => { s with fault := some f }
  | .syscall => s.afterFail f s.ip s.errAtFailure
  | .fetch => s.afterFail f (s.ip + 1) s.err

/-- `StepRun()`: the step, what it reports, and the state the caller then finds. -/
def stepRun (s : State) : Answer Report :=
  match step s with
  | .next s' => .value (if s.halts then .halt else .ok) { s' with stepped := true }
  | .fault f => .value (.fail f) { s.failed f with stepped := true }
  | .refused r => .refused r

/-! ## The register port (41_engine_step.md R143) -/

/-- The port is usable between steps in any initialised state (R143, 93 U11). -/
def State.whenReady {α : Type} (s : State) (k : Answer α) : Answer α :=
  match s.phase with
  | .ready => k
  | .uninitialised | .initFailed => .refused .notInitialised
  | .setupFailed => .refused .setupFailed

/-- `GetReg(id)`. -/
def getReg (id : Byte) (s : State) : Answer Word :=
  s.whenReady <|
    match s.regOf id with
    | .ok r => .value (s.reg r) s
    | .error _ => .error (.badReg id) s

/-- `SetReg(id, v)`: clears no latch and sets no FAULT. -/
def setRegPort (id : Byte) (v : Word) (s : State) : Answer Unit :=
  s.whenReady <|
    match s.regOf id with
    | .ok r => .value () (s.setReg r v)
    | .error _ => .error (.badReg id) s

end Sys2Proof.Machine
end

