-- ==== Sys2Proof/Safety.lean ====
section
/-! DEFINITION. The invariant every machine keeps, what a step leaves unchanged, and what a safe run is, in
the terms claims use. -/

namespace Sys2Proof.Machine

/-! ## The invariant -/

/-- MEM_SIZE is 1 to 65536 (00_scope.md R8) and MEM is in canonical form below it. -/
abbrev State.MemOk (s : State) : Prop := 1 ≤ s.memSize ∧ s.memSize ≤ 65536 ∧ Memory.wf s.memSize s.mem

/-- CODE_LEN is at most 65535 and CONST_LEN at most 32767 (00_scope.md R8). -/
abbrev State.BuffersOk (s : State) : Prop := s.code.length ≤ 65535 ∧ s.consts.length ≤ 32767

/-- There is a generator exactly when `sysc` is set (10_state.md R35). -/
abbrev State.GenOk (s : State) : Prop := s.sysc = s.gen.isSome

/-- `zero` and `sign` are never both set (10_state.md R31). -/
abbrev State.FlagsOk (s : State) : Prop := ¬ (s.zero = true ∧ s.sign = true)

/-- The two tables are in canonical form, keyed by opcode bytes and by 16-bit ids (10_state.md R36, R37), and
no handler stands under two opcodes (30_encoding.md R79, 93 U8). -/
abbrev State.TablesOk (s : State) : Prop :=
  (Table.Sorted s.handlers ∧ (∀ e ∈ s.handlers, e.1 < 256) ∧ (s.handlers.map Prod.snd).Nodup) ∧
    (Table.Sorted s.syscalls ∧ ∀ e ∈ s.syscalls, e.1 < 65536)

/-- REGNUM is a bijection: no two identifiers name one register (10_state.md R20, R21). -/
abbrev State.RegnumOk (s : State) : Prop := s.cfg.regnum.toList.Nodup

/-- What holds of every machine that setup and stepping reach. -/
abbrev State.Inv (s : State) : Prop :=
  s.MemOk ∧ s.BuffersOk ∧ s.GenOk ∧ s.FlagsOk ∧ s.TablesOk ∧ s.RegnumOk

/-! ## Frames: what is the same in two states -/

/-- Every register but those listed holds what it held. -/
def SameRegsExcept (s t : State) (written : List Reg) : Prop := ∀ r, r ∉ written → t.reg r = s.reg r

/-- The compare flags are unchanged. -/
def SameCompare (s t : State) : Prop := t.zero = s.zero ∧ t.sign = s.sign

/-- The three flags are unchanged. -/
def SameFlags (s t : State) : Prop := SameCompare s t ∧ t.sysc = s.sysc

/-- Every word of MEM reads as before. -/
def SameMemory (s t : State) : Prop := ∀ a : Word, t.memRead a = s.memRead a

/-- Every word of MEM but the one at `at'` reads as before. -/
def SameMemoryExcept (s t : State) (at' : Word) : Prop := ∀ a : Word, a ≠ at' → t.memRead a = s.memRead a

/-- Nothing an engine is configured with has changed: tables, parameters, code, constants, memory size. -/
def SameConfiguration (s t : State) : Prop :=
  t.phase = s.phase ∧ t.stepped = s.stepped ∧ t.cfg = s.cfg ∧ t.handlers = s.handlers ∧
    t.syscalls = s.syscalls ∧ t.memSize = s.memSize ∧ t.code = s.code ∧ t.consts = s.consts

/-- The latches and the active generator are unchanged. -/
def SameLatches (s t : State) : Prop := t.err = s.err ∧ t.fault = s.fault ∧ t.gen = s.gen

/-- Everything but registers, flags, memory and the count of free values drawn is unchanged. -/
def SameRest (s t : State) : Prop := SameConfiguration s t ∧ SameLatches s t

/-! ## Steps and runs -/

/-- The next step takes the fetch case: initialised, no latched fault, no syscall in progress, no pending
error (41_engine_step.md R133). -/
abbrev State.Fetching (s : State) : Prop :=
  s.phase = .ready ∧ s.fault = none ∧ s.sysc = false ∧ s.err = none

/-- The next step resumes the generator `g` (41_engine_step.md R133 case 1). -/
abbrev State.Resuming (s : State) (g : Generator) : Prop :=
  s.phase = .ready ∧ s.fault = none ∧ s.sysc = true ∧ s.gen = some g

/-- `k` steps from `s` end in `t`: none of them faults or is refused. -/
def RunsTo (k : Nat) (s t : State) : Prop := Host.Core.run Sys2Proof.core k s = .next t

/-- A run from `s` ends normally in `t` (70_reset_and_hazards.md R294): some number of steps, none of which
fails, leads to `t`, where the next `StepRun` halts. -/
def EndsNormally (s t : State) : Prop := ∃ k, RunsTo k s t ∧ t.phase = .ready ∧ t.halts = true

end Sys2Proof.Machine
end

