-- ==== Sys2Proof/Certificates/Slice0/Obligations.lean ====
section
/-! DEFINITION. The statements about this model. A statement about `exec` is about a handler: its state has
`Ip` at `P + 1`, the offset of the first operand byte (41_engine_step.md R137, 70_reset_and_hazards.md R301;
log 12), so `s.ip + n` is the cursor after `n` operand bytes. -/

open Sys2Proof Sys2Proof.Machine

/-! ## Encoding (30_encoding.md) -/

/-- Every instruction, whatever its operands, decodes to itself wherever its bytes stand in a code buffer and
whatever injective opcode map is used (R70 to R75; the map is a parameter, R74). Low byte first is the spec's
decision D3 (log 26). -/
def Obligations.DecodeOfEncodeIsIdentity : Prop :=
  ∀ (lookup : Byte → Option Mnemonic) (code : Mnemonic → Byte), (∀ m, lookup (code m) = some m) →
    ∀ (before after : List Byte) (i : Instr),
      decodeAt lookup (before ++ encodeWith code i ++ after) before.length = .ok i

/-- Only an instruction's own bytes decode to it, under the default map: no other byte string does, and every
byte of the encoding counts (R70 to R75). The map and the byte order are the spec's decisions D1 and D3 (logs
17, 26). -/
def Obligations.OnlyItsEncodingDecodesToAnInstruction : Prop :=
  ∀ (bytes : List Byte) (i : Instr), decode bytes = .ok i ↔ ∃ rest, bytes = encode i ++ rest

/-- A few words written out from the opcode table decode to the instructions they stand for (R71, R74; the
opcode numbers are the spec's default, 92_eei_decisions.md D1). The byte order is its decision D3 (logs 17,
26). -/
def Obligations.SampleWordsDecode : Prop :=
  decode [0x00, 0x03, 0x05, 0x00] = .ok (.loadi 3 5) ∧
  decode [0x05, 0x05, 0x03, 0x04] = .ok (.add 5 3 4) ∧
  decode [0x0C, 0x05, 0x03, 0x04] = .ok (.divf 5 3 4) ∧
  decode [0x11, 0x03, 0x04] = .ok (.cmpf 3 4) ∧
  decode [0x12, 0x03] = .ok (.push 3) ∧
  decode [0x1A, 0x10, 0x00] = .ok (.jle 0x0010) ∧
  decode [0x1B, 0x02, 0x01] = .ok (.syscall 0x0102)

/-- The code-buffer primitives of R66: a read at or past the end fails with the offset of the read; otherwise
a byte is `CODE[c]` and a 16-bit value is `CODE[c] + 256 * CODE[c+1]`. The byte order is the spec's decision
D3 (log 26). -/
def Obligations.CodeReadsAreBoundedAndLittleEndian : Prop :=
  ∀ (code : List Byte) (c : Nat),
    (code.length ≤ c → codeRead8 code c = .error c) ∧
    (∀ h : c < code.length, codeRead8 code c = .ok code[c]) ∧
    (code.length ≤ c + 1 → codeRead16 code c = .error c) ∧
    (∀ h : c + 1 < code.length, ∃ w : Word, codeRead16 code c = .ok w ∧
      w.toNat = (code[c]'(by omega)).toNat + 256 * (code[c + 1]'h).toNat)

/-- An instruction cut short by the end of the buffer does not decode: the operand read that fails is at an
offset inside the instruction (R78). The opcode map is the spec's decision D1 (log 17). -/
def Obligations.TruncatedInstructionsDoNotDecode : Prop :=
  ∀ (m : Mnemonic) (operands : List Byte), operands.length + 1 < m.format.length →
    ∃ c, decode (opc m :: operands) = .error (.operand c) ∧ 1 ≤ c ∧ c ≤ operands.length + 1

/-! ## Registers and their identifiers (10_state.md, 41_engine_step.md R143) -/

/-- The register port: a write then a read of a valid identifier gives the value written and changes no other
identifier's entry; outside the range both fail (R23). The premise is the invariant that REGNUM is a
bijection. That the port is open between any two steps is the spec's decision D31 (log 29). -/
def Obligations.RegisterPortReadsBackWrites : Prop :=
  ∀ (s : State) (id : Byte) (v : Word), s.phase = .ready → s.RegnumOk →
    (id.toNat ≤ 15 → ∃ t, setRegPort id v s = .value () t ∧ getReg id t = .value v t ∧
      ∀ other : Byte, other.toNat ≤ 15 → other ≠ id → ∃ w, getReg other s = .value w s ∧ getReg other t = .value w t) ∧
    (15 < id.toNat → setRegPort id v s = .error (.badReg id) s ∧ getReg id s = .error (.badReg id) s)

/-- An identifier above 15 fails rather than mutate state: any instruction that has one ends in F_REGID of one
of its identifiers that is above 15, and the port answers an error with the state as it was (R22). That
F_REGID comes before F_DIV0 and F_MEM is the spec's own decision, 92_eei_decisions.md D23 (log 19). -/
def Obligations.InvalidRegisterIdentifiersFail : Prop :=
  (∀ (i : Instr) (s : State), i.wellFormed = false →
    ∃ b ∈ i.regOperands, 15 < b.toNat ∧ exec i s = .fault (.regId b)) ∧
  (∀ (s : State) (id : Byte) (v : Word), s.phase = .ready → 15 < id.toNat →
    getReg id s = .error (.badReg id) s ∧ setRegPort id v s = .error (.badReg id) s)

/-- The fault names the FIRST invalid identifier in operand order, before F_DIV0 and F_MEM (60_exceptions.md
R265). The order is the spec's own decision, 92_eei_decisions.md D23 (log 19). -/
def Obligations.RegisterFaultsComeFirstInOperandOrder : Prop :=
  ∀ (i : Instr) (s : State) (b : Byte), i.regOperands.find? (fun b => !validRegId b) = some b →
    exec i s = .fault (.regId b)

/-! ## Linear memory (20_memory.md R65) -/

/-- MemRead and MemWrite: at or beyond MEM_SIZE both fail with F_MEM; below it the read gives the word there,
the write succeeds, its word reads back, and every other word, register and flag is as before (R65). The
premise is the invariant that memory is in canonical form. -/
def Obligations.MemoryAccessIsBoundedAndReadsBack : Prop :=
  ∀ (s : State) (a v : Word), s.MemOk →
    (s.memSize ≤ a.toNat → s.memRead a = .error (.mem a) ∧ s.memWrite a v = .error (.mem a)) ∧
    (a.toNat < s.memSize → s.memRead a = .ok (s.peek a.toNat) ∧
      ∃ t, s.memWrite a v = .ok t ∧ t.memRead a = .ok v ∧ SameMemoryExcept s t a ∧
        SameRegsExcept s t [] ∧ SameFlags s t ∧ SameRest s t)

/-! ## Data movement (42_data_movement.md) -/

/-- LOADI writes the immediate to its register and nothing else; with `Ip` as the register the write is lost
(R161). The lost write to `Ip` is the spec's inference R300 (log 13). -/
def Obligations.LoadImmediateWritesItsRegister : Prop :=
  ∀ (s : State) (d : Byte) (imm : Word) (rd : Reg), s.regOf d = .ok rd →
    ∃ t, exec (.loadi d imm) s = .next t ∧ (rd ≠ .ip → t.reg rd = imm) ∧ t.ip = s.ip + 3 ∧
      SameRegsExcept s t [rd, .ip] ∧ SameFlags s t ∧ SameMemory s t ∧ SameRest s t ∧ t.draws = s.draws

/-- LOAD reads the word its pointer register names into its register, and faults with F_MEM when that address
is outside MEM (R162). The lost write to `Ip` is the spec's inference R300 (log 13). -/
def Obligations.LoadReadsTheWordAtItsPointer : Prop :=
  ∀ (s : State) (d p : Byte) (rd rp : Reg), s.regOf d = .ok rd → s.regOf p = .ok rp →
    (∀ v, s.memRead (s.reg rp) = .ok v →
      ∃ t, exec (.load d p) s = .next t ∧ (rd ≠ .ip → t.reg rd = v) ∧ t.ip = s.ip + 2 ∧
        SameRegsExcept s t [rd, .ip] ∧ SameFlags s t ∧ SameMemory s t ∧ SameRest s t ∧ t.draws = s.draws) ∧
    (s.memSize ≤ (s.reg rp).toNat → exec (.load d p) s = .fault (.mem (s.reg rp)))

/-- STOREI writes its register's value to the immediate address, and faults with F_MEM outside MEM (R163).
What the handler finds in `Ip` is log 12. -/
def Obligations.StoreImmediateWritesTheWordAtItsAddress : Prop :=
  ∀ (s : State) (r : Byte) (imm : Word) (rr : Reg), s.MemOk → s.regOf r = .ok rr →
    (imm.toNat < s.memSize →
      ∃ t, exec (.storei r imm) s = .next t ∧ t.memRead imm = .ok (s.reg rr) ∧ SameMemoryExcept s t imm ∧
        t.ip = s.ip + 3 ∧ SameRegsExcept s t [.ip] ∧ SameFlags s t ∧ SameRest s t ∧ t.draws = s.draws) ∧
    (s.memSize ≤ imm.toNat → exec (.storei r imm) s = .fault (.mem imm))

/-- STORE writes the value of its second register to the address in its first, and faults with F_MEM outside
MEM (R164, 90_conflicts.md C3). What the handler finds in `Ip` is log 12. -/
def Obligations.StoreWritesTheWordAtItsPointer : Prop :=
  ∀ (s : State) (p r : Byte) (rp rr : Reg), s.MemOk → s.regOf p = .ok rp → s.regOf r = .ok rr →
    ((s.reg rp).toNat < s.memSize →
      ∃ t, exec (.store p r) s = .next t ∧ t.memRead (s.reg rp) = .ok (s.reg rr) ∧
        SameMemoryExcept s t (s.reg rp) ∧ t.ip = s.ip + 2 ∧ SameRegsExcept s t [.ip] ∧ SameFlags s t ∧
        SameRest s t ∧ t.draws = s.draws) ∧
    (s.memSize ≤ (s.reg rp).toNat → exec (.store p r) s = .fault (.mem (s.reg rp)))

/-- MOVE copies a register (R165). The lost write to `Ip` is the spec's inference R300 (log 13). -/
def Obligations.MoveCopiesARegister : Prop :=
  ∀ (s : State) (d r : Byte) (rd rr : Reg), s.regOf d = .ok rd → s.regOf r = .ok rr →
    ∃ t, exec (.move d r) s = .next t ∧ (rd ≠ .ip → t.reg rd = s.reg rr) ∧ t.ip = s.ip + 2 ∧
      SameRegsExcept s t [rd, .ip] ∧ SameFlags s t ∧ SameMemory s t ∧ SameRest s t ∧ t.draws = s.draws

/-- PUSH writes the register's value, as it was before, at `Sp` and lowers `Sp` by one modulo 2^16; it faults
with F_MEM when `Sp` is outside MEM (R166; the wrap at 0 is the spec's decision D10). Log 28. -/
def Obligations.PushStoresAtSpAndLowersIt : Prop :=
  ∀ (s : State) (r : Byte) (rr : Reg), s.MemOk → s.regOf r = .ok rr →
    ((s.reg .sp).toNat < s.memSize →
      ∃ t, exec (.push r) s = .next t ∧ t.memRead (s.reg .sp) = .ok (s.reg rr) ∧
        SameMemoryExcept s t (s.reg .sp) ∧ t.reg .sp = s.reg .sp - 1 ∧ t.ip = s.ip + 1 ∧
        SameRegsExcept s t [.sp, .ip] ∧ SameFlags s t ∧ SameRest s t ∧ t.draws = s.draws) ∧
    (s.memSize ≤ (s.reg .sp).toNat → exec (.push r) s = .fault (.mem (s.reg .sp)))

/-- POP raises `Sp` by one modulo 2^16 and reads the word there into the register, the register written last;
it faults with F_MEM when that word is outside MEM (R167; the wrap is the spec's decision D10). Log 28; the
lost write to `Ip` is the spec's inference R300 (log 13). -/
def Obligations.PopRaisesSpAndReadsThere : Prop :=
  ∀ (s : State) (r : Byte) (rr : Reg), s.regOf r = .ok rr →
    (∀ v, s.memRead (s.reg .sp + 1) = .ok v →
      ∃ t, exec (.pop r) s = .next t ∧ (rr ≠ .ip → t.reg rr = v) ∧ (rr ≠ .sp → t.reg .sp = s.reg .sp + 1) ∧
        t.ip = s.ip + 1 ∧ SameRegsExcept s t [rr, .sp, .ip] ∧ SameFlags s t ∧ SameMemory s t ∧ SameRest s t ∧
        t.draws = s.draws) ∧
    (s.memSize ≤ (s.reg .sp + 1).toNat → exec (.pop r) s = .fault (.mem (s.reg .sp + 1)))

/-- PUSH of a register then POP into another, neither of them `Sp` or `Ip`, gives the other the first one's
value, and `Sp` is back where it was (R167, the source's law). It rests on the wrap of `Sp` (D10, log 28). -/
def Obligations.PushThenPopRestoresSp : Prop :=
  ∀ (s : State) (r q : Byte) (rr rq : Reg), s.MemOk → s.regOf r = .ok rr → s.regOf q = .ok rq →
    rr ≠ .sp → rr ≠ .ip → rq ≠ .sp → rq ≠ .ip → (s.reg .sp).toNat < s.memSize →
    ∃ t u, exec (.push r) s = .next t ∧ exec (.pop q) t = .next u ∧ u.reg rq = s.reg rr ∧
      u.reg .sp = s.reg .sp

/-! ## Integer arithmetic, logic, compare (43_integer_alu.md) -/

/-- ADD, SUB and MUL: the result modulo 2^16 of the two source registers, as they were, to the destination; no
flag is written (R180 to R183, R189). The lost write to `Ip` is the spec's inference R300 (log 13). -/
def Obligations.IntegerArithmeticWrapsModulo65536 : Prop :=
  ∀ (mk : Byte → Byte → Byte → Instr) (f : Int → Int → Int),
    (mk, f) ∈ [(Instr.add, fun x y : Int => x + y), (Instr.sub, fun x y : Int => x - y), (Instr.mul, fun x y : Int => x * y)] →
    ∀ (s : State) (d a b : Byte) (rd ra rb : Reg),
      s.regOf d = .ok rd → s.regOf a = .ok ra → s.regOf b = .ok rb →
      ∃ t, exec (mk d a b) s = .next t ∧
        (rd ≠ .ip → ((t.reg rd).toNat : Int) = f (s.reg ra).toNat (s.reg rb).toNat % 65536) ∧
        t.ip = s.ip + 3 ∧ SameRegsExcept s t [rd, .ip] ∧ SameFlags s t ∧ SameMemory s t ∧ SameRest s t ∧
        t.draws = s.draws

/-- AND, OR and XOR: each bit of the result is the operation on the two sources' bits; no flag is written
(R180, R185 to R187). The lost write to `Ip` is the spec's inference R300 (log 13). -/
def Obligations.LogicIsBitwise : Prop :=
  ∀ (mk : Byte → Byte → Byte → Instr) (f : Bool → Bool → Bool),
    (mk, f) ∈ [(Instr.and, and), (Instr.or, or), (Instr.xor, xor)] →
    ∀ (s : State) (d a b : Byte) (rd ra rb : Reg),
      s.regOf d = .ok rd → s.regOf a = .ok ra → s.regOf b = .ok rb →
      ∃ t, exec (mk d a b) s = .next t ∧
        (rd ≠ .ip → ∀ i : Nat, i < 16 → (t.reg rd).getLsbD i = f ((s.reg ra).getLsbD i) ((s.reg rb).getLsbD i)) ∧
        t.ip = s.ip + 3 ∧ SameRegsExcept s t [rd, .ip] ∧ SameFlags s t ∧ SameMemory s t ∧ SameRest s t ∧
        t.draws = s.draws

/-- DIV: the unsigned quotient, with no flag written; a zero divisor is F_DIV0 (R184; unsignedness and the
fault are the spec's decision D9, log 20). The lost write to `Ip` is the spec's inference R300 (log 13). -/
def Obligations.DivisionIsUnsignedAndFaultsOnZero : Prop :=
  ∀ (s : State) (d a b : Byte) (rd ra rb : Reg),
    s.regOf d = .ok rd → s.regOf a = .ok ra → s.regOf b = .ok rb →
    (s.reg rb ≠ 0 → ∃ t, exec (.div d a b) s = .next t ∧
      (rd ≠ .ip → (t.reg rd).toNat = (s.reg ra).toNat / (s.reg rb).toNat) ∧
      t.ip = s.ip + 3 ∧ SameRegsExcept s t [rd, .ip] ∧ SameFlags s t ∧ SameMemory s t ∧ SameRest s t ∧
      t.draws = s.draws) ∧
    (s.reg rb = 0 → exec (.div d a b) s = .fault .div0)

/-- ADD of a word and then SUB of the same word gives back the first (R189, the source's law), for any
registers the two instructions may name that keep the operands apart. -/
def Obligations.AddThenSubRoundTrips : Prop :=
  ∀ (s : State) (d a b : Byte) (rd ra rb : Reg),
    s.regOf d = .ok rd → s.regOf a = .ok ra → s.regOf b = .ok rb → rd ≠ .ip → rb ≠ .ip → rd ≠ rb →
    ∃ t u, exec (.add d a b) s = .next t ∧ exec (.sub d d b) t = .next u ∧ u.reg rd = s.reg ra

/-- CMP writes `zero` iff the operands are equal and `sign` iff the first is below the second as unsigned
words; never both; no register but `Ip` (R188, 90_conflicts.md C4). -/
def Obligations.CompareIsUnsigned : Prop :=
  ∀ (s : State) (a b : Byte) (ra rb : Reg), s.regOf a = .ok ra → s.regOf b = .ok rb →
    ∃ t, exec (.cmp a b) s = .next t ∧ (t.zero = true ↔ s.reg ra = s.reg rb) ∧
      (t.sign = true ↔ (s.reg ra).toNat < (s.reg rb).toNat) ∧ t.sysc = s.sysc ∧ t.ip = s.ip + 2 ∧
      SameRegsExcept s t [.ip] ∧ SameMemory s t ∧ SameRest s t ∧ t.draws = s.draws

/-! ## The Half converter (40_half_converter.md) -/

/-- The round-trip law in both rounding modes: every pattern but the subnormals returns to itself, and a
subnormal collapses to the zero of its sign (R107). -/
def Obligations.HalfRoundTrip : Prop :=
  ∀ (mode : HalfRound) (h : Word),
    (Half.isSubnormal h = false → floatToHalf mode (halfToFloat h) = h) ∧
    (Half.isSubnormal h = true → floatToHalf mode (halfToFloat h) = h &&& 0x8000)

/-- HalfToFloat is exact: for a finite Half the binary32 value is the same number (in units of 2^-149 and
2^-24), infinities go to infinities and NaNs to NaNs, the sign is copied, the low 13 bits are 0, and the
result is never subnormal; and no two Halfs have the same image (R108). The spec derives it; the exact
subnormals are its decision D11 (log 15), the value formulas general knowledge (log 27). -/
def Obligations.HalfToFloatIsExact : Prop :=
  (∀ h k : Word, halfToFloat h = halfToFloat k → h = k) ∧
  ∀ h : Word,
    (Half.exp h ≠ 31 → F32.exp (halfToFloat h) ≠ 255 ∧ F32.value (halfToFloat h) = Half.value h * 2 ^ 125) ∧
    F32.isInf (halfToFloat h) = Half.isInf h ∧ F32.isNaN (halfToFloat h) = Half.isNaN h ∧
    F32.sign (halfToFloat h) = Half.sign h ∧ (halfToFloat h).extractLsb' 0 13 = 0 ∧
    (F32.exp (halfToFloat h) = 0 ↔ Half.isZero h = true) ∧
    (F32.exp (halfToFloat h) ≠ 0 → 103 ≤ (F32.exp (halfToFloat h)).toNat)

/-- FloatToHalf in both rounding modes: the sign bit is copied, no result is subnormal, a NaN gives a NaN, an
infinity the infinity, and a magnitude below 2^-14 a zero (R109 items 1, 2, 3, 6; the encoder is the spec's
decisions D12 to D14). Log 15. -/
def Obligations.FloatToHalfKeepsSignAndClass : Prop :=
  ∀ (mode : HalfRound) (f : F32),
    Half.sign (floatToHalf mode f) = F32.sign f ∧ Half.isSubnormal (floatToHalf mode f) = false ∧
    Half.isNaN (floatToHalf mode f) = F32.isNaN f ∧
    (F32.isInf f = true → Half.isInf (floatToHalf mode f) = true) ∧
    ((F32.exp f).toNat ≤ 112 → Half.isZero (floatToHalf mode f) = true)

/-- FloatToHalf is monotonic on non-NaN inputs ordered by value, zeros being equal, in both rounding modes
(R109 item 4): with every pattern read as its magnitude bits with its sign, a larger input never gives a
smaller result. The encoder is the spec's decisions D12 to D14 (log 15). -/
def Obligations.FloatToHalfIsMonotonic : Prop :=
  ∀ (mode : HalfRound) (f g : F32), F32.isNaN f = false → F32.isNaN g = false →
    (if F32.sign f then -((f.extractLsb' 0 31).toNat : Int) else ((f.extractLsb' 0 31).toNat : Int)) ≤
      (if F32.sign g then -((g.extractLsb' 0 31).toNat : Int) else ((g.extractLsb' 0 31).toNat : Int)) →
    (if Half.sign (floatToHalf mode f) then -(((floatToHalf mode f).extractLsb' 0 15).toNat : Int)
      else (((floatToHalf mode f).extractLsb' 0 15).toNat : Int)) ≤
      (if Half.sign (floatToHalf mode g) then -(((floatToHalf mode g).extractLsb' 0 15).toNat : Int)
      else (((floatToHalf mode g).extractLsb' 0 15).toNat : Int))

/-- With TRUNC, a finite input below 2^16 never grows: the result's magnitude is at most the input's (R109
item 5; TRUNC is the spec's default, D12). Logs 15, 27. -/
def Obligations.TruncationNeverGrows : Prop :=
  ∀ f : F32, (F32.exp f).toNat ≤ 142 →
    (Half.value (floatToHalf .trunc f)).natAbs * 2 ^ 125 ≤ (F32.value f).natAbs

/-! ## The FPU (44_fpu.md) -/

/-- When a binary32 operation gives a NaN: a NaN operand, opposite infinities added or equal ones subtracted,
zero times infinity, zero by zero, infinity by infinity; in every other case its result is a pattern that is
no NaN (R112). IEEE 754 arithmetic is general knowledge the spec supplies (D15, log 11). -/
def Obligations.InvalidOperationsGiveNan : Prop :=
  (∀ a b : F32,
    (f32Add a b = .nan ↔ F32.isNaN a ∨ F32.isNaN b ∨ (F32.isInf a ∧ F32.isInf b ∧ F32.sign a ≠ F32.sign b)) ∧
    (f32Sub a b = .nan ↔ F32.isNaN a ∨ F32.isNaN b ∨ (F32.isInf a ∧ F32.isInf b ∧ F32.sign a = F32.sign b)) ∧
    (f32Mul a b = .nan ↔ F32.isNaN a ∨ F32.isNaN b ∨ (F32.isInf a ∧ F32.isZero b) ∨ (F32.isZero a ∧ F32.isInf b)) ∧
    (f32Div a b = .nan ↔ F32.isNaN a ∨ F32.isNaN b ∨ (F32.isInf a ∧ F32.isInf b) ∨ (F32.isZero a ∧ F32.isZero b))) ∧
  ∀ op ∈ [f32Add, f32Sub, f32Mul, f32Div], ∀ a b f : F32, op a b = .val f → F32.isNaN f = false

/-- The binary32 sum and difference. Of finite operands: the exact result rounded to nearest, ties to even (no
finite pattern is nearer, and where another is as near the result's last bit is 0), the infinity of its sign
from halfway above the largest finite value on, and where it is exactly 0, +0 unless both terms are -0. With an
infinite operand: that infinity, where the result is no NaN (R111, IEEE 754, which the spec takes from general
knowledge, D15; log 11). Values are in units of 2^-149; `flip` turns the second term's sign in a difference. -/
def Obligations.BinarySumAndDifferenceAreNearestEven : Prop :=
  ∀ (op : F32 → F32 → FloatResult) (flip : Bool), (op, flip) ∈ [(f32Add, false), (f32Sub, true)] →
    ∀ a b : F32,
      (F32.exp a ≠ 255 → F32.exp b ≠ 255 → ∃ r, op a b = .val r ∧
        ∀ exact : Int, exact = (if flip then F32.value a - F32.value b else F32.value a + F32.value b) →
          (exact = 0 → r = F32.zero (F32.sign a && (F32.sign b ^^ flip))) ∧
          (exact ≠ 0 → (F32.sign r = true ↔ exact < 0)) ∧
          (F32.isInf r = true ↔ (2 ^ 25 - 1) * 2 ^ 252 ≤ exact.natAbs) ∧
          (F32.exp r ≠ 255 → ∀ g : F32, F32.exp g ≠ 255 →
            (F32.value r - exact).natAbs ≤ (F32.value g - exact).natAbs ∧
            ((F32.value r - exact).natAbs = (F32.value g - exact).natAbs → F32.value g ≠ F32.value r →
              r.getLsbD 0 = false))) ∧
      (F32.isInf a = true → F32.isNaN b = false → op a b ≠ .nan → op a b = .val a) ∧
      (F32.exp a ≠ 255 → F32.isInf b = true → op a b = .val (F32.inf (F32.sign b ^^ flip)))

/-- The binary32 product and quotient of two Halfs, always with the exclusive-or of the signs. Finite operands: the
product is exact, so only FloatToHalf rounds in MULF (R203); the quotient by a divisor other than 0 is finite and
the nearest to the exact quotient, ties to even (R204). A finite Half other than 0 by zero is an infinity, an
infinity times a Half other than 0 or by a finite Half too, a finite Half by an infinity a zero (R111). Values are in
units of 2^-149 and 2^-24. The arithmetic and the formats are general knowledge the spec supplies (logs 11, 27). -/
def Obligations.HalfProductsAndQuotientsInBinary32 : Prop :=
  ∀ h k : Word,
    (Half.exp h ≠ 31 → Half.exp k ≠ 31 →
      ∃ r, f32Mul (halfToFloat h) (halfToFloat k) = .val r ∧ F32.exp r ≠ 255 ∧
        F32.value r = Half.value h * Half.value k * 2 ^ 101 ∧ F32.sign r = (Half.sign h ^^ Half.sign k)) ∧
    (Half.exp h ≠ 31 → Half.exp k ≠ 31 → Half.isZero k = false →
      ∃ r, f32Div (halfToFloat h) (halfToFloat k) = .val r ∧ F32.exp r ≠ 255 ∧
        F32.sign r = (Half.sign h ^^ Half.sign k) ∧
        ∀ g : F32, F32.exp g ≠ 255 →
          (F32.value r * Half.value k - Half.value h * 2 ^ 149).natAbs ≤
            (F32.value g * Half.value k - Half.value h * 2 ^ 149).natAbs ∧
          ((F32.value r * Half.value k - Half.value h * 2 ^ 149).natAbs =
            (F32.value g * Half.value k - Half.value h * 2 ^ 149).natAbs → F32.value g ≠ F32.value r →
              r.getLsbD 0 = false)) ∧
    (Half.exp h ≠ 31 → Half.isZero h = false → Half.isZero k = true →
      f32Div (halfToFloat h) (halfToFloat k) = .val (F32.inf (Half.sign h ^^ Half.sign k))) ∧
    (Half.isInf h = true → Half.isNaN k = false → Half.isZero k = false →
      f32Mul (halfToFloat h) (halfToFloat k) = .val (F32.inf (Half.sign h ^^ Half.sign k)) ∧
      f32Mul (halfToFloat k) (halfToFloat h) = .val (F32.inf (Half.sign h ^^ Half.sign k))) ∧
    (Half.isInf h = true → Half.exp k ≠ 31 →
      f32Div (halfToFloat h) (halfToFloat k) = .val (F32.inf (Half.sign h ^^ Half.sign k)) ∧
      f32Div (halfToFloat k) (halfToFloat h) = .val (F32.zero (Half.sign h ^^ Half.sign k)))

/-- ADDF, SUBF, MULF and DIVF always complete: they write to the destination the demoted result of the
binary32 operation on the promoted sources, or, where that is a NaN, some Half NaN; never a subnormal; and
nothing else (R200 to R204, R206). Arithmetic and rounding are the spec's decisions D12, D15 (logs 5, 11, 15);
the lost write to `Ip` is its inference R300 (log 13). -/
def Obligations.FloatArithmeticPromotesComputesDemotes : Prop :=
  ∀ (mk : Byte → Byte → Byte → Instr) (op : F32 → F32 → FloatResult),
    (mk, op) ∈ [(Instr.addf, f32Add), (Instr.subf, f32Sub), (Instr.mulf, f32Mul), (Instr.divf, f32Div)] →
    ∀ (s : State) (d a b : Byte) (rd ra rb : Reg),
      s.regOf d = .ok rd → s.regOf a = .ok ra → s.regOf b = .ok rb →
      ∃ t, exec (mk d a b) s = .next t ∧
        (∀ f, op (halfToFloat (s.reg ra)) (halfToFloat (s.reg rb)) = .val f → rd ≠ .ip →
          t.reg rd = floatToHalf s.cfg.halfRound f) ∧
        (op (halfToFloat (s.reg ra)) (halfToFloat (s.reg rb)) = .nan → rd ≠ .ip → Half.isNaN (t.reg rd) = true) ∧
        (rd ≠ .ip → Half.isSubnormal (t.reg rd) = false) ∧
        t.ip = s.ip + 3 ∧ SameRegsExcept s t [rd, .ip] ∧ SameFlags s t ∧ SameMemory s t ∧ SameRest s t

/-- CMPF always completes: it writes `zero` and `sign` from the binary32 difference, demoted and read back
where CMPF_DEMOTE says so, both 0 for a NaN, never both 1; and no register but `Ip` (R205; the test is the
spec's decision D16, log 16). -/
def Obligations.FloatCompareWritesBothFlags : Prop :=
  ∀ (s : State) (a b : Byte) (ra rb : Reg), s.regOf a = .ok ra → s.regOf b = .ok rb →
    ∃ t, exec (.cmpf a b) s = .next t ∧
      (∀ f, f32Sub (halfToFloat (s.reg ra)) (halfToFloat (s.reg rb)) = .val f →
        (t.zero = true ↔ F32.isZero (cmpfTested s.cfg f) = true) ∧
        (t.sign = true ↔ F32.sign (cmpfTested s.cfg f) = true ∧ F32.isZero (cmpfTested s.cfg f) = false)) ∧
      (f32Sub (halfToFloat (s.reg ra)) (halfToFloat (s.reg rb)) = .nan → t.zero = false ∧ t.sign = false) ∧
      ¬ (t.zero = true ∧ t.sign = true) ∧ t.sysc = s.sysc ∧ t.ip = s.ip + 2 ∧
      SameRegsExcept s t [.ip] ∧ SameMemory s t ∧ SameRest s t

/-- What CMPF says of two finite Halfs as numbers: without demotion it compares them exactly; with demotion,
two Halfs closer than 2^-14 (1024 units of 2^-24) compare equal and all others by value (R205; D16). Logs 11,
16, 27. -/
def Obligations.FloatCompareOrdersFiniteHalfs : Prop :=
  ∀ (s t : State) (a b : Byte) (ra rb : Reg), s.regOf a = .ok ra → s.regOf b = .ok rb →
    Half.exp (s.reg ra) ≠ 31 → Half.exp (s.reg rb) ≠ 31 → exec (.cmpf a b) s = .next t →
    (s.cfg.cmpfDemote = false →
      (t.zero = true ↔ Half.value (s.reg ra) = Half.value (s.reg rb)) ∧
      (t.sign = true ↔ Half.value (s.reg ra) < Half.value (s.reg rb))) ∧
    (s.cfg.cmpfDemote = true →
      (t.zero = true ↔ (Half.value (s.reg ra) - Half.value (s.reg rb)).natAbs < 1024) ∧
      (t.sign = true ↔ Half.value (s.reg ra) + 1024 ≤ Half.value (s.reg rb)))

/-! ## Control transfer (45_control_transfer.md) -/

/-- The jumps always complete: `Ip` becomes the target where the condition on the flags holds and the offset
after the instruction otherwise; no other register, no flag and no memory changes (R220 to R227). JG and JL
are the spec's decision D18, JLE follows JLE_MODE (D17, log 14). -/
def Obligations.JumpsSetIpAlone : Prop :=
  ∀ (s : State) (mk : Word → Instr) (taken : Bool),
    (mk, taken) ∈ [(Instr.jmp, true), (Instr.je, s.zero), (Instr.jne, !s.zero), (Instr.jg, !s.zero && !s.sign),
      (Instr.jge, s.zero || !s.sign), (Instr.jl, s.sign && !s.zero),
      (Instr.jle, if s.cfg.jleMode = .observed then s.zero || !s.sign else s.zero || s.sign)] →
    ∀ addr : Word, ∃ t, exec (mk addr) s = .next t ∧ t.ip = (if taken then addr else s.ip + 2) ∧
      SameRegsExcept s t [.ip] ∧ SameFlags s t ∧ SameMemory s t ∧ SameRest s t ∧ t.draws = s.draws

/-- When the conditional jumps are taken after `CMP a,b`: JE on equal, JNE on different, JG on above, JGE on above
or equal, JL on below; JLE on above or equal in its observed mode, which is not what its name says, and on below
or equal in its intended one (R227, R229; the spec's decisions D17, D18; log 14). -/
def Obligations.JumpsAfterCompareFollowTheOrder : Prop :=
  ∀ (s t : State) (a b : Byte) (ra rb : Reg), s.regOf a = .ok ra → s.regOf b = .ok rb →
    exec (.cmp a b) s = .next t →
    ∀ (mk : Word → Instr) (holds : Prop),
      (mk, holds) ∈ [(Instr.je, (s.reg ra).toNat = (s.reg rb).toNat), (Instr.jne, (s.reg ra).toNat ≠ (s.reg rb).toNat),
        (Instr.jg, (s.reg ra).toNat > (s.reg rb).toNat), (Instr.jge, (s.reg ra).toNat ≥ (s.reg rb).toNat),
        (Instr.jl, (s.reg ra).toNat < (s.reg rb).toNat),
        (Instr.jle, match s.cfg.jleMode with
          | .observed => (s.reg ra).toNat ≥ (s.reg rb).toNat
          | .intended => (s.reg ra).toNat ≤ (s.reg rb).toNat)] →
      ∀ (addr : Word), ∃ u, exec (mk addr) t = .next u ∧ (holds → u.ip = addr) ∧ (¬ holds → u.ip = t.ip + 2)

/-! ## SYSCALL and the host protocol (46_syscall.md) -/

/-- SYSCALL of a registered id starts its host function, sets `sysc`, and changes nothing else but `Ip`; of an
unregistered id it is F_SYSCALL_ID (R240). What the handler finds in `Ip` is log 12. -/
def Obligations.SyscallStartsItsHostFunction : Prop :=
  ∀ (s : State) (id : Word),
    (∀ fn, s.hostFn id = some fn →
      ∃ t, exec (.syscall id) s = .next t ∧ t.sysc = true ∧ t.gen = some ⟨fn.script⟩ ∧ t.ip = s.ip + 2 ∧
        SameRegsExcept s t [.ip] ∧ SameCompare s t ∧ SameMemory s t ∧ SameConfiguration s t ∧ t.err = s.err ∧
        t.fault = s.fault ∧ t.draws = s.draws) ∧
    (s.hostFn id = none → exec (.syscall id) s = .fault (.syscallId id))

/-- A step with a syscall in progress: the resumption's accessor operations run in order and a failing one
fails the step; then `continue` keeps the call in progress, `done` ends it and `error` is F_SYSCALL_ERR
(41_engine_step.md R134, R246). A script that is used up is followed by free resumptions (log 6); which
message an `error` carries is log 7. -/
def Obligations.SyscallStepFollowsTheSignal : Prop :=
  ∀ (s : State) (g g' : Generator) (r : Resumption) (n : Nat), s.Resuming g → g.next s.draws = (r, g', n) →
    (∀ u, { s with draws := n }.accessAll r.ops = .ok u →
      (r.signal = .continue → step s = .next { u with gen := some g' }) ∧
      (r.signal = .done → step s = .next { u with gen := none, sysc := false }) ∧
      (∀ msg, r.signal = .error msg → step s = .fault (.syscallErr (u.err.getD msg)))) ∧
    (∀ f, { s with draws := n }.accessAll r.ops = .error f → step s = .fault f)

/-- Whatever a host function does in a resumption, it cannot write `Ip`, the compare flags, a register other than
`A0`, `Sp` and `Fp`, the code buffer, the constants or the configuration, nor memory where it establishes no
frame, and the call stays in progress exactly when it yields `continue` (R244, R134). The spec derives it from
the accessor's operations; how a host function is held is log 6. -/
def Obligations.HostFunctionsAreConfined : Prop :=
  ∀ (s t : State) (g : Generator), s.Resuming g → step s = .next t →
    t.ip = s.ip ∧ SameCompare s t ∧ SameRegsExcept s t [.a0, .sp, .fp] ∧ SameConfiguration s t ∧
    t.fault = none ∧ (t.sysc = true ↔ (g.next s.draws).1.signal = .continue) ∧
    (.establish ∉ (g.next s.draws).1.ops → SameMemory s t)

/-- The accessor's set-return writes `A0` and no other register (R249), and its error signal writes the message to
ERR; neither changes anything else (46_syscall.md R250 for the error signal). -/
def Obligations.AccessorWritesReturnOrError : Prop :=
  ∀ s : State,
    (∀ v : Word, ∃ t, s.access (.setReturn v) = .ok t ∧ t.reg .a0 = v ∧ SameRegsExcept s t [.a0] ∧
      SameFlags s t ∧ SameMemory s t ∧ SameRest s t ∧ t.draws = s.draws) ∧
    (∀ msg : HostMsg, ∃ t, s.access (.signalError msg) = .ok t ∧ t.err = some msg ∧ SameRegsExcept s t [] ∧
      SameFlags s t ∧ SameMemory s t ∧ SameConfiguration s t ∧ t.fault = s.fault ∧ t.gen = s.gen ∧
      t.draws = s.draws)

/-- Establishing a frame writes the old `Fp` at `Sp` and leaves `Sp` and `Fp` one below it, or faults with F_MEM
(R251). Tearing one down takes `Sp` from `Fp`, raises it by one and reads `Fp` there, or faults with F_MEM; done
right after establishing, it restores `Sp` and `Fp` (R252). The wrap of
`Sp` and the fault are the spec's decisions D10 and D28 (logs 9, 28). -/
def Obligations.FramesAreEstablishedAndTornDown : Prop :=
  ∀ s : State, s.MemOk →
    ((s.reg .sp).toNat < s.memSize →
      ∃ t u, s.access .establish = .ok t ∧ t.memRead (s.reg .sp) = .ok (s.reg .fp) ∧
        SameMemoryExcept s t (s.reg .sp) ∧ t.reg .sp = s.reg .sp - 1 ∧ t.reg .fp = s.reg .sp - 1 ∧
        SameRegsExcept s t [.sp, .fp] ∧ SameFlags s t ∧ SameRest s t ∧
        t.access .teardown = .ok u ∧ SameRegsExcept s u []) ∧
    (s.memSize ≤ (s.reg .sp).toNat → s.access .establish = .error (.mem (s.reg .sp))) ∧
    (∀ v, s.memRead (s.reg .fp + 1) = .ok v →
      ∃ t, s.access .teardown = .ok t ∧ t.reg .sp = s.reg .fp + 1 ∧ t.reg .fp = v ∧
        SameRegsExcept s t [.sp, .fp] ∧ SameFlags s t ∧ SameMemory s t ∧ SameRest s t) ∧
    (s.memSize ≤ (s.reg .fp + 1).toNat → s.access .teardown = .error (.mem (s.reg .fp + 1)))

/-- The accessor's two reads change nothing: the argument word at `Fp - n + 2` modulo 2^16 must be inside MEM, and
every word of the entry a string argument designates, its length word and the text words it counts, below
CONST_LEN (R247, R248, 20_memory.md R54, R64). The address is the source's formula, which 90_conflicts.md C7 keeps;
the width of the sum is the spec's decision D28 (log 9). That the argument is a word index, and which index a
failing read records, is log 8; a string's text is no machine behaviour. -/
def Obligations.AccessorReadsAreBoundedAndPure : Prop :=
  ∀ (s : State) (n : Word), s.BuffersOk →
    (∀ v, s.memRead (s.reg .fp - n + 2) = .ok v →
      s.access (.readArg n) = .ok s ∧
      (∀ len, s.consts[v.toNat]? = some len → v.toNat + 1 + len.toNat ≤ s.consts.length →
        s.access (.readString n) = .ok s) ∧
      (∀ len, s.consts[v.toNat]? = some len → s.consts.length < v.toNat + 1 + len.toNat →
        ∃ i : Word, i.toNat = s.consts.length ∧ s.access (.readString n) = .error (.const i)) ∧
      (s.consts.length ≤ v.toNat → s.access (.readString n) = .error (.const v))) ∧
    (s.memSize ≤ (s.reg .fp - n + 2).toNat →
      s.access (.readArg n) = .error (.mem (s.reg .fp - n + 2)) ∧
      s.access (.readString n) = .error (.mem (s.reg .fp - n + 2)))

/-! ## The step (41_engine_step.md) -/

/-- The order in which a step decides what to do: a latched fault, then a syscall in progress, then a pending
error, then the fetch (R133; the latch is the spec's decision D7, log 10). -/
def Obligations.StepCasesArePrioritised : Prop :=
  ∀ s : State, s.phase = .ready →
    (∀ f, s.fault = some f → step s = .fault f) ∧
    (s.fault = none → s.sysc = true → step s = s.advance) ∧
    (s.fault = none → s.sysc = false → ∀ msg, s.err = some msg → step s = .fault (.syscallErr msg)) ∧
    (s.fault = none → s.sysc = false → s.err = none → step s = s.fetchAndRun)

/-- A step runs the decoded instruction: where the bytes at `Ip` decode, through this machine's handler
table, to `i`, the step is `exec i` from the state with `Ip` moved past the opcode byte; under IP_OPERAND =
REFUSE an instruction that names `Ip` is refused instead (R136, R137; 93 U5, log 13). -/
def Obligations.StepRunsTheDecodedInstruction : Prop :=
  ∀ (s : State) (i : Instr), s.Fetching → decodeAt s.handler s.code s.ip.toNat = .ok i →
    (i.admitted s.cfg = true → step s = exec i (s.setIp (s.ip + 1))) ∧
    (i.admitted s.cfg = false → step s = .refused .ipOperand)

/-- The same for the default opcode map and the code from `Ip` on: with both units registered and
IP_OPERAND = SPEC, if `decode` reads an instruction from the bytes at `Ip`, the step is `exec` of it (R75, R136). -/
def Obligations.StepRunsWhatDecodeReads : Prop :=
  ∀ (s : State) (i : Instr), s.Fetching → s.handlers = bothUnits → s.cfg.ipOperand = .spec →
    decode (s.code.drop s.ip.toNat) = .ok i → step s = exec i (s.setIp (s.ip + 1))

/-- The fetch faults: an opcode byte without a handler is F_OPCODE, and operands past the end of the code
buffer are F_OPERAND with the offset of the failed read (R136, 30_encoding.md R76, R78). -/
def Obligations.FetchFaultsAreReported : Prop :=
  ∀ (s : State) (op : Byte), s.Fetching → s.code[s.ip.toNat]? = some op →
    (s.handler op = none → step s = .fault (.opcode op)) ∧
    (∀ (m : Mnemonic) (c : Nat), s.handler op = some m → decodeOperands m s.code (s.ip.toNat + 1) = .error c →
      step s = .fault (.operand c))

/-- HALT: a fetch with `Ip` outside the code buffer changes nothing, reports termination and no fault, and
does so again on every later call; writing `Ip` back inside through the port makes the next step fetch (R145).
That HALT is a next state equal to the old one is log 22; the port is log 29. -/
def Obligations.HaltIsIdempotent : Prop :=
  ∀ s : State, s.Fetching → s.code.length ≤ s.ip.toNat →
    step s = .next s ∧ stepRun s = .value .halt { s with stepped := true } ∧
    stepRun { s with stepped := true } = .value .halt { s with stepped := true } ∧
    (∀ (id : Byte) (v : Word), s.regOf id = .ok .ip → v.toNat < s.code.length →
      ∃ t, setRegPort id v s = .value () t ∧ t.Fetching ∧ t.halts = false ∧ t.ip = v)

/-- A failing `StepRun` latches: the same failure is reported ever after and nothing changes; `Ip` is one past the
opcode byte for a fault of the fetch or a handler, and no syscall stays in progress (R146, 60_exceptions.md R261;
the latch is the spec's decision D7, log 10). ERR holds what the failing resumption has recorded up to its
failure, and outside a resumption what it held (10_state.md R33, 46_syscall.md R250; that a failure keeps it is
the model's reading, log 32). -/
def Obligations.FailingStepsLatch : Prop :=
  ∀ (s t : State) (f : Fault), stepRun s = .value (.fail f) t →
    t.fault = some f ∧ stepRun t = .value (.fail f) t ∧
    (s.fault = none → t.sysc = false) ∧ (s.Fetching → t.ip = s.ip + 1) ∧
    (s.sysc = false → t.err = s.err) ∧
    (∀ (g g' : Generator) (r : Resumption) (n : Nat) (before after : List AccessorOp) (u : State),
      s.Resuming g → g.next s.draws = (r, g', n) → r.ops = before ++ after →
      { s with draws := n }.accessAll before = .ok u →
      (after = [] ∨ ∃ op more e, after = op :: more ∧ u.access op = .error e) → t.err = u.err)

/-! ## Whole-machine rules -/

/-- No instruction is refused: every instruction in every state completes or ends in a fault the spec names.
This is the model's own property, that 28 instructions have a meaning. -/
def Obligations.NoInstructionIsRefused : Prop :=
  ∀ (i : Instr) (s : State) (r : Refusal), exec i s ≠ .refused r

/-- Only CMP and CMPF write `zero` and `sign`, and only SYSCALL writes `sysc` (10_state.md R30,
70_reset_and_hazards.md R307). The spec derives it from the source's list of writers. -/
def Obligations.OnlyComparesAndSyscallWriteFlags : Prop :=
  ∀ (i : Instr) (s t : State), exec i s = .next t →
    (i.mnemonic ≠ .cmp → i.mnemonic ≠ .cmpf → SameCompare s t) ∧ (i.mnemonic ≠ .syscall → t.sysc = s.sysc)

/-- Only the jumps change the flow of control: every other instruction that completes leaves `Ip` at the next
instruction, even when it names `Ip` as its destination (70_reset_and_hazards.md R300, 45 R228). The spec
derives it; log 13. -/
def Obligations.OnlyJumpsChangeTheFlow : Prop :=
  ∀ (i : Instr) (s t : State), exec i s = .next t → i.mnemonic.format ≠ .A →
    t.ip = s.ip + BitVec.ofNat 16 (i.length - 1)

/-- Only STOREI, STORE and PUSH write memory (20_memory.md R53, 10_state.md R41). The spec derives it. -/
def Obligations.OnlyStoresWriteMemory : Prop :=
  ∀ (i : Instr) (s t : State), exec i s = .next t →
    i.mnemonic ≠ .storei → i.mnemonic ≠ .store → i.mnemonic ≠ .push → t.mem = s.mem

/-- No step writes the code buffer, the constants, the tables, the parameters or the memory size (10_state.md
R36 to R40, 20_memory.md R60). The tables' constancy is the spec's decision D20 (log 29). -/
def Obligations.StepKeepsTheConfiguration : Prop :=
  ∀ s t : State, step s = .next t → SameConfiguration s t

/-- The invariant is kept by every step from every state that meets it: memory in canonical form and range, a
generator exactly when `sysc` is set (10_state.md R35), `zero` and `sign` never both set (R31), buffers,
tables and register numbering as the spec bounds them. The spec derives these, the tables' form (each handler
once) is log 31; the canonical form is the model's (logs 3, 4). -/
def Obligations.StepKeepsTheInvariant : Prop :=
  ∀ s t : State, s.Inv → step s = .next t → t.Inv

/-- The invariant holds after reset. The reset state's size and module are the model's choice (logs 1, 2). -/
def Obligations.ResetMeetsTheInvariant : Prop := State.reset.Inv

/-! ## Setup, module and reset (41_engine_step.md, 20_memory.md, 70_reset_and_hazards.md) -/

/-- RegisterOpcode fills an empty entry and no other, and refuses to overwrite a filled one, changing nothing
(R140); a handler that stands under another opcode is refused (30_encoding.md R79, 93 U8, log 31).
RegisterSyscall makes one new entry and no other (46_syscall.md R241), and a second one for an id is refused (93
U13, log 24). Tables keep their form. When registration may happen is the spec's decision D20 (logs 24, 29); that
a failing RegisterOpcode leaves the machine usable is the model's choice (log 31). -/
def Obligations.RegisteringNeverOverwrites : Prop :=
  ∀ (s : State) (op : Byte) (h : Mnemonic), s.phase ≠ .setupFailed → s.phase ≠ .initFailed → s.stepped = false →
    s.TablesOk →
    (s.handler op = none → (∀ o, s.handler o ≠ some h) → ∃ t, registerOpcode op h s = .value () t ∧
      t.handler op = some h ∧ (∀ other, other ≠ op → t.handler other = s.handler other) ∧ t.TablesOk) ∧
    (∀ m, s.handler op = some m → registerOpcode op h s = .error (.dupOpcode op) s) ∧
    (∀ o, s.handler op = none → s.handler o = some h → registerOpcode op h s = .refused (.foreignHandler op)) ∧
    (∀ (id : Word) (fn : HostFn), s.hostFn id = none →
      ∃ t, registerSyscall id fn s = .value () t ∧ t.hostFn id = some fn ∧
        (∀ other, other ≠ id → t.hostFn other = s.hostFn other) ∧ t.TablesOk) ∧
    (∀ (id : Word) (fn old : HostFn), s.hostFn id = some old →
      registerSyscall id fn s = .refused (.duplicateSyscall id))

/-- Registering the units on a new engine: ALU then FPU, or FPU then ALU, gives the same table, with the handler of
each of the 28 opcodes under its byte and none elsewhere; with the ALU alone the five FPU opcodes have none; each
unit registered a second time fails on its first opcode, LOADI or ADDF, and ends setup (R141, R142). Opcode bytes
and the units' shares are its decisions D1, D19 (logs 17, 29). -/
def Obligations.UnitsFillTheHandlerTable : Prop :=
  ∃ alu fpu both both', registerUnit opc .alu (State.constructed Params.default) = .value () alu ∧
    registerUnit opc .fpu alu = .value () both ∧
    registerUnit opc .fpu (State.constructed Params.default) = .value () fpu ∧
    registerUnit opc .alu fpu = .value () both' ∧ both' = both ∧
    both.handlers = bothUnits ∧ (∀ op, both.handler op = mnemonicOf op) ∧
    (∀ m ∈ allMnemonics, alu.handler (opc m) = if m ∈ unitOpcodes .fpu then none else some m) ∧
    registerUnit opc .alu both = .error (.dupOpcode 0x00) { both with phase := .setupFailed } ∧
    registerUnit opc .fpu both = .error (.dupOpcode 0x09) { both with phase := .setupFailed }

/-- Loading a module that holds one constants and one code section, in either order, one of them alone or none
gives exactly their contents, an absent section an empty buffer; after any such sections, or at the start, a
section cut short or with an unknown tag is malformed (R62, R63, R64). The packing of constants is the spec's
decision D24, the empty buffer its decision D26 (log 26). -/
def Obligations.ModuleLoadsItsSections : Prop :=
  ∀ (code : List Byte) (consts : List Word), code.length ≤ 65535 → consts.length ≤ 32767 →
    ∀ (sections : List Byte) (code' : List Byte) (consts' : List Word),
      (sections, code', consts') ∈
        [([], [], []), (sectionBytes 1 code, code, []), (sectionBytes 0 (bytesOfWords consts), [], consts),
          (sectionBytes 0 (bytesOfWords consts) ++ sectionBytes 1 code, code, consts),
          (sectionBytes 1 code ++ sectionBytes 0 (bytesOfWords consts), code, consts)] →
      loadModule sections = .loaded code' consts' ∧
      (∀ (tag : Byte) (payload rest : List Byte), 1 < tag.toNat → payload.length ≤ 65535 →
        loadModule (sections ++ sectionBytes tag payload ++ rest) = .malformed (.unknownTag tag)) ∧
      (∀ (tag : Byte) (payload : List Byte) (n : Nat), payload.length ≤ 65535 → 0 < n → n < payload.length + 3 →
        loadModule (sections ++ (sectionBytes tag payload).take n) = .malformed .truncated)

/-- A successful Init gives the reset state: every register 0 but `Sp = Fp = MEM_SIZE - 1`, flags 0, latches
and generator empty, every word of memory 0, code and constants from the module, tables kept (R291,
10_state.md R42; the values of flags, memory and latches are the spec's decision D5). Logs 4, 29. -/
def Obligations.InitGivesTheResetState : Prop :=
  ∀ (s : State) (m : List Byte) (n : Nat) (code : List Byte) (consts : List Word),
    s.phase ≠ .setupFailed → 1 ≤ n → n ≤ 65536 → loadModule m = .loaded code consts →
    ∃ t, init m n s = .value () t ∧ t.phase = .ready ∧ (t.reg .sp).toNat = n - 1 ∧ (t.reg .fp).toNat = n - 1 ∧
      (∀ r, r ≠ .sp → r ≠ .fp → t.reg r = 0) ∧ t.zero = false ∧ t.sign = false ∧ t.sysc = false ∧
      t.err = none ∧ t.fault = none ∧ t.gen = none ∧ t.memSize = n ∧
      (∀ a : Word, a.toNat < n → t.memRead a = .ok 0) ∧ t.code = code ∧ t.consts = consts ∧
      t.handlers = s.handlers ∧ t.syscalls = s.syscalls

/-- A module that does not load makes Init fail with E_MODULE, and then every step, port access and registration is
refused; a new Init with a module that loads succeeds (R292; 93 U3, log 23). -/
def Obligations.FailedInitLeavesTheEngineUnusable : Prop :=
  ∀ (s : State) (m : List Byte) (n : Nat) (e : ModuleError),
    s.phase ≠ .setupFailed → 1 ≤ n → n ≤ 65536 → loadModule m = .malformed e →
    ∃ t, init m n s = .error (.badModule e) t ∧ step t = .refused .notInitialised ∧
      (∀ (id : Byte) (v : Word), getReg id t = .refused .notInitialised ∧ setRegPort id v t = .refused .notInitialised) ∧
      (∀ (op : Byte) (h : Mnemonic), registerOpcode op h t = .refused .notInitialised) ∧
      (∀ (code : Mnemonic → Byte) (u : ExecUnit), registerUnit code u t = .refused .notInitialised) ∧
      (∀ (id : Word) (fn : HostFn), registerSyscall id fn t = .refused .notInitialised) ∧
      (∀ (m' : List Byte) (code : List Byte) (consts : List Word), loadModule m' = .loaded code consts →
        ∃ u, init m' n t = .value () u ∧ u.phase = .ready)

/-- The reset state of this model is what construction, registration of both units and `Init` of the empty
module with MEM_SIZE = 65536 give; the module and the size are the model's choice (logs 1, 2). -/
def Obligations.ResetIsReachedBySetup : Prop :=
  ∃ s₁ s₂, registerUnit opc .alu (State.constructed Params.default) = .value () s₁ ∧
    registerUnit opc .fpu s₁ = .value () s₂ ∧ init [] 65536 s₂ = .value () State.reset
end

