-- ==== Sys2Proof/Laws/Memory.lean ====
section
/-! SUPPORT. The laws of tables and of linear memory: what a read after a write gives, and that every
operation keeps the canonical form. -/

namespace Sys2Proof.Machine

variable {α : Type}

theorem Table.lookup_insert (t : List (Nat × α)) (k k' : Nat) (v : α) :
    Table.lookup (Table.insert t k v) k' = if k' = k then some v else Table.lookup t k' := by
  induction t with
  | nil => simp [Table.insert, Table.lookup]
  | cons e t ih =>
    obtain ⟨j, w⟩ := e
    unfold Table.insert
    split
    · simp [Table.lookup]
    · split
      · next h => subst h; simp only [Table.lookup]; split <;> rfl
      · next h1 h2 =>
        simp only [Table.lookup, ih]
        split
        · next h3 => subst h3; simp [Ne.symm h2]
        · rfl

theorem Table.lookup_eq_none {t : List (Nat × α)} {k : Nat} (h : ∀ e ∈ t, e.1 ≠ k) : Table.lookup t k = none := by
  induction t with
  | nil => rfl
  | cons e t ih =>
    obtain ⟨j, w⟩ := e
    have hj : ¬ k = j := fun e => h (j, w) (by simp) e.symm
    simp only [Table.lookup, hj, if_false]
    exact ih fun e he => h e (by simp [he])

theorem Table.lookup_erase {t : List (Nat × α)} (ht : Table.Sorted t) (k k' : Nat) :
    Table.lookup (Table.erase t k) k' = if k' = k then none else Table.lookup t k' := by
  induction t with
  | nil => simp [Table.erase, Table.lookup]
  | cons e t ih =>
    obtain ⟨j, w⟩ := e
    have hhead := (List.pairwise_cons.1 ht).1
    have htail := (List.pairwise_cons.1 ht).2
    unfold Table.erase
    split
    · next h =>
      subst h
      simp only [Table.lookup]
      split
      · next h2 =>
        subst h2
        exact Table.lookup_eq_none fun e he => Nat.ne_of_gt (hhead e he)
      · rfl
    · next h =>
      simp only [Table.lookup, ih htail]
      split
      · next h2 => subst h2; simp [Ne.symm h]
      · rfl

theorem Table.mem_insert {t : List (Nat × α)} {k : Nat} {v : α} {e : Nat × α} (h : e ∈ Table.insert t k v) :
    e = (k, v) ∨ e ∈ t := by
  induction t with
  | nil => simpa [Table.insert] using h
  | cons d t ih =>
    obtain ⟨j, w⟩ := d
    unfold Table.insert at h
    split at h
    · simpa using h
    · split at h
      · rcases List.mem_cons.1 h with h | h
        · exact .inl h
        · exact .inr (by simp [h])
      · rcases List.mem_cons.1 h with h | h
        · exact .inr (by simp [h])
        · rcases ih h with h | h
          · exact .inl h
          · exact .inr (by simp [h])

theorem Table.mem_erase {t : List (Nat × α)} {k : Nat} {e : Nat × α} (h : e ∈ Table.erase t k) : e ∈ t := by
  induction t with
  | nil => simp [Table.erase] at h
  | cons d t ih =>
    unfold Table.erase at h
    split at h
    · simp [h]
    · rcases List.mem_cons.1 h with h | h
      · simp [h]
      · simp [ih h]

theorem Table.sorted_insert {t : List (Nat × α)} (ht : Table.Sorted t) (k : Nat) (v : α) :
    Table.Sorted (Table.insert t k v) := by
  induction t with
  | nil => simp [Table.insert]
  | cons e t ih =>
    obtain ⟨j, w⟩ := e
    have hhead := (List.pairwise_cons.1 ht).1
    have htail := (List.pairwise_cons.1 ht).2
    unfold Table.insert
    split
    · next h =>
      refine List.pairwise_cons.2 ⟨fun e he => ?_, ht⟩
      rcases List.mem_cons.1 he with rfl | he
      · exact h
      · exact Nat.lt_trans h (hhead e he)
    · split
      · next h => subst h; exact List.pairwise_cons.2 ⟨hhead, htail⟩
      · next h1 h2 =>
        refine List.pairwise_cons.2 ⟨fun e he => ?_, ih htail⟩
        rcases Table.mem_insert he with rfl | he
        · simp only; omega
        · exact hhead e he

theorem Table.sorted_erase {t : List (Nat × α)} (ht : Table.Sorted t) (k : Nat) : Table.Sorted (Table.erase t k) := by
  induction t with
  | nil => simp [Table.erase]
  | cons e t ih =>
    obtain ⟨j, w⟩ := e
    have hhead := (List.pairwise_cons.1 ht).1
    have htail := (List.pairwise_cons.1 ht).2
    unfold Table.erase
    split
    · exact htail
    · exact List.pairwise_cons.2 ⟨fun e he => hhead e (Table.mem_erase he), ih htail⟩

/-- Equal canonical tables are those that look up alike. -/
theorem Table.ext {t u : List (Nat × α)} (ht : Table.Sorted t) (hu : Table.Sorted u)
    (h : ∀ k, Table.lookup t k = Table.lookup u k) : t = u := by
  induction t generalizing u with
  | nil =>
    cases u with
    | nil => rfl
    | cons e u => have := h e.1; simp [Table.lookup] at this
  | cons e t ih =>
    obtain ⟨j, w⟩ := e
    have hhead := (List.pairwise_cons.1 ht).1
    have htail := (List.pairwise_cons.1 ht).2
    cases u with
    | nil => have := h j; simp [Table.lookup] at this
    | cons d u =>
      obtain ⟨i, x⟩ := d
      have uhead := (List.pairwise_cons.1 hu).1
      have utail := (List.pairwise_cons.1 hu).2
      have hji : j = i := by
        by_contra hne
        rcases Nat.lt_or_gt_of_ne hne with hlt | hlt
        · have hj := h j
          rw [show Table.lookup ((j, w) :: t) j = some w by simp [Table.lookup],
            Table.lookup_eq_none (t := (i, x) :: u) (k := j)] at hj
          · simp at hj
          · intro e he
            rcases List.mem_cons.1 he with rfl | he
            · exact Nat.ne_of_gt hlt
            · exact Nat.ne_of_gt (Nat.lt_trans hlt (uhead e he))
        · have hi := h i
          rw [show Table.lookup ((i, x) :: u) i = some x by simp [Table.lookup],
            Table.lookup_eq_none (t := (j, w) :: t) (k := i)] at hi
          · simp at hi
          · intro e he
            rcases List.mem_cons.1 he with rfl | he
            · exact Nat.ne_of_gt hlt
            · exact Nat.ne_of_gt (Nat.lt_trans hlt (hhead e he))
      subst hji
      have hwx : w = x := by simpa [Table.lookup] using h j
      subst hwx
      congr 1
      refine ih htail utail fun k => ?_
      by_cases hk : k = j
      · subst hk
        rw [Table.lookup_eq_none fun e he => Nat.ne_of_gt (hhead e he),
          Table.lookup_eq_none fun e he => Nat.ne_of_gt (uhead e he)]
      · simpa [Table.lookup, hk] using h k

/-- Reading after a write. -/
theorem Memory.read_write {m : Memory} (hm : Table.Sorted m) (a a' : Nat) (v : Word) :
    (Memory.write m a v).read a' = if a' = a then v else m.read a' := by
  unfold Memory.write Memory.read
  split
  · next h => rw [Table.lookup_erase hm]; split <;> simp [h]
  · rw [Table.lookup_insert]; split <;> simp

/-- A write below the size keeps the canonical form. -/
theorem Memory.wf_write {size : Nat} {m : Memory} (hm : Memory.wf size m) {a : Nat} (ha : a < size) (v : Word) :
    Memory.wf size (Memory.write m a v) := by
  unfold Memory.write
  split
  · exact ⟨Table.sorted_erase hm.1 a, fun c hc => hm.2 c (Table.mem_erase hc)⟩
  · next hv =>
    refine ⟨Table.sorted_insert hm.1 a v, fun c hc => ?_⟩
    rcases Table.mem_insert hc with rfl | hc
    · exact ⟨ha, hv⟩
    · exact hm.2 c hc

theorem Memory.wf_nil (size : Nat) : Memory.wf size [] := by
  simp [Memory.wf]

/-- The memory built from given words is in canonical form. -/
theorem Memory.wf_ofWords (size : Nat) (word : Nat → Word) : Memory.wf size (Memory.ofWords size word) := by
  unfold Memory.ofWords
  constructor
  · refine List.Pairwise.filterMap _ (S := fun a b : Nat × Word => a.1 < b.1) ?_ List.pairwise_lt_range
    intro a a' haa b hb b' hb'
    split at hb <;> simp at hb
    split at hb' <;> simp at hb'
    subst hb hb'
    exact haa
  · intro c hc
    obtain ⟨a, ha, hb⟩ := List.mem_filterMap.1 hc
    split at hb
    · simp at hb
    · next h =>
      simp only [Option.some.injEq] at hb
      subst hb
      exact ⟨List.mem_range.1 ha, h⟩

/-- Canonical memories that read alike are equal. -/
theorem Memory.ext {size : Nat} {m n : Memory} (hm : Memory.wf size m) (hn : Memory.wf size n)
    (h : ∀ a, m.read a = n.read a) : m = n := by
  have ne : ∀ {m : Memory}, Memory.wf size m → ∀ k v, Table.lookup m k = some v → v ≠ Memory.unlisted := by
    intro m
    induction m with
    | nil => intro _ k v h; simp [Table.lookup] at h
    | cons e m ih =>
      intro hm k v h
      obtain ⟨j, w⟩ := e
      simp only [Table.lookup] at h
      split at h
      · simp only [Option.some.injEq] at h
        subst h
        exact (hm.2 (j, w) (by simp)).2
      · exact ih ⟨(List.pairwise_cons.1 hm.1).2, fun c hc => hm.2 c (by simp [hc])⟩ k v h
  refine Table.ext hm.1 hn.1 fun k => ?_
  have hk := h k
  unfold Memory.read at hk
  cases h1 : Table.lookup m k with
  | none =>
    cases h2 : Table.lookup n k with
    | none => rfl
    | some y => rw [h1, h2] at hk; exact absurd hk.symm (ne hn k y h2)
  | some x =>
    cases h2 : Table.lookup n k with
    | none => rw [h1, h2] at hk; exact absurd hk (ne hm k x h1)
    | some y => rw [h1, h2] at hk; simpa using hk

end Sys2Proof.Machine
end

