-- ==== Sys2Proof/Laws/State.lean ====
section
/-! SUPPORT. One lemma per field per update of the state, and the laws of reading and writing registers. -/

namespace Sys2Proof.Machine

/-! ## Writing a register leaves every other field -/

@[simp] theorem State.setReg_phase (s : State) (r : Reg) (v : Word) : (s.setReg r v).phase = s.phase := rfl
@[simp] theorem State.setReg_stepped (s : State) (r : Reg) (v : Word) : (s.setReg r v).stepped = s.stepped := rfl
@[simp] theorem State.setReg_cfg (s : State) (r : Reg) (v : Word) : (s.setReg r v).cfg = s.cfg := rfl
@[simp] theorem State.setReg_zero (s : State) (r : Reg) (v : Word) : (s.setReg r v).zero = s.zero := rfl
@[simp] theorem State.setReg_sign (s : State) (r : Reg) (v : Word) : (s.setReg r v).sign = s.sign := rfl
@[simp] theorem State.setReg_sysc (s : State) (r : Reg) (v : Word) : (s.setReg r v).sysc = s.sysc := rfl
@[simp] theorem State.setReg_err (s : State) (r : Reg) (v : Word) : (s.setReg r v).err = s.err := rfl
@[simp] theorem State.setReg_fault (s : State) (r : Reg) (v : Word) : (s.setReg r v).fault = s.fault := rfl
@[simp] theorem State.setReg_gen (s : State) (r : Reg) (v : Word) : (s.setReg r v).gen = s.gen := rfl
@[simp] theorem State.setReg_handlers (s : State) (r : Reg) (v : Word) : (s.setReg r v).handlers = s.handlers := rfl
@[simp] theorem State.setReg_syscalls (s : State) (r : Reg) (v : Word) : (s.setReg r v).syscalls = s.syscalls := rfl
@[simp] theorem State.setReg_memSize (s : State) (r : Reg) (v : Word) : (s.setReg r v).memSize = s.memSize := rfl
@[simp] theorem State.setReg_mem (s : State) (r : Reg) (v : Word) : (s.setReg r v).mem = s.mem := rfl
@[simp] theorem State.setReg_code (s : State) (r : Reg) (v : Word) : (s.setReg r v).code = s.code := rfl
@[simp] theorem State.setReg_consts (s : State) (r : Reg) (v : Word) : (s.setReg r v).consts = s.consts := rfl
@[simp] theorem State.setReg_draws (s : State) (r : Reg) (v : Word) : (s.setReg r v).draws = s.draws := rfl

/-! ## Writing the compare flags -/

@[simp] theorem State.setCompare_regs (s : State) (z n : Bool) : (s.setCompare z n).regs = s.regs := rfl
@[simp] theorem State.setCompare_phase (s : State) (z n : Bool) : (s.setCompare z n).phase = s.phase := rfl
@[simp] theorem State.setCompare_stepped (s : State) (z n : Bool) : (s.setCompare z n).stepped = s.stepped := rfl
@[simp] theorem State.setCompare_cfg (s : State) (z n : Bool) : (s.setCompare z n).cfg = s.cfg := rfl
@[simp] theorem State.setCompare_zero (s : State) (z n : Bool) : (s.setCompare z n).zero = z := rfl
@[simp] theorem State.setCompare_sign (s : State) (z n : Bool) : (s.setCompare z n).sign = n := rfl
@[simp] theorem State.setCompare_sysc (s : State) (z n : Bool) : (s.setCompare z n).sysc = s.sysc := rfl
@[simp] theorem State.setCompare_err (s : State) (z n : Bool) : (s.setCompare z n).err = s.err := rfl
@[simp] theorem State.setCompare_fault (s : State) (z n : Bool) : (s.setCompare z n).fault = s.fault := rfl
@[simp] theorem State.setCompare_gen (s : State) (z n : Bool) : (s.setCompare z n).gen = s.gen := rfl
@[simp] theorem State.setCompare_handlers (s : State) (z n : Bool) : (s.setCompare z n).handlers = s.handlers := rfl
@[simp] theorem State.setCompare_syscalls (s : State) (z n : Bool) : (s.setCompare z n).syscalls = s.syscalls := rfl
@[simp] theorem State.setCompare_memSize (s : State) (z n : Bool) : (s.setCompare z n).memSize = s.memSize := rfl
@[simp] theorem State.setCompare_mem (s : State) (z n : Bool) : (s.setCompare z n).mem = s.mem := rfl
@[simp] theorem State.setCompare_code (s : State) (z n : Bool) : (s.setCompare z n).code = s.code := rfl
@[simp] theorem State.setCompare_consts (s : State) (z n : Bool) : (s.setCompare z n).consts = s.consts := rfl
@[simp] theorem State.setCompare_draws (s : State) (z n : Bool) : (s.setCompare z n).draws = s.draws := rfl

/-! ## Drawing a NaN -/

@[simp] theorem State.drawNan_regs (s : State) : s.drawNan.2.regs = s.regs := rfl
@[simp] theorem State.drawNan_phase (s : State) : s.drawNan.2.phase = s.phase := rfl
@[simp] theorem State.drawNan_stepped (s : State) : s.drawNan.2.stepped = s.stepped := rfl
@[simp] theorem State.drawNan_cfg (s : State) : s.drawNan.2.cfg = s.cfg := rfl
@[simp] theorem State.drawNan_zero (s : State) : s.drawNan.2.zero = s.zero := rfl
@[simp] theorem State.drawNan_sign (s : State) : s.drawNan.2.sign = s.sign := rfl
@[simp] theorem State.drawNan_sysc (s : State) : s.drawNan.2.sysc = s.sysc := rfl
@[simp] theorem State.drawNan_err (s : State) : s.drawNan.2.err = s.err := rfl
@[simp] theorem State.drawNan_fault (s : State) : s.drawNan.2.fault = s.fault := rfl
@[simp] theorem State.drawNan_gen (s : State) : s.drawNan.2.gen = s.gen := rfl
@[simp] theorem State.drawNan_handlers (s : State) : s.drawNan.2.handlers = s.handlers := rfl
@[simp] theorem State.drawNan_syscalls (s : State) : s.drawNan.2.syscalls = s.syscalls := rfl
@[simp] theorem State.drawNan_memSize (s : State) : s.drawNan.2.memSize = s.memSize := rfl
@[simp] theorem State.drawNan_mem (s : State) : s.drawNan.2.mem = s.mem := rfl
@[simp] theorem State.drawNan_code (s : State) : s.drawNan.2.code = s.code := rfl
@[simp] theorem State.drawNan_consts (s : State) : s.drawNan.2.consts = s.consts := rfl
@[simp] theorem State.drawNan_draws (s : State) : s.drawNan.2.draws = s.draws + 1 := rfl

/-! ## A failing step -/

@[simp] theorem State.afterFail_phase (s : State) (f : Fault) (ip : Word) (e : Option HostMsg) : (s.afterFail f ip e).phase = s.phase := rfl
@[simp] theorem State.afterFail_stepped (s : State) (f : Fault) (ip : Word) (e : Option HostMsg) : (s.afterFail f ip e).stepped = s.stepped := rfl
@[simp] theorem State.afterFail_cfg (s : State) (f : Fault) (ip : Word) (e : Option HostMsg) : (s.afterFail f ip e).cfg = s.cfg := rfl
@[simp] theorem State.afterFail_handlers (s : State) (f : Fault) (ip : Word) (e : Option HostMsg) : (s.afterFail f ip e).handlers = s.handlers := rfl
@[simp] theorem State.afterFail_syscalls (s : State) (f : Fault) (ip : Word) (e : Option HostMsg) : (s.afterFail f ip e).syscalls = s.syscalls := rfl
@[simp] theorem State.afterFail_memSize (s : State) (f : Fault) (ip : Word) (e : Option HostMsg) : (s.afterFail f ip e).memSize = s.memSize := rfl
@[simp] theorem State.afterFail_code (s : State) (f : Fault) (ip : Word) (e : Option HostMsg) : (s.afterFail f ip e).code = s.code := rfl
@[simp] theorem State.afterFail_consts (s : State) (f : Fault) (ip : Word) (e : Option HostMsg) : (s.afterFail f ip e).consts = s.consts := rfl
@[simp] theorem State.afterFail_sysc (s : State) (f : Fault) (ip : Word) (e : Option HostMsg) : (s.afterFail f ip e).sysc = false := rfl
@[simp] theorem State.afterFail_err (s : State) (f : Fault) (ip : Word) (e : Option HostMsg) : (s.afterFail f ip e).err = e := rfl
@[simp] theorem State.afterFail_fault (s : State) (f : Fault) (ip : Word) (e : Option HostMsg) : (s.afterFail f ip e).fault = some f := rfl
@[simp] theorem State.afterFail_gen (s : State) (f : Fault) (ip : Word) (e : Option HostMsg) : (s.afterFail f ip e).gen = none := rfl
@[simp] theorem State.afterFail_draws (s : State) (f : Fault) (ip : Word) (e : Option HostMsg) : (s.afterFail f ip e).draws = s.draws + 1 := rfl
@[simp] theorem State.afterFail_ip (s : State) (f : Fault) (ip : Word) (e : Option HostMsg) : (s.afterFail f ip e).reg .ip = ip := rfl

/-! ## Registers -/

theorem Reg.idx_inj {r r' : Reg} : (Reg.idx r).val = (Reg.idx r').val ↔ r = r' := by
  constructor
  · cases r <;> cases r' <;> simp [Reg.idx]
  · rintro rfl
    rfl

/-- Reading a register after a write (10_state.md R23). -/
theorem State.reg_setReg (s : State) (r r' : Reg) (v : Word) :
    (s.setReg r v).reg r' = if r' = r then v else s.reg r' := by
  unfold State.reg State.setReg
  by_cases h : r' = r
  · subst h
    simp
  · have h' : (Reg.idx r).val ≠ (Reg.idx r').val := fun e => h (Reg.idx_inj.1 e).symm
    simp [h, h']

@[simp] theorem State.reg_setReg_same (s : State) (r : Reg) (v : Word) : (s.setReg r v).reg r = v := by
  simp [State.reg_setReg]

@[simp] theorem State.reg_setReg_ne (s : State) {r r' : Reg} (v : Word) (h : r' ≠ r) :
    (s.setReg r v).reg r' = s.reg r' := by
  simp [State.reg_setReg, h]

/-- Two states with the same registers, each read alike, have the same register file. -/
theorem State.regs_ext {s t : State} (h : ∀ r, s.reg r = t.reg r) : s.regs = t.regs := by
  apply Vector.ext
  intro i hi
  have key : ∀ j : Fin 16, ∃ r : Reg, Reg.idx r = j := by
    intro j
    fin_cases j
    exacts [⟨.ip, rfl⟩, ⟨.sp, rfl⟩, ⟨.fp, rfl⟩, ⟨.a0, rfl⟩, ⟨.a1, rfl⟩, ⟨.a2, rfl⟩, ⟨.a3, rfl⟩, ⟨.a4, rfl⟩,
      ⟨.a5, rfl⟩, ⟨.a6, rfl⟩, ⟨.a7, rfl⟩, ⟨.a8, rfl⟩, ⟨.a9, rfl⟩, ⟨.a10, rfl⟩, ⟨.a11, rfl⟩, ⟨.a12, rfl⟩]
  obtain ⟨r, hr⟩ := key ⟨i, hi⟩
  have := h r
  simpa [State.reg, hr] using this

@[simp] theorem State.ip_eq (s : State) : s.ip = s.reg .ip := rfl
@[simp] theorem State.setIp_eq (s : State) (v : Word) : s.setIp v = s.setReg .ip v := rfl
@[simp] theorem State.finish_eq (s : State) (v : Word) : s.finish v = s.setReg .ip v := rfl
@[simp] theorem State.setCompare_reg (s : State) (z n : Bool) (r : Reg) : (s.setCompare z n).reg r = s.reg r := rfl
@[simp] theorem State.drawNan_reg (s : State) (r : Reg) : s.drawNan.2.reg r = s.reg r := rfl

/-! ## Operations that read only some fields -/

@[simp] theorem State.setReg_regOf (s : State) (r : Reg) (v : Word) (b : Byte) : (s.setReg r v).regOf b = s.regOf b := rfl
@[simp] theorem State.setReg_memRead (s : State) (r : Reg) (v a : Word) : (s.setReg r v).memRead a = s.memRead a := rfl
@[simp] theorem State.setCompare_memRead (s : State) (z n : Bool) (a : Word) : (s.setCompare z n).memRead a = s.memRead a := rfl
@[simp] theorem State.drawNan_memRead (s : State) (a : Word) : s.drawNan.2.memRead a = s.memRead a := rfl
@[simp] theorem State.setReg_handler (s : State) (r : Reg) (v : Word) (b : Byte) : (s.setReg r v).handler b = s.handler b := rfl
@[simp] theorem State.setReg_hostFn (s : State) (r : Reg) (v id : Word) : (s.setReg r v).hostFn id = s.hostFn id := rfl

end Sys2Proof.Machine
end

