-- ==== Sys2Proof/Laws/Ops.lean ====
section
/-! SUPPORT. What each shared operation can do, said once: the result where it succeeds, and the fault where
it does not. Later proofs cite these and unfold nothing. -/

namespace Sys2Proof.Machine

/-! ## Sequencing -/

section
variable {ε α β : Type}

@[simp] theorem except_ok_bind (a : α) (f : α → Except ε β) : (Except.ok a >>= f) = f a := rfl
@[simp] theorem except_error_bind (e : ε) (f : α → Except ε β) : ((Except.error e : Except ε α) >>= f) = .error e := rfl
@[simp] theorem except_pure (a : α) : (pure a : Except ε α) = .ok a := rfl

/-- A sequence succeeds just where both parts do. -/
theorem except_bind_eq_ok {x : Except ε α} {f : α → Except ε β} {b : β} :
    (x >>= f) = .ok b ↔ ∃ a, x = .ok a ∧ f a = .ok b := by
  cases x <;> simp

/-- A sequence fails just where a part does. -/
theorem except_bind_eq_error {x : Except ε α} {f : α → Except ε β} {e : ε} :
    (x >>= f) = .error e ↔ x = .error e ∨ ∃ a, x = .ok a ∧ f a = .error e := by
  cases x <;> simp
end

@[simp] theorem outcome_ok (s : State) : outcome (.ok s) = .next s := rfl
@[simp] theorem outcome_error (f : Fault) : outcome (.error f) = .fault f := rfl

theorem outcome_eq_next {x : Except Fault State} {t : State} : outcome x = .next t ↔ x = .ok t := by
  cases x <;> simp

theorem outcome_eq_fault {x : Except Fault State} {f : Fault} : outcome x = .fault f ↔ x = .error f := by
  cases x <;> simp

theorem outcome_ne_refused {x : Except Fault State} {r : Refusal} : outcome x ≠ .refused r := by
  cases x <;> simp

/-! ## Register operands -/

/-- A register operand names a register when its byte is at most 15. -/
theorem State.regOf_eq_ok {s : State} {b : Byte} {r : Reg} :
    s.regOf b = .ok r ↔ ∃ h : b.toNat < 16, s.cfg.regnum[b.toNat] = r := by
  unfold State.regOf
  split <;> simp_all

/-- A register operand fails with F_REGID when its byte is above 15, and in no other way. -/
theorem State.regOf_eq_error {s : State} {b : Byte} {f : Fault} :
    s.regOf b = .error f ↔ 16 ≤ b.toNat ∧ f = .regId b := by
  unfold State.regOf
  split
  · next h => simp; omega
  · next h =>
    simp only [Except.error.injEq]
    constructor
    · rintro rfl
      exact ⟨by omega, rfl⟩
    · rintro ⟨_, rfl⟩
      rfl

theorem State.reg2_eq_ok {s : State} {a b : Byte} {p : Reg × Reg} :
    s.reg2 a b = .ok p ↔ s.regOf a = .ok p.1 ∧ s.regOf b = .ok p.2 := by
  obtain ⟨x, y⟩ := p
  unfold State.reg2
  simp only [except_bind_eq_ok, except_pure, Except.ok.injEq, Prod.mk.injEq]
  constructor
  · rintro ⟨_, h1, _, h2, rfl, rfl⟩
    exact ⟨h1, h2⟩
  · rintro ⟨h1, h2⟩
    exact ⟨x, h1, y, h2, rfl, rfl⟩

theorem State.reg3_eq_ok {s : State} {d a b : Byte} {p : Reg × Reg × Reg} :
    s.reg3 d a b = .ok p ↔ s.regOf d = .ok p.1 ∧ s.regOf a = .ok p.2.1 ∧ s.regOf b = .ok p.2.2 := by
  obtain ⟨x, y, z⟩ := p
  unfold State.reg3
  simp only [except_bind_eq_ok, except_pure, Except.ok.injEq, Prod.mk.injEq]
  constructor
  · rintro ⟨_, h1, _, h2, _, h3, rfl, rfl, rfl⟩
    exact ⟨h1, h2, h3⟩
  · rintro ⟨h1, h2, h3⟩
    exact ⟨x, h1, y, h2, z, h3, rfl, rfl, rfl⟩

/-! ## Memory and the stack -/

/-- A memory read gives the word there when the address is below MEM_SIZE. -/
theorem State.memRead_eq_ok {s : State} {a v : Word} :
    s.memRead a = .ok v ↔ a.toNat < s.memSize ∧ v = s.peek a.toNat := by
  unfold State.memRead
  split <;> simp_all [eq_comm]

/-- A memory read fails with F_MEM when the address is at or beyond MEM_SIZE, and in no other way. -/
theorem State.memRead_eq_error {s : State} {a : Word} {f : Fault} :
    s.memRead a = .error f ↔ s.memSize ≤ a.toNat ∧ f = .mem a := by
  unfold State.memRead
  split
  · simp; omega
  · simp only [Except.error.injEq]
    constructor
    · rintro rfl
      exact ⟨by omega, rfl⟩
    · rintro ⟨_, rfl⟩
      rfl

/-- A memory write changes MEM alone. -/
theorem State.memWrite_eq_ok {s t : State} {a v : Word} :
    s.memWrite a v = .ok t ↔ a.toNat < s.memSize ∧ t = { s with mem := s.mem.write a.toNat v } := by
  unfold State.memWrite
  split <;> simp_all [eq_comm]

/-- A memory write fails with F_MEM when the address is at or beyond MEM_SIZE, and in no other way. -/
theorem State.memWrite_eq_error {s : State} {a v : Word} {f : Fault} :
    s.memWrite a v = .error f ↔ s.memSize ≤ a.toNat ∧ f = .mem a := by
  unfold State.memWrite
  split
  · simp; omega
  · simp only [Except.error.injEq]
    constructor
    · rintro rfl
      exact ⟨by omega, rfl⟩
    · rintro ⟨_, rfl⟩
      rfl

/-- Reading MEM after a write, in a state whose memory is in canonical form. -/
theorem State.memRead_memWrite {s t : State} {a v : Word} (hs : Table.Sorted s.mem) (h : s.memWrite a v = .ok t) (b : Word) :
    t.memRead b = if b = a then .ok v else s.memRead b := by
  obtain ⟨ha, rfl⟩ := State.memWrite_eq_ok.1 h
  unfold State.memRead State.peek
  simp only [Memory.read_write hs]
  have hab : b.toNat = a.toNat ↔ b = a := BitVec.toNat_inj
  by_cases hb : b = a
  · subst hb; simp [ha]
  · simp [hb, hab]

/-- What PUSH and the accessor's frame-establish do to the stack: a word at `Sp`, then `Sp` one lower. -/
theorem State.push_eq_ok {s t : State} {v : Word} :
    s.push v = .ok t ↔ (s.reg .sp).toNat < s.memSize ∧
      t = ({ s with mem := s.mem.write (s.reg .sp).toNat v }).setReg .sp (s.reg .sp - 1) := by
  unfold State.push
  simp only [except_bind_eq_ok, State.memWrite_eq_ok, except_pure, Except.ok.injEq]
  constructor
  · rintro ⟨u, ⟨h, rfl⟩, rfl⟩
    exact ⟨h, rfl⟩
  · rintro ⟨h, rfl⟩
    exact ⟨_, ⟨h, rfl⟩, rfl⟩

theorem State.push_eq_error {s : State} {v : Word} {f : Fault} :
    s.push v = .error f ↔ s.memSize ≤ (s.reg .sp).toNat ∧ f = .mem (s.reg .sp) := by
  unfold State.push
  simp [except_bind_eq_error, State.memWrite_eq_error]

/-- What POP and the accessor's frame-teardown do to the stack: `Sp` one higher, then the word there. -/
theorem State.pop_eq_ok {s : State} {p : Word × State} :
    s.pop = .ok p ↔ (s.reg .sp + 1).toNat < s.memSize ∧
      p = (s.peek (s.reg .sp + 1).toNat, s.setReg .sp (s.reg .sp + 1)) := by
  unfold State.pop
  simp only [except_bind_eq_ok, State.memRead_eq_ok, except_pure, Except.ok.injEq]
  constructor
  · rintro ⟨v, ⟨h, rfl⟩, rfl⟩
    exact ⟨h, rfl⟩
  · rintro ⟨h, rfl⟩
    exact ⟨_, ⟨h, rfl⟩, rfl⟩

theorem State.pop_eq_error {s : State} {f : Fault} :
    s.pop = .error f ↔ s.memSize ≤ (s.reg .sp + 1).toNat ∧ f = .mem (s.reg .sp + 1) := by
  unfold State.pop
  simp [except_bind_eq_error, State.memRead_eq_error]

/-! ## The constants pool -/

/-- A read of the constants pool gives the word there when the index is below CONST_LEN, and F_CONST otherwise. -/
theorem State.constRead_of_lt {s : State} {i : Nat} (h : i < s.consts.length) : s.constRead i = .ok s.consts[i] := by
  simp [State.constRead, h]

theorem State.constRead_of_le {s : State} {i : Nat} (h : s.consts.length ≤ i) :
    s.constRead i = .error (.const (BitVec.ofNat 16 i)) := by
  simp [State.constRead, h]

/-- A run of reads of the constants pool that starts inside it or at its end gives the words there, or F_CONST
with the index CONST_LEN when it runs past the end. -/
theorem State.constReads_eq {s : State} {i n : Nat} (h : i ≤ s.consts.length) :
    s.constReads i n =
      if i + n ≤ s.consts.length then .ok ((s.consts.drop i).take n)
      else .error (.const (BitVec.ofNat 16 s.consts.length)) := by
  induction n generalizing i with
  | zero => simp [State.constReads, h]
  | succ n ih =>
    rcases Nat.lt_or_ge i s.consts.length with hi | hi
    · have hs : i + 1 + n = i + (n + 1) := by omega
      simp only [State.constReads, State.constRead_of_lt hi, except_ok_bind, ih (i := i + 1) hi, hs]
      split
      · rw [List.drop_eq_getElem_cons hi, List.take_succ_cons]
        rfl
      · rfl
    · have : i = s.consts.length := by omega
      subst this
      rw [if_neg (by omega)]
      simp only [State.constReads, State.constRead_of_le (Nat.le_refl _), except_error_bind]

/-! ## Registration -/

/-- `RegisterOpcode` makes an entry just where the opcode has none and the handler stands nowhere else. -/
theorem addHandler_eq_ok {t u : List (Nat × Mnemonic)} {op : Byte} {h : Mnemonic} :
    addHandler t op h = .ok u ↔
      Table.lookup t op.toNat = none ∧ h ∉ t.map Prod.snd ∧ u = Table.insert t op.toNat h := by
  unfold addHandler
  cases Table.lookup t op.toNat with
  | some m => simp
  | none =>
    by_cases hm : h ∈ t.map Prod.snd
    · simp only [hm, if_true]
      simp
    · simp only [hm, if_false, Except.ok.injEq]
      simp [eq_comm]

/-- `RegisterOpcode` reports E_DUP_OPCODE just where the opcode has an entry. -/
theorem addHandler_eq_dup {t : List (Nat × Mnemonic)} {op : Byte} {h : Mnemonic} {e : SetupError} :
    addHandler t op h = .error (.error e) ↔ (∃ m, Table.lookup t op.toNat = some m) ∧ e = .dupOpcode op := by
  unfold addHandler
  cases Table.lookup t op.toNat with
  | some m => simp [eq_comm]
  | none => by_cases hm : h ∈ t.map Prod.snd <;> simp only [hm, if_true, if_false] <;> simp

/-! ## The shared instruction forms -/

/-- Everything the three-register integer form does. -/
theorem threeReg_eq_next {op : Word → Word → Word} {d a b : Byte} {s t : State} :
    threeReg op d a b s = .next t ↔ ∃ rd ra rb, s.regOf d = .ok rd ∧ s.regOf a = .ok ra ∧ s.regOf b = .ok rb ∧
      t = (s.setReg rd (op (s.reg ra) (s.reg rb))).setReg .ip (s.cursor 3) := by
  unfold threeReg
  simp only [outcome_eq_next, except_bind_eq_ok, State.reg3_eq_ok, except_pure, Except.ok.injEq, State.finish_eq]
  constructor
  · rintro ⟨⟨x, y, z⟩, ⟨h1, h2, h3⟩, rfl⟩
    exact ⟨x, y, z, h1, h2, h3, rfl⟩
  · rintro ⟨x, y, z, h1, h2, h3, rfl⟩
    exact ⟨(x, y, z), ⟨h1, h2, h3⟩, rfl⟩

/-- A jump always completes and writes `Ip` alone. -/
theorem jumpWhen_eq_next {c : Bool} {addr : Word} {s t : State} :
    jumpWhen c addr s = .next t ↔ t = s.setReg .ip (if c then addr else s.cursor 2) := by
  unfold jumpWhen
  simp [eq_comm]

/-- The state after a binary32 result is taken up differs at most in the count of free values. -/
theorem State.resolve_cases (s : State) (r : FloatResult) :
    (∃ f, r = .val f ∧ s.resolve r = (f, s)) ∨ (r = .nan ∧ s.resolve r = s.drawNan) := by
  cases r with
  | val f => exact .inl ⟨f, rfl, rfl⟩
  | nan => exact .inr ⟨rfl, rfl⟩

/-- Everything the three-register float form does. -/
theorem threeRegFloat_eq_next {op : F32 → F32 → FloatResult} {d a b : Byte} {s t : State} :
    threeRegFloat op d a b s = .next t ↔ ∃ rd ra rb, s.regOf d = .ok rd ∧ s.regOf a = .ok ra ∧
      s.regOf b = .ok rb ∧
      t = ((s.resolve (op (halfToFloat (s.reg ra)) (halfToFloat (s.reg rb)))).2.setReg rd
        (floatToHalf s.cfg.halfRound (s.resolve (op (halfToFloat (s.reg ra)) (halfToFloat (s.reg rb)))).1)).setReg
          .ip (s.cursor 3) := by
  unfold threeRegFloat
  simp only [outcome_eq_next, except_bind_eq_ok, State.reg3_eq_ok, except_pure, Except.ok.injEq, State.finish_eq]
  constructor
  · rintro ⟨⟨x, y, z⟩, ⟨h1, h2, h3⟩, rfl⟩
    exact ⟨x, y, z, h1, h2, h3, rfl⟩
  · rintro ⟨x, y, z, h1, h2, h3, rfl⟩
    exact ⟨(x, y, z), ⟨h1, h2, h3⟩, rfl⟩

/-! ## The accessor -/

theorem State.establish_eq_ok {s t : State} :
    s.establish = .ok t ↔ (s.reg .sp).toNat < s.memSize ∧
      t = (({ s with mem := s.mem.write (s.reg .sp).toNat (s.reg .fp) }).setReg .sp (s.reg .sp - 1)).setReg .fp
        (s.reg .sp - 1) := by
  unfold State.establish
  simp only [except_bind_eq_ok, State.push_eq_ok, except_pure, Except.ok.injEq]
  constructor
  · rintro ⟨u, ⟨h, rfl⟩, rfl⟩
    exact ⟨h, by simp⟩
  · rintro ⟨h, rfl⟩
    exact ⟨_, ⟨h, rfl⟩, by simp⟩

theorem State.teardown_eq_ok {s t : State} :
    s.teardown = .ok t ↔ (s.reg .fp + 1).toNat < s.memSize ∧
      t = (s.setReg .sp (s.reg .fp + 1)).setReg .fp (s.peek (s.reg .fp + 1).toNat) := by
  unfold State.teardown
  simp only [except_bind_eq_ok, State.pop_eq_ok, except_pure, Except.ok.injEq]
  have hset : ∀ v w : Word, (s.setReg .sp v).setReg .sp w = s.setReg .sp w := by
    intro v w
    simp [State.setReg]
  constructor
  · rintro ⟨u, ⟨h, rfl⟩, rfl⟩
    simp only [State.reg_setReg_same] at h
    refine ⟨by simpa using h, ?_⟩
    simp [hset, State.peek]
  · rintro ⟨h, rfl⟩
    refine ⟨_, ⟨by simpa using h, rfl⟩, ?_⟩
    simp [hset, State.peek]

end Sys2Proof.Machine
end

