-- ==== Sys2Proof/Laws/Instr.lean ====
section
/-! SUPPORT. Everything each meaning can answer as a next state, said once per instruction. (ADD, SUB, MUL,
AND, OR, XOR are `threeReg_eq_next`, ADDF, SUBF, MULF, DIVF `threeRegFloat_eq_next`, the jumps
`jumpWhen_eq_next`.) -/

namespace Sys2Proof.Machine

theorem execLoadi_eq_next {d : Byte} {imm : Word} {s t : State} :
    execLoadi d imm s = .next t ↔ ∃ rd, s.regOf d = .ok rd ∧ t = (s.setReg rd imm).setReg .ip (s.cursor 3) := by
  unfold execLoadi State.reg1
  simp only [outcome_eq_next, except_bind_eq_ok, except_pure, Except.ok.injEq, State.finish_eq]
  constructor <;> rintro ⟨x, h, rfl⟩ <;> exact ⟨x, h, rfl⟩

theorem execLoad_eq_next {d p : Byte} {s t : State} :
    execLoad d p s = .next t ↔ ∃ rd rp, s.regOf d = .ok rd ∧ s.regOf p = .ok rp ∧ (s.reg rp).toNat < s.memSize ∧
      t = (s.setReg rd (s.peek (s.reg rp).toNat)).setReg .ip (s.cursor 2) := by
  unfold execLoad
  simp only [outcome_eq_next, except_bind_eq_ok, State.reg2_eq_ok, State.memRead_eq_ok, except_pure,
    Except.ok.injEq, State.finish_eq]
  constructor
  · rintro ⟨⟨x, y⟩, ⟨h1, h2⟩, _, ⟨h3, rfl⟩, rfl⟩
    exact ⟨x, y, h1, h2, h3, rfl⟩
  · rintro ⟨x, y, h1, h2, h3, rfl⟩
    exact ⟨(x, y), ⟨h1, h2⟩, _, ⟨h3, rfl⟩, rfl⟩

theorem execStorei_eq_next {r : Byte} {imm : Word} {s t : State} :
    execStorei r imm s = .next t ↔ ∃ rr, s.regOf r = .ok rr ∧ imm.toNat < s.memSize ∧
      t = ({ s with mem := s.mem.write imm.toNat (s.reg rr) }).setReg .ip (s.cursor 3) := by
  unfold execStorei State.reg1
  simp only [outcome_eq_next, except_bind_eq_ok, State.memWrite_eq_ok, except_pure, Except.ok.injEq, State.finish_eq]
  constructor
  · rintro ⟨x, h1, _, ⟨h2, rfl⟩, rfl⟩
    exact ⟨x, h1, h2, rfl⟩
  · rintro ⟨x, h1, h2, rfl⟩
    exact ⟨x, h1, _, ⟨h2, rfl⟩, rfl⟩

theorem execStore_eq_next {p r : Byte} {s t : State} :
    execStore p r s = .next t ↔ ∃ rp rr, s.regOf p = .ok rp ∧ s.regOf r = .ok rr ∧ (s.reg rp).toNat < s.memSize ∧
      t = ({ s with mem := s.mem.write (s.reg rp).toNat (s.reg rr) }).setReg .ip (s.cursor 2) := by
  unfold execStore
  simp only [outcome_eq_next, except_bind_eq_ok, State.reg2_eq_ok, State.memWrite_eq_ok, except_pure,
    Except.ok.injEq, State.finish_eq]
  constructor
  · rintro ⟨⟨x, y⟩, ⟨h1, h2⟩, _, ⟨h3, rfl⟩, rfl⟩
    exact ⟨x, y, h1, h2, h3, rfl⟩
  · rintro ⟨x, y, h1, h2, h3, rfl⟩
    exact ⟨(x, y), ⟨h1, h2⟩, _, ⟨h3, rfl⟩, rfl⟩

theorem execMove_eq_next {d r : Byte} {s t : State} :
    execMove d r s = .next t ↔ ∃ rd rr, s.regOf d = .ok rd ∧ s.regOf r = .ok rr ∧
      t = (s.setReg rd (s.reg rr)).setReg .ip (s.cursor 2) := by
  unfold execMove
  simp only [outcome_eq_next, except_bind_eq_ok, State.reg2_eq_ok, except_pure, Except.ok.injEq, State.finish_eq]
  constructor
  · rintro ⟨⟨x, y⟩, ⟨h1, h2⟩, rfl⟩
    exact ⟨x, y, h1, h2, rfl⟩
  · rintro ⟨x, y, h1, h2, rfl⟩
    exact ⟨(x, y), ⟨h1, h2⟩, rfl⟩

theorem execPush_eq_next {r : Byte} {s t : State} :
    execPush r s = .next t ↔ ∃ rr, s.regOf r = .ok rr ∧ (s.reg .sp).toNat < s.memSize ∧
      t = (({ s with mem := s.mem.write (s.reg .sp).toNat (s.reg rr) }).setReg .sp (s.reg .sp - 1)).setReg .ip
        (s.cursor 1) := by
  unfold execPush State.reg1
  simp only [outcome_eq_next, except_bind_eq_ok, State.push_eq_ok, except_pure, Except.ok.injEq, State.finish_eq]
  constructor
  · rintro ⟨x, h1, _, ⟨h2, rfl⟩, rfl⟩
    exact ⟨x, h1, h2, rfl⟩
  · rintro ⟨x, h1, h2, rfl⟩
    exact ⟨x, h1, _, ⟨h2, rfl⟩, rfl⟩

theorem execPop_eq_next {r : Byte} {s t : State} :
    execPop r s = .next t ↔ ∃ rr, s.regOf r = .ok rr ∧ (s.reg .sp + 1).toNat < s.memSize ∧
      t = ((s.setReg .sp (s.reg .sp + 1)).setReg rr (s.peek (s.reg .sp + 1).toNat)).setReg .ip (s.cursor 1) := by
  unfold execPop State.reg1
  simp only [outcome_eq_next, except_bind_eq_ok, State.pop_eq_ok, except_pure, Except.ok.injEq, State.finish_eq]
  constructor
  · rintro ⟨x, h1, _, ⟨h2, rfl⟩, rfl⟩
    exact ⟨x, h1, h2, rfl⟩
  · rintro ⟨x, h1, h2, rfl⟩
    exact ⟨x, h1, _, ⟨h2, rfl⟩, rfl⟩

theorem execDiv_eq_next {d a b : Byte} {s t : State} :
    execDiv d a b s = .next t ↔ ∃ rd ra rb, s.regOf d = .ok rd ∧ s.regOf a = .ok ra ∧ s.regOf b = .ok rb ∧
      s.reg rb ≠ 0 ∧
      t = (s.setReg rd (BitVec.ofNat 16 ((s.reg ra).toNat / (s.reg rb).toNat))).setReg .ip (s.cursor 3) := by
  unfold execDiv
  simp only [outcome_eq_next, except_bind_eq_ok, State.reg3_eq_ok, except_pure, State.finish_eq]
  constructor
  · rintro ⟨⟨x, y, z⟩, ⟨h1, h2, h3⟩, h⟩
    split at h
    · simp at h
    · next hz => exact ⟨x, y, z, h1, h2, h3, hz, (Except.ok.inj h).symm⟩
  · rintro ⟨x, y, z, h1, h2, h3, hz, rfl⟩
    exact ⟨(x, y, z), ⟨h1, h2, h3⟩, by rw [if_neg hz]⟩

theorem execCmp_eq_next {a b : Byte} {s t : State} :
    execCmp a b s = .next t ↔ ∃ ra rb, s.regOf a = .ok ra ∧ s.regOf b = .ok rb ∧
      t = (s.setCompare (cmpZero (s.reg ra) (s.reg rb)) (cmpSign (s.reg ra) (s.reg rb))).setReg .ip (s.cursor 2) := by
  unfold execCmp
  simp only [outcome_eq_next, except_bind_eq_ok, State.reg2_eq_ok, except_pure, Except.ok.injEq, State.finish_eq]
  constructor
  · rintro ⟨⟨x, y⟩, ⟨h1, h2⟩, rfl⟩
    exact ⟨x, y, h1, h2, rfl⟩
  · rintro ⟨x, y, h1, h2, rfl⟩
    exact ⟨(x, y), ⟨h1, h2⟩, rfl⟩

theorem execCmpf_eq_next {a b : Byte} {s t : State} :
    execCmpf a b s = .next t ↔ ∃ ra rb d u, s.regOf a = .ok ra ∧ s.regOf b = .ok rb ∧
      s.resolve (f32Sub (halfToFloat (s.reg ra)) (halfToFloat (s.reg rb))) = (d, u) ∧
      t = (u.setCompare (cmpfZero (cmpfTested s.cfg d)) (cmpfSign (cmpfTested s.cfg d))).setReg .ip (s.cursor 2) := by
  unfold execCmpf
  simp only [outcome_eq_next, except_bind_eq_ok, State.reg2_eq_ok, except_pure, Except.ok.injEq, State.finish_eq]
  constructor
  · rintro ⟨⟨x, y⟩, ⟨h1, h2⟩, rfl⟩
    exact ⟨x, y, _, _, h1, h2, rfl, rfl⟩
  · rintro ⟨x, y, d, u, h1, h2, h3, rfl⟩
    refine ⟨(x, y), ⟨h1, h2⟩, ?_⟩
    simp only [h3]

theorem execSyscall_eq_next {id : Word} {s t : State} :
    execSyscall id s = .next t ↔ ∃ fn, s.hostFn id = some fn ∧
      t = ({ s with gen := some ⟨fn.script⟩, sysc := true }).setReg .ip (s.cursor 2) := by
  unfold execSyscall
  rw [outcome_eq_next]
  cases s.hostFn id with
  | none => simp
  | some fn =>
    simp only [except_pure, Except.ok.injEq, State.finish_eq, Option.some.injEq]
    constructor
    · rintro rfl
      exact ⟨fn, rfl, rfl⟩
    · rintro ⟨_, rfl, rfl⟩
      rfl

/-- One accessor operation, in every case. -/
theorem State.access_eq_ok {s t : State} {op : AccessorOp} (h : s.access op = .ok t) :
    t = s ∨ (∃ v, t = s.setReg .a0 v) ∨ (∃ msg, t = { s with err := some msg }) ∨
    ((s.reg .sp).toNat < s.memSize ∧
      t = (({ s with mem := s.mem.write (s.reg .sp).toNat (s.reg .fp) }).setReg .sp (s.reg .sp - 1)).setReg .fp
        (s.reg .sp - 1)) ∨
    ∃ v, t = (s.setReg .sp (s.reg .fp + 1)).setReg .fp v := by
  cases op with
  | readArg n =>
    obtain ⟨_, _, h⟩ := except_bind_eq_ok.1 h
    exact .inl (Except.ok.inj h).symm
  | readString n =>
    obtain ⟨_, _, h⟩ := except_bind_eq_ok.1 h
    exact .inl (Except.ok.inj h).symm
  | setReturn v => exact .inr (.inl ⟨v, (Except.ok.inj h).symm⟩)
  | signalError msg => exact .inr (.inr (.inl ⟨msg, (Except.ok.inj h).symm⟩))
  | establish => exact .inr (.inr (.inr (.inl (State.establish_eq_ok.1 h))))
  | teardown => exact .inr (.inr (.inr (.inr ⟨_, (State.teardown_eq_ok.1 h).2⟩)))

/-- What holds of a state and is kept by every accessor operation is kept by any sequence of them. -/
theorem State.accessAll_induction {P : State → Prop}
    (step : ∀ (s t : State) (op : AccessorOp), s.access op = .ok t → P s → P t)
    {ops : List AccessorOp} {s t : State} (h : s.accessAll ops = .ok t) (hs : P s) : P t := by
  induction ops generalizing s with
  | nil =>
    have : s = t := Except.ok.inj h
    exact this ▸ hs
  | cons op ops ih =>
    obtain ⟨u, h1, h2⟩ := except_bind_eq_ok.1 h
    exact ih h2 (step s u op h1 hs)

/-- Where the accessor operations all succeed, ERR is what it is in the state they lead to. -/
theorem State.errAfter_of_ok {ops : List AccessorOp} {s t : State} (h : s.accessAll ops = .ok t) :
    s.errAfter ops = t.err := by
  induction ops generalizing s with
  | nil =>
    have : s = t := Except.ok.inj h
    exact this ▸ rfl
  | cons op ops ih =>
    obtain ⟨u, h1, h2⟩ := except_bind_eq_ok.1 h
    simp [State.errAfter, h1, ih h2]

/-- Where an operation fails after others have succeeded, ERR is what those left. -/
theorem State.errAfter_of_error {done ops : List AccessorOp} {s t : State} {op : AccessorOp} {f : Fault}
    (h : s.accessAll done = .ok t) (hf : t.access op = .error f) : s.errAfter (done ++ op :: ops) = t.err := by
  induction done generalizing s with
  | nil =>
    have : s = t := Except.ok.inj h
    subst this
    simp [State.errAfter, hf]
  | cons d ds ih =>
    obtain ⟨u, h1, h2⟩ := except_bind_eq_ok.1 h
    simp [State.errAfter, h1, ih h2]

end Sys2Proof.Machine
end

