-- ==== Sys2Proof/Laws/PerInstr.lean ====
section
/-! SUPPORT. What holds of every instruction's encoding, one lemma per constructor. -/

namespace Sys2Proof.Laws

/-- The encoding starts with the opcode byte and is as long as the instruction's format says, 2 to 4 bytes
(30_encoding.md R70, R71, R74). -/
def EncodedForm.Statement (i : Instr) : Prop :=
  (encode i).head? = some (opc i.mnemonic) ∧ (encode i).length = i.length ∧ 2 ≤ i.length ∧ i.length ≤ 4

theorem format_length_bounds (f : Format) : 2 ≤ f.length ∧ f.length ≤ 4 := by cases f <;> decide

theorem EncodedForm.loadi (r : Byte) (imm : Word) : EncodedForm.Statement (.loadi r imm) := ⟨rfl, rfl, format_length_bounds _⟩
theorem EncodedForm.load (d : Byte) (p : Byte) : EncodedForm.Statement (.load d p) := ⟨rfl, rfl, format_length_bounds _⟩
theorem EncodedForm.storei (r : Byte) (imm : Word) : EncodedForm.Statement (.storei r imm) := ⟨rfl, rfl, format_length_bounds _⟩
theorem EncodedForm.store (p : Byte) (s : Byte) : EncodedForm.Statement (.store p s) := ⟨rfl, rfl, format_length_bounds _⟩
theorem EncodedForm.move (d : Byte) (s : Byte) : EncodedForm.Statement (.move d s) := ⟨rfl, rfl, format_length_bounds _⟩
theorem EncodedForm.add (d : Byte) (s : Byte) (t : Byte) : EncodedForm.Statement (.add d s t) := ⟨rfl, rfl, format_length_bounds _⟩
theorem EncodedForm.sub (d : Byte) (s : Byte) (t : Byte) : EncodedForm.Statement (.sub d s t) := ⟨rfl, rfl, format_length_bounds _⟩
theorem EncodedForm.mul (d : Byte) (s : Byte) (t : Byte) : EncodedForm.Statement (.mul d s t) := ⟨rfl, rfl, format_length_bounds _⟩
theorem EncodedForm.div (d : Byte) (s : Byte) (t : Byte) : EncodedForm.Statement (.div d s t) := ⟨rfl, rfl, format_length_bounds _⟩
theorem EncodedForm.addf (d : Byte) (s : Byte) (t : Byte) : EncodedForm.Statement (.addf d s t) := ⟨rfl, rfl, format_length_bounds _⟩
theorem EncodedForm.subf (d : Byte) (s : Byte) (t : Byte) : EncodedForm.Statement (.subf d s t) := ⟨rfl, rfl, format_length_bounds _⟩
theorem EncodedForm.mulf (d : Byte) (s : Byte) (t : Byte) : EncodedForm.Statement (.mulf d s t) := ⟨rfl, rfl, format_length_bounds _⟩
theorem EncodedForm.divf (d : Byte) (s : Byte) (t : Byte) : EncodedForm.Statement (.divf d s t) := ⟨rfl, rfl, format_length_bounds _⟩
theorem EncodedForm.and (d : Byte) (s : Byte) (t : Byte) : EncodedForm.Statement (.and d s t) := ⟨rfl, rfl, format_length_bounds _⟩
theorem EncodedForm.or (d : Byte) (s : Byte) (t : Byte) : EncodedForm.Statement (.or d s t) := ⟨rfl, rfl, format_length_bounds _⟩
theorem EncodedForm.xor (d : Byte) (s : Byte) (t : Byte) : EncodedForm.Statement (.xor d s t) := ⟨rfl, rfl, format_length_bounds _⟩
theorem EncodedForm.cmp (a : Byte) (b : Byte) : EncodedForm.Statement (.cmp a b) := ⟨rfl, rfl, format_length_bounds _⟩
theorem EncodedForm.cmpf (a : Byte) (b : Byte) : EncodedForm.Statement (.cmpf a b) := ⟨rfl, rfl, format_length_bounds _⟩
theorem EncodedForm.push (r : Byte) : EncodedForm.Statement (.push r) := ⟨rfl, rfl, format_length_bounds _⟩
theorem EncodedForm.pop (r : Byte) : EncodedForm.Statement (.pop r) := ⟨rfl, rfl, format_length_bounds _⟩
theorem EncodedForm.jmp (w : Word) : EncodedForm.Statement (.jmp w) := ⟨rfl, rfl, format_length_bounds _⟩
theorem EncodedForm.je (w : Word) : EncodedForm.Statement (.je w) := ⟨rfl, rfl, format_length_bounds _⟩
theorem EncodedForm.jne (w : Word) : EncodedForm.Statement (.jne w) := ⟨rfl, rfl, format_length_bounds _⟩
theorem EncodedForm.jg (w : Word) : EncodedForm.Statement (.jg w) := ⟨rfl, rfl, format_length_bounds _⟩
theorem EncodedForm.jge (w : Word) : EncodedForm.Statement (.jge w) := ⟨rfl, rfl, format_length_bounds _⟩
theorem EncodedForm.jl (w : Word) : EncodedForm.Statement (.jl w) := ⟨rfl, rfl, format_length_bounds _⟩
theorem EncodedForm.jle (w : Word) : EncodedForm.Statement (.jle w) := ⟨rfl, rfl, format_length_bounds _⟩
theorem EncodedForm.syscall (w : Word) : EncodedForm.Statement (.syscall w) := ⟨rfl, rfl, format_length_bounds _⟩

end Sys2Proof.Laws
end

