-- ==== Sys2Proof/Tests/Slice0.lean ====
section
/-! SUPPORT. Tests on fixed values. Expected results are the vectors V-… of 95_test_vectors.md, or worked by
hand from the rule cited; bytes are written out from the encoding table (30_encoding.md R71, R74). The last
part shows, for each statement with hypotheses, a state and operands that meet them. -/

namespace Sys2Proof.Tests

open Sys2Proof Sys2Proof.Machine

/-! ## Helpers -/

/-- The reset state of a machine with `size` words of memory and this code, then some registers and memory
words changed. -/
def start (size : Nat) (code : List Byte) (regs : List (Reg × Word)) (cells : List (Nat × Word)) : State :=
  let top := BitVec.ofNat 16 (size - 1)
  let s := { State.reset with
    memSize := size
    regs := #v[0, top, top, 0, 0, 0, 0, 0, 0, 0, 0, 0, 0, 0, 0, 0]
    code := code
    mem := cells }
  regs.foldl (fun s e => s.setReg e.1 e.2) s

/-- The step completes and the state after it passes `p`. -/
def after (o : Result) (p : State → Bool) : Bool :=
  match o with
  | .next s => p s
  | .fault _ | .refused _ => false

/-- The step ends in this fault. -/
def faults (o : Result) (f : Fault) : Bool :=
  match o with
  | .fault g => g == f
  | .next _ | .refused _ => false

/-- A three-register instruction `op A2,A0,A1`: `A2` after the step, if it completes with `Ip` at 4. -/
def three (op : Byte) (x y : Word) : Option Word :=
  match step (start 16 [op, 0x05, 0x03, 0x04] [(.a0, x), (.a1, y)] []) with
  | .next t => if t.ip = 4 then some (t.reg .a2) else none
  | .fault _ | .refused _ => none

/-- A compare `op A0,A1`: the flags `zero` and `sign` after the step, if it completes with `Ip` at 3. -/
def compare (cfg : Params) (op : Byte) (x y : Word) : Option (Bool × Bool) :=
  match step { start 16 [op, 0x03, 0x04] [(.a0, x), (.a1, y)] [] with cfg := cfg } with
  | .next t => if t.ip = 3 then some (t.zero, t.sign) else none
  | .fault _ | .refused _ => none

/-- A jump `op 0x0010` at offset 6 with the flags given: `Ip` after the step. -/
def jump (cfg : Params) (op : Byte) (zero sign : Bool) : Option Word :=
  match step { start 16 [0, 0, 0, 0, 0, 0, op, 0x10, 0x00] [(.ip, 6)] [] with
    zero := zero, sign := sign, cfg := cfg } with
  | .next t => some t.ip
  | .fault _ | .refused _ => none

/-- The jump at each of the flag states 00, 10, 01. -/
def jumps (cfg : Params) (op : Byte) : List (Option Word) :=
  [jump cfg op false false, jump cfg op true false, jump cfg op false true]

/-! ## Well-formedness: identifiers 0 to 15 only (30_encoding.md R72, R77) -/

theorem test_wellFormed_accepts_id_15 : (Instr.add 0x0F 0x00 0x0F).wellFormed = true := by decide
theorem test_wellFormed_refuses_bad_dst : (Instr.move 0x10 0x03).wellFormed = false := by decide
theorem test_wellFormed_refuses_bad_target : (Instr.add 0x03 0x04 0xFF).wellFormed = false := by decide
theorem test_wellFormed_refuses_bad_single : (Instr.push 0x10).wellFormed = false := by decide
theorem test_wellFormed_refuses_bad_immediate_form : (Instr.storei 0x80 0x0000).wellFormed = false := by decide
theorem test_admitted_refuses_ip_operand :
    (Instr.move 0x03 0x00).admitted { Params.default with ipOperand := .refuse } = false ∧
    (Instr.move 0x03 0x01).admitted { Params.default with ipOperand := .refuse } = true ∧
    (Instr.move 0x03 0x00).admitted Params.default = true := by decide

/-! ## Decoding: each instruction's bytes, written out from its row of the table -/

theorem test_decode_RI :
    decode [0x00, 0x03, 0x34, 0x12] = .ok (.loadi 3 0x1234) ∧
    decode [0x02, 0x07, 0x20, 0x00] = .ok (.storei 7 0x0020) := by decide

theorem test_decode_RR :
    decode [0x01, 0x05, 0x04] = .ok (.load 5 4) ∧ decode [0x03, 0x04, 0x03] = .ok (.store 4 3) ∧
    decode [0x04, 0x09, 0x01] = .ok (.move 9 1) ∧ decode [0x10, 0x06, 0x05] = .ok (.cmp 6 5) ∧
    decode [0x11, 0x06, 0x03] = .ok (.cmpf 6 3) := by decide

theorem test_decode_RRR :
    decode [0x05, 0x05, 0x03, 0x04] = .ok (.add 5 3 4) ∧ decode [0x06, 0x05, 0x03, 0x04] = .ok (.sub 5 3 4) ∧
    decode [0x07, 0x05, 0x03, 0x04] = .ok (.mul 5 3 4) ∧ decode [0x08, 0x05, 0x03, 0x04] = .ok (.div 5 3 4) ∧
    decode [0x09, 0x05, 0x03, 0x04] = .ok (.addf 5 3 4) ∧ decode [0x0A, 0x05, 0x03, 0x04] = .ok (.subf 5 3 4) ∧
    decode [0x0B, 0x05, 0x03, 0x04] = .ok (.mulf 5 3 4) ∧ decode [0x0C, 0x05, 0x03, 0x04] = .ok (.divf 5 3 4) ∧
    decode [0x0D, 0x05, 0x03, 0x04] = .ok (.and 5 3 4) ∧ decode [0x0E, 0x05, 0x03, 0x04] = .ok (.or 5 3 4) ∧
    decode [0x0F, 0x05, 0x03, 0x04] = .ok (.xor 5 3 4) := by decide

theorem test_decode_R :
    decode [0x12, 0x03] = .ok (.push 3) ∧ decode [0x13, 0x04] = .ok (.pop 4) := by decide

theorem test_decode_A :
    decode [0x14, 0x10, 0x00] = .ok (.jmp 0x0010) ∧ decode [0x15, 0x00, 0x01] = .ok (.je 0x0100) ∧
    decode [0x16, 0xFF, 0xFF] = .ok (.jne 0xFFFF) ∧ decode [0x17, 0x34, 0x12] = .ok (.jg 0x1234) ∧
    decode [0x18, 0x03, 0x00] = .ok (.jge 3) ∧ decode [0x19, 0x1D, 0x00] = .ok (.jl 0x001D) ∧
    decode [0x1A, 0x10, 0x00] = .ok (.jle 0x0010) := by decide

theorem test_decode_S : decode [0x1B, 0x02, 0x01] = .ok (.syscall 0x0102) := by decide

/-- A register byte above 15 decodes; it is the instruction's execution that fails (R77, V-X6). -/
theorem test_decode_keeps_all_eight_bits : decode [0x04, 0x10, 0x83] = .ok (.move 0x10 0x83) := by decide

theorem test_decode_rejects :
    decode [] = .error .noOpcode ∧ decode [0x1C, 0, 0, 0] = .error (.opcode 0x1C) ∧
    decode [0xFF] = .error (.opcode 0xFF) ∧ decode [0x00, 0x03, 0x05] = .error (.operand 2) ∧
    decode [0x12] = .error (.operand 1) ∧ decode [0x14, 0x10] = .error (.operand 1) := by decide

theorem test_encode :
    encode (.loadi 3 0x1234) = [0x00, 0x03, 0x34, 0x12] ∧ encode (.store 4 3) = [0x03, 0x04, 0x03] ∧
    encode (.xor 8 7 7) = [0x0F, 0x08, 0x07, 0x07] ∧ encode (.pop 6) = [0x13, 0x06] ∧
    encode (.jle 0x0010) = [0x1A, 0x10, 0x00] ∧ encode (.syscall 0x0102) = [0x1B, 0x02, 0x01] := by decide

/-- The opcode table's numbering: byte 0 is bits 7 to 0, byte 1 bits 15 to 8, and so on. -/
theorem test_decodeTableWord :
    decodeTableWord 8 0x05 = some (.add 0 0 0) ∧ decodeTableWord 32 0x12340300 = some (.loadi 3 0x1234) ∧
    decodeTableWord 8 0x1C = none := by decide

/-- A table word placed where the step fetches runs as the first instruction after reset. -/
theorem test_withFetchWord_runs :
    after (step (State.reset.withFetchWord 32 0x12340300)) (fun t => t.reg .a0 == 0x1234 && t.ip == 4) = true := by
  decide

/-! ## Data movement (V-D rows) -/

theorem test_loadi : after (step (start 16 [0x00, 0x0F, 0xFF, 0xFF] [] []))
    (fun t => t.reg .a12 == 0xFFFF && t.ip == 4) = true := by decide
theorem test_loadi_ip_is_lost : after (step (start 16 [0x00, 0x00, 0x00, 0x01] [] [])) (fun t => t.ip == 4) = true := by
  decide
theorem test_load_same_register : after (step (start 16 [0x01, 0x03, 0x03] [(.a0, 4)] [(4, 0xBEEF)]))
    (fun t => t.reg .a0 == 0xBEEF && t.ip == 3) = true := by decide
theorem test_load_outside_memory :
    faults (step (start 16 [0x01, 0x04, 0x03] [(.a0, 0x0010)] [])) (.mem 0x0010) = true := by decide
theorem test_storei : after (step (start 16 [0x02, 0x03, 0x08, 0x00] [(.a0, 7)] []))
    (fun t => t.mem == [(8, 7)] && t.ip == 4) = true := by decide
theorem test_storei_outside_memory :
    faults (step (start 16 [0x02, 0x03, 0x10, 0x00] [] [])) (.mem 0x0010) = true := by decide
theorem test_store : after (step (start 16 [0x03, 0x03, 0x04] [(.a0, 4), (.a1, 0x1234)] []))
    (fun t => t.mem == [(4, 0x1234)] && t.ip == 3) = true := by decide
theorem test_move_reads_ip_past_opcode :
    after (step (start 16 [0, 0, 0, 0, 0x04, 0x03, 0x00] [(.ip, 4)] [])) (fun t => t.reg .a0 == 5 && t.ip == 7) = true := by
  decide
theorem test_push_sp : after (step (start 16 [0x12, 0x01] [] []))
    (fun t => t.mem == [(15, 0x000F)] && t.reg .sp == 0x000E && t.ip == 2) = true := by decide
theorem test_push_wraps_sp : after (step (start 16 [0x12, 0x03] [(.sp, 0), (.a0, 0xABCD)] []))
    (fun t => t.mem == [(0, 0xABCD)] && t.reg .sp == 0xFFFF) = true := by decide
theorem test_pop_sp : after (step (start 16 [0x13, 0x01] [(.sp, 0x000D)] [(14, 5)]))
    (fun t => t.reg .sp == 5 && t.ip == 2) = true := by decide
theorem test_pop_empty_stack : faults (step (start 16 [0x13, 0x03] [] [])) (.mem 0x0010) = true := by decide

/-! ## Integer arithmetic (V-I and V-K rows) -/

theorem test_add : three 0x05 0xFFFF 0x0001 = some 0x0000 ∧ three 0x05 0x1234 0xF000 = some 0x0234 := by decide
theorem test_add_same_registers :
    after (step (start 16 [0x05, 0x03, 0x03, 0x03] [(.a0, 0x4001)] [])) (fun t => t.reg .a0 == 0x8002) = true := by decide
theorem test_sub : three 0x06 0x0005 0x0007 = some 0xFFFE ∧ three 0x06 0x8000 0x0001 = some 0x7FFF := by decide
theorem test_mul : three 0x07 0x012C 0x012C = some 0x5F90 ∧ three 0x07 0xFFFF 0xFFFF = some 0x0001 := by decide
theorem test_div : three 0x08 0x0011 0x0005 = some 0x0003 ∧ three 0x08 0x8000 0xFFFF = some 0x0000 := by decide
theorem test_div_by_zero :
    faults (step (start 16 [0x08, 0x05, 0x03, 0x04] [(.a0, 7)] [])) .div0 = true := by decide
theorem test_and : three 0x0D 0xF0F0 0x3C3C = some 0x3030 := by decide
theorem test_or : three 0x0E 0xF0F0 0x3C3C = some 0xFCFC := by decide
theorem test_xor : three 0x0F 0xF0F0 0x3C3C = some 0xCCCC := by decide
theorem test_cmp_is_unsigned :
    compare Params.default 0x10 0x8000 0x0000 = some (false, false) ∧
    compare Params.default 0x10 0x0000 0x8000 = some (false, true) ∧
    compare Params.default 0x10 0xFFFF 0xFFFF = some (true, false) := by decide

/-! ## The converter and the FPU (V-H, V-E, V-F and V-C rows) -/

theorem test_halfToFloat :
    halfToFloat 0x0001 = 0x33800000 ∧ halfToFloat 0x83FF = 0xB87FC000 ∧ halfToFloat 0x3555 = 0x3EAAA000 ∧
    halfToFloat 0xFC00 = 0xFF800000 ∧ halfToFloat 0xFDFF = 0xFFBFE000 := by decide
theorem test_floatToHalf :
    floatToHalf .trunc 0xB87FFFFF = 0x8000 ∧ floatToHalf .rne 0x3FFFFFFF = 0x4000 ∧
    floatToHalf .trunc 0x477FF000 = 0x7BFF ∧ floatToHalf .rne 0x477FF000 = 0x7C00 ∧
    floatToHalf .trunc 0x7F801FFF = 0x7E00 ∧ floatToHalf .rne 0x3F801000 = 0x3C00 := by decide
theorem test_addf : three 0x09 0x3C00 0x1400 = some 0x3C01 ∧ three 0x09 0x7BFF 0x7BFF = some 0x7C00 := by decide
theorem test_subf : three 0x0A 0xC000 0x3C00 = some 0xC200 ∧ three 0x0A 0x0400 0x0401 = some 0x8000 := by decide
theorem test_mulf : three 0x0B 0x3555 0x4200 = some 0x3BFF ∧ three 0x0B 0x0001 0x6400 = some 0x0400 := by decide
theorem test_divf : three 0x0C 0x3C00 0x4200 = some 0x3555 ∧ three 0x0C 0xBC00 0x0000 = some 0xFC00 := by decide
theorem test_cmpf_demoted :
    compare Params.default 0x11 0x3C00 0x4000 = some (false, true) ∧
    compare Params.default 0x11 0x0400 0x0401 = some (true, false) ∧
    compare Params.default 0x11 0x8000 0x0000 = some (true, false) := by decide
theorem test_cmpf_undemoted :
    compare { Params.default with cmpfDemote := false } 0x11 0x0400 0x0401 = some (false, true) := by decide

/-! ## Control transfer (V-J rows) -/

theorem test_jmp : jumps Params.default 0x14 = [some 0x10, some 0x10, some 0x10] := by decide
theorem test_je : jumps Params.default 0x15 = [some 9, some 0x10, some 9] := by decide
theorem test_jne : jumps Params.default 0x16 = [some 0x10, some 9, some 0x10] := by decide
theorem test_jg : jumps Params.default 0x17 = [some 0x10, some 9, some 9] := by decide
theorem test_jge : jumps Params.default 0x18 = [some 0x10, some 0x10, some 9] := by decide
theorem test_jl : jumps Params.default 0x19 = [some 9, some 9, some 0x10] := by decide
theorem test_jle_observed : jumps Params.default 0x1A = [some 0x10, some 0x10, some 9] := by decide
theorem test_jle_intended :
    jumps { Params.default with jleMode := .intended } 0x1A = [some 9, some 0x10, some 0x10] := by decide

/-! ## SYSCALL and the host protocol (V-Y rows and program P5) -/

/-- The host function of program P5's first resumption, then a return. -/
def frameHost : HostFn := ⟨[⟨[.establish], .continue⟩, ⟨[.setReturn 0x002A, .teardown], .done⟩]⟩

/-- Program P5 just before its SYSCALL. -/
def beforeCall : State :=
  { start 64 (List.replicate 12 0 ++ [0x1B, 0x02, 0x00]) [(.ip, 0x000C), (.sp, 0x003D)] [(0x3E, 2), (0x3F, 0x0029)] with
    syscalls := [(2, frameHost)] }

/-- Program P5 just after its SYSCALL. -/
def inCall (g : Generator) : State := { (beforeCall.setReg .ip 0x000F) with sysc := true, gen := some g }

theorem test_syscall_starts :
    after (step beforeCall) (fun t => t == inCall ⟨frameHost.script⟩) = true := by decide
theorem test_syscall_unregistered :
    faults (step { beforeCall with syscalls := [] }) (.syscallId 2) = true := by decide
theorem test_resume_establish :
    after (step (inCall ⟨frameHost.script⟩)) (fun t => t.reg .sp == 0x003C && t.reg .fp == 0x003C && t.sysc &&
      t.ip == 0x000F && t.mem == [(0x3D, 0x003F), (0x3E, 2), (0x3F, 0x0029)]) = true := by decide
theorem test_resume_error_carries_recorded_message :
    faults (step (inCall ⟨[⟨[.signalError [0x6D]], .error [0x00]⟩]⟩)) (.syscallErr [0x6D]) = true := by decide
theorem test_pending_error_after_done :
    after (step (inCall ⟨[⟨[.signalError [0x6D]], .done⟩]⟩))
      (fun t => !t.sysc && faults (step t) (.syscallErr [0x6D])) = true := by decide

/-! ## The step, faults, setup (V-S, V-X, V-R and V-M rows) -/

theorem test_halt_on_empty_code : after (step State.reset) (fun t => t == State.reset) = true := by decide
theorem test_bad_destination_before_zero_divisor :
    faults (step (start 16 [0x08, 0x10, 0x03, 0x04] [] [])) (.regId 16) = true := by decide
theorem test_fpu_opcode_without_fpu :
    faults (step { start 16 [0x09, 0x05, 0x03, 0x04] [] [] with handlers := Table.erase bothUnits 9 })
      (.opcode 0x09) = true := by decide
theorem test_module_sections :
    loadModule [0x01, 0x02, 0x00, 0x12, 0x03, 0x00, 0x04, 0x00, 0x01, 0x00, 0x48, 0x69] =
      .loaded [0x12, 0x03] [0x0001, 0x6948] := by decide
theorem test_module_rejects :
    loadModule [0x02, 0x00, 0x00] = .malformed (.unknownTag 2) ∧ loadModule [0x01, 0x05] = .malformed .truncated ∧
    loadModule [0x00, 0x03, 0x00, 0x01, 0x00, 0x48] = .refused (.oddConstants 3) ∧
    loadModule [0x01, 0x01, 0x00, 0x12, 0x01, 0x01, 0x00, 0x13] = .refused (.duplicateSection 1) := by decide
theorem test_flags_byte : { State.reset with zero := true, sysc := true }.flagsByte = 0x05 := by decide

/-! ## The hypotheses of the statements can be met -/

/-- A small machine: 16 words of memory, `Sp` and `Fp` at 15, `A0` = 15, `A1` = 16, one word of memory. -/
def small : State := start 16 [] [(.a0, 15), (.a1, 16)] [(15, 0xBEEF)]

theorem test_witness_DecodeOfEncodeIsIdentity : ∀ m, mnemonicOf (opc m) = some m := by
  intro m
  cases m <;> decide

theorem test_witness_OnlyItsEncodingDecodesToAnInstruction :
    decode [0x13, 0x0F, 0xAA] = .ok (.pop 15) ∧ [0x13, 0x0F, 0xAA] = encode (.pop 15) ++ [0xAA] := by decide

theorem test_witness_CodeReadsAreBoundedAndLittleEndian :
    ([0x34, 0x12] : List Byte).length ≤ 2 ∧ 1 < ([0x34, 0x12] : List Byte).length ∧
    ([0x34, 0x12] : List Byte).length ≤ 1 + 1 ∧ 0 + 1 < ([0x34, 0x12] : List Byte).length := by decide

theorem test_witness_TruncatedInstructionsDoNotDecode :
    ([] : List Byte).length + 1 < Mnemonic.push.format.length ∧
    ([0x05, 0x03] : List Byte).length + 1 < Mnemonic.add.format.length := by decide

theorem test_witness_RegisterPortReadsBackWrites :
    small.phase = .ready ∧ small.RegnumOk ∧ (15 : Byte).toNat ≤ 15 ∧ (0 : Byte).toNat ≤ 15 ∧ (0 : Byte) ≠ 15 ∧
    15 < (16 : Byte).toNat := by decide

theorem test_witness_InvalidRegisterIdentifiersFail :
    (Instr.add 15 16 0).wellFormed = false ∧ small.phase = .ready ∧ 15 < (16 : Byte).toNat := by decide

theorem test_witness_RegisterFaultsComeFirstInOperandOrder :
    (Instr.div 15 16 255).regOperands.find? (fun b => !validRegId b) = some 16 := by decide

theorem test_witness_MemoryAccessIsBoundedAndReadsBack :
    small.MemOk ∧ small.memSize ≤ (0x0010 : Word).toNat ∧ (0x000F : Word).toNat < small.memSize := by decide

/-- Identifiers at the two ends of the range, the program counter among them. -/
theorem test_witness_LoadImmediateWritesItsRegister :
    small.regOf 15 = .ok .a12 ∧ small.regOf 0 = .ok .ip ∧ Reg.a12 ≠ .ip := ⟨rfl, rfl, by decide⟩

theorem test_witness_LoadReadsTheWordAtItsPointer :
    small.regOf 15 = .ok .a12 ∧ small.regOf 3 = .ok .a0 ∧ small.memRead (small.reg .a0) = .ok 0xBEEF ∧
    small.regOf 4 = .ok .a1 ∧ small.memSize ≤ (small.reg .a1).toNat := ⟨rfl, rfl, rfl, rfl, by decide⟩

theorem test_witness_StoreImmediateWritesTheWordAtItsAddress :
    small.MemOk ∧ small.regOf 3 = .ok .a0 ∧ (0x000F : Word).toNat < small.memSize ∧
    small.memSize ≤ (0x0010 : Word).toNat := ⟨by decide, rfl, by decide, by decide⟩

theorem test_witness_StoreWritesTheWordAtItsPointer :
    small.MemOk ∧ small.regOf 3 = .ok .a0 ∧ (small.reg .a0).toNat < small.memSize ∧ small.regOf 4 = .ok .a1 ∧
    small.memSize ≤ (small.reg .a1).toNat := ⟨by decide, rfl, by decide, rfl, by decide⟩

theorem test_witness_MoveCopiesARegister :
    small.regOf 15 = .ok .a12 ∧ small.regOf 0 = .ok .ip ∧ Reg.a12 ≠ .ip := ⟨rfl, rfl, by decide⟩

theorem test_witness_PushStoresAtSpAndLowersIt :
    small.MemOk ∧ small.regOf 1 = .ok .sp ∧ (small.reg .sp).toNat < small.memSize ∧
    (small.setReg .sp 16).MemOk ∧ (small.setReg .sp 16).regOf 1 = .ok .sp ∧
    (small.setReg .sp 16).memSize ≤ ((small.setReg .sp 16).reg .sp).toNat :=
  ⟨by decide, rfl, by decide, by decide, rfl, by decide⟩

theorem test_witness_PopRaisesSpAndReadsThere :
    (small.setReg .sp 14).regOf 3 = .ok .a0 ∧
    (small.setReg .sp 14).memRead ((small.setReg .sp 14).reg .sp + 1) = .ok 0xBEEF ∧
    small.regOf 3 = .ok .a0 ∧ small.memSize ≤ (small.reg .sp + 1).toNat := ⟨rfl, rfl, rfl, by decide⟩

theorem test_witness_PushThenPopRestoresSp :
    small.MemOk ∧ small.regOf 3 = .ok .a0 ∧ small.regOf 2 = .ok .fp ∧ Reg.a0 ≠ .sp ∧ Reg.a0 ≠ .ip ∧
    Reg.fp ≠ .sp ∧ Reg.fp ≠ .ip ∧ (small.reg .sp).toNat < small.memSize :=
  ⟨by decide, rfl, rfl, by decide, by decide, by decide, by decide, by decide⟩

theorem test_witness_IntegerArithmeticWrapsModulo65536 :
    (Instr.mul, fun x y : Int => x * y) ∈
      [(Instr.add, fun x y : Int => x + y), (Instr.sub, fun x y : Int => x - y), (Instr.mul, fun x y : Int => x * y)] ∧
    small.regOf 15 = .ok .a12 ∧ small.regOf 0 = .ok .ip ∧ small.regOf 3 = .ok .a0 := ⟨by simp, rfl, rfl, rfl⟩

theorem test_witness_LogicIsBitwise :
    (Instr.xor, xor) ∈ [(Instr.and, and), (Instr.or, or), (Instr.xor, xor)] ∧
    small.regOf 15 = .ok .a12 ∧ small.regOf 0 = .ok .ip ∧ small.regOf 3 = .ok .a0 := ⟨by simp, rfl, rfl, rfl⟩

theorem test_witness_DivisionIsUnsignedAndFaultsOnZero :
    small.regOf 15 = .ok .a12 ∧ small.regOf 3 = .ok .a0 ∧ small.regOf 4 = .ok .a1 ∧ small.reg .a1 ≠ 0 ∧
    small.regOf 5 = .ok .a2 ∧ small.reg .a2 = 0 := ⟨rfl, rfl, rfl, by decide, rfl, rfl⟩

theorem test_witness_AddThenSubRoundTrips :
    small.regOf 15 = .ok .a12 ∧ small.regOf 0 = .ok .ip ∧ small.regOf 3 = .ok .a0 ∧ Reg.a12 ≠ .ip ∧ Reg.a0 ≠ .ip ∧
    Reg.a12 ≠ .a0 := ⟨rfl, rfl, rfl, by decide, by decide, by decide⟩

theorem test_witness_CompareIsUnsigned : small.regOf 15 = .ok .a12 ∧ small.regOf 0 = .ok .ip := ⟨rfl, rfl⟩

theorem test_witness_HalfRoundTrip :
    Half.isSubnormal 0x0400 = false ∧ Half.isSubnormal 0x7C01 = false ∧ Half.isSubnormal 0x83FF = true := by decide

theorem test_witness_HalfToFloatIsExact :
    halfToFloat 0x8001 = halfToFloat 0x8001 ∧ Half.exp 0x7BFF ≠ 31 ∧ Half.exp 0x0001 ≠ 31 ∧
    F32.exp (halfToFloat 0x0001) ≠ 0 := by decide

theorem test_witness_FloatToHalfKeepsSignAndClass :
    F32.isInf 0xFF800000 = true ∧ (F32.exp 0xB87FFFFF).toNat ≤ 112 := by decide

theorem test_witness_FloatToHalfIsMonotonic :
    F32.isNaN 0x477FEFFF = false ∧ F32.isNaN 0x477FF000 = false ∧ F32.sign 0x477FEFFF = false ∧
    F32.sign 0x477FF000 = false ∧
    (((0x477FEFFF : F32).extractLsb' 0 31).toNat : Int) ≤ (((0x477FF000 : F32).extractLsb' 0 31).toNat : Int) := by
  decide

theorem test_witness_TruncationNeverGrows : (F32.exp 0x477FFFFF).toNat ≤ 142 ∧ (F32.exp 0x38801FFF).toNat ≤ 142 := by
  decide

/-- Every case of a NaN and one of none. -/
theorem test_witness_InvalidOperationsGiveNan :
    f32Add 0x7F800000 0xFF800000 = .nan ∧ f32Sub 0x7F800000 0x7F800000 = .nan ∧ f32Mul 0x00000000 0x7F800000 = .nan ∧
    f32Div 0x00000000 0x80000000 = .nan ∧ f32Add 0x7F800001 0x00000000 = .nan ∧
    f32Div ∈ [f32Add, f32Sub, f32Mul, f32Div] ∧ f32Div 0x3F800000 0x00000000 = .val 0x7F800000 :=
  ⟨by decide, by decide, by decide, by decide, by decide, by simp, by decide⟩

/-- A tie (1 + 2^-24 lies halfway between 1 and the next pattern, 0x3F800001), an exact 0, the smallest sum that is
infinite, and infinite operands. -/
theorem test_witness_BinarySumAndDifferenceAreNearestEven :
    (f32Sub, true) ∈ [(f32Add, false), (f32Sub, true)] ∧
    F32.exp 0x3F800000 ≠ 255 ∧ F32.exp 0x33800000 ≠ 255 ∧ f32Add 0x3F800000 0x33800000 = .val 0x3F800000 ∧
    F32.exp 0x3F800001 ≠ 255 ∧ F32.value 0x3F800001 ≠ F32.value 0x3F800000 ∧
    (F32.value 0x3F800000 - (F32.value 0x3F800000 + F32.value 0x33800000)).natAbs =
      (F32.value 0x3F800001 - (F32.value 0x3F800000 + F32.value 0x33800000)).natAbs ∧
    F32.value 0x80000000 + F32.value 0x80000000 = 0 ∧
    (2 ^ 25 - 1) * 2 ^ 252 = (F32.value 0x7F7FFFFF + F32.value 0x73000000).natAbs ∧
    F32.isInf 0xFF800000 = true ∧ F32.isNaN 0x7F7FFFFF = false ∧ f32Add 0xFF800000 0x7F7FFFFF ≠ .nan := by
  refine ⟨by simp, ?_⟩
  decide

/-- The signs of zero sums and differences (R111). -/
theorem test_zero_sums :
    f32Add 0x80000000 0x80000000 = .val 0x80000000 ∧ f32Add 0x80000000 0x00000000 = .val 0x00000000 ∧
    f32Sub 0xBF800000 0xBF800000 = .val 0x00000000 ∧ f32Sub 0x80000000 0x00000000 = .val 0x80000000 := by decide

theorem test_witness_HalfProductsAndQuotientsInBinary32 :
    Half.exp 0x0001 ≠ 31 ∧ Half.exp 0x7BFF ≠ 31 ∧ Half.isZero 0x7BFF = false ∧ F32.exp 0x3EAAAAAC ≠ 255 ∧
    Half.isZero 0x0001 = false ∧ Half.isZero 0x8000 = true ∧ Half.isInf 0xFC00 = true ∧ Half.isNaN 0xFC00 = false ∧
    Half.isZero 0xFC00 = false := by decide

theorem test_witness_FloatArithmeticPromotesComputesDemotes :
    (Instr.divf, f32Div) ∈ [(Instr.addf, f32Add), (Instr.subf, f32Sub), (Instr.mulf, f32Mul), (Instr.divf, f32Div)] ∧
    small.regOf 15 = .ok .a12 ∧ small.regOf 3 = .ok .a0 ∧ small.regOf 4 = .ok .a1 ∧ small.regOf 5 = .ok .a2 ∧
    f32Div (halfToFloat (small.reg .a0)) (halfToFloat (small.reg .a2)) = .val 0x7F800000 ∧
    f32Div (halfToFloat (small.reg .a2)) (halfToFloat (small.reg .a2)) = .nan ∧ Reg.a12 ≠ .ip :=
  ⟨by simp, rfl, rfl, rfl, rfl, by decide, by decide, by decide⟩

/-- An ordinary difference, and infinity less itself. -/
theorem test_witness_FloatCompareWritesBothFlags :
    small.regOf 3 = .ok .a0 ∧ small.regOf 4 = .ok .a1 ∧
    f32Sub (halfToFloat (small.reg .a0)) (halfToFloat (small.reg .a1)) = .val 0xB3800000 ∧
    f32Sub (halfToFloat ((small.setReg .a0 0x7C00).reg .a0)) (halfToFloat ((small.setReg .a0 0x7C00).reg .a0)) = .nan :=
  ⟨rfl, rfl, by decide, by decide⟩

theorem test_witness_FloatCompareOrdersFiniteHalfs :
    small.regOf 3 = .ok .a0 ∧ small.regOf 4 = .ok .a1 ∧ Half.exp (small.reg .a0) ≠ 31 ∧ Half.exp (small.reg .a1) ≠ 31 ∧
    (∃ t, exec (.cmpf 3 4) small = .next t) ∧ small.cfg.cmpfDemote = true ∧
    (∃ t, exec (.cmpf 3 4) { small with cfg := { Params.default with cmpfDemote := false } } = .next t) :=
  ⟨rfl, rfl, by decide, by decide, ⟨_, rfl⟩, rfl, ⟨_, rfl⟩⟩

theorem test_witness_JumpsSetIpAlone :
    (Instr.jle, if small.cfg.jleMode = .observed then small.zero || !small.sign else small.zero || small.sign) ∈
      [(Instr.jmp, true), (Instr.je, small.zero), (Instr.jne, !small.zero), (Instr.jg, !small.zero && !small.sign),
        (Instr.jge, small.zero || !small.sign), (Instr.jl, small.sign && !small.zero),
        (Instr.jle, if small.cfg.jleMode = .observed then small.zero || !small.sign else small.zero || small.sign)] := by
  simp

/-- Above in the observed mode, below in the intended one. -/
theorem test_witness_JumpsAfterCompareFollowTheOrder :
    small.regOf 3 = .ok .a0 ∧ small.regOf 4 = .ok .a1 ∧ small.cfg.jleMode = .observed ∧
    (∃ t, exec (.cmp 4 3) small = .next t) ∧ (small.reg .a1).toNat ≥ (small.reg .a0).toNat ∧
    (∃ t, exec (.cmp 3 4) { small with cfg := { Params.default with jleMode := .intended } } = .next t) ∧
    ¬ (small.reg .a0).toNat ≥ (small.reg .a1).toNat := ⟨rfl, rfl, rfl, ⟨_, rfl⟩, by decide, ⟨_, rfl⟩, by decide⟩

theorem test_witness_SyscallStartsItsHostFunction :
    beforeCall.hostFn 2 = some frameHost ∧ beforeCall.hostFn 3 = none := by decide

/-- A resumption of each signal, and one whose accessor operation fails (V-Y7). -/
theorem test_witness_SyscallStepFollowsTheSignal :
    (∀ g, (inCall g).Resuming g) ∧ (∀ g, ((inCall g).setReg .sp 0xFFFF).Resuming g) ∧
    (Generator.mk frameHost.script).next 0 = (⟨[.establish], .continue⟩, ⟨[⟨[.setReturn 0x002A, .teardown], .done⟩]⟩, 0) ∧
    (∃ u, (inCall ⟨frameHost.script⟩).accessAll [.establish] = .ok u) ∧
    (∃ u, (inCall ⟨[⟨[], .done⟩]⟩).accessAll [] = .ok u) ∧
    (Generator.mk [⟨[], .done⟩]).next 0 = (⟨[], .done⟩, ⟨[]⟩, 0) ∧
    (Generator.mk [⟨[], .error [1]⟩]).next 0 = (⟨[], .error [1]⟩, ⟨[]⟩, 0) ∧
    ((inCall ⟨frameHost.script⟩).setReg .sp 0xFFFF).accessAll [.establish] = .error (.mem 0xFFFF) :=
  ⟨fun _ => ⟨rfl, rfl, rfl, rfl⟩, fun _ => ⟨rfl, rfl, rfl, rfl⟩, rfl, ⟨_, rfl⟩, ⟨_, rfl⟩, rfl, rfl, rfl⟩

theorem test_witness_HostFunctionsAreConfined :
    (inCall ⟨frameHost.script⟩).Resuming ⟨frameHost.script⟩ ∧ (∃ t, step (inCall ⟨frameHost.script⟩) = .next t) ∧
    (∃ t, step (inCall ⟨[⟨[.setReturn 1], .continue⟩]⟩) = .next t) ∧
    AccessorOp.establish ∉ ((Generator.mk [⟨[.setReturn 1], .continue⟩]).next 0).1.ops :=
  ⟨by decide, ⟨_, rfl⟩, ⟨_, rfl⟩, by decide⟩

theorem test_witness_FramesAreEstablishedAndTornDown :
    small.MemOk ∧ (small.reg .sp).toNat < small.memSize ∧ (small.setReg .sp 16).MemOk ∧
    (small.setReg .sp 16).memSize ≤ ((small.setReg .sp 16).reg .sp).toNat ∧
    (small.setReg .fp 14).MemOk ∧ (small.setReg .fp 14).memRead ((small.setReg .fp 14).reg .fp + 1) = .ok 0xBEEF ∧
    small.memSize ≤ (small.reg .fp + 1).toNat :=
  ⟨by decide, by decide, by decide, by decide, by decide, rfl, by decide⟩

/-- Argument 2 is the word at `Fp` = 15, here 1: the index of an entry that ends at the end of the pool, of one that
runs one word past it, and of none; argument 1 is one word above MEM. -/
theorem test_witness_AccessorReadsAreBoundedAndPure :
    (start 16 [] [] [(15, 1)]).BuffersOk ∧
    (start 16 [] [] [(15, 1)]).memRead ((start 16 [] [] [(15, 1)]).reg .fp - 2 + 2) = .ok 1 ∧
    ([9, 1, 0x6948] : List Word)[(1 : Word).toNat]? = some 1 ∧
    (1 : Word).toNat + 1 + (1 : Word).toNat ≤ ([9, 1, 0x6948] : List Word).length ∧
    ([9, 1] : List Word)[(1 : Word).toNat]? = some 1 ∧
    ([9, 1] : List Word).length < (1 : Word).toNat + 1 + (1 : Word).toNat ∧
    ([9] : List Word).length ≤ (1 : Word).toNat ∧
    small.memSize ≤ (small.reg .fp - 1 + 2).toNat :=
  ⟨by decide, rfl, rfl, by decide, rfl, by decide, by decide, by decide⟩

/-- An entry that runs past the pool is F_CONST (R54, R248). -/
theorem test_readString_checks_the_whole_entry :
    { start 16 [] [] [(15, 0)] with consts := [5] }.readString 2 = .error (.const 1) ∧
    { start 16 [] [] [(15, 0)] with consts := [1, 0x6948] }.readString 2 = .ok [0x6948] := ⟨rfl, rfl⟩

theorem test_witness_StepCasesArePrioritised :
    small.phase = .ready ∧ { small with fault := some .div0 }.fault = some .div0 ∧ small.fault = none ∧
    { small with sysc := true }.sysc = true ∧ small.sysc = false ∧ { small with err := some [] }.err = some [] ∧
    small.err = none := by decide

/-- Admitted, and refused under IP_OPERAND = REFUSE. -/
theorem test_witness_StepRunsTheDecodedInstruction :
    (start 16 [0x04, 0x03, 0x00] [] []).Fetching ∧
    decodeAt (start 16 [0x04, 0x03, 0x00] [] []).handler [0x04, 0x03, 0x00] 0 = .ok (.move 3 0) ∧
    (Instr.move 3 0).admitted Params.default = true ∧
    { start 16 [0x04, 0x03, 0x00] [] [] with cfg := { Params.default with ipOperand := .refuse } }.Fetching ∧
    (Instr.move 3 0).admitted { Params.default with ipOperand := .refuse } = false := by decide

theorem test_witness_StepRunsWhatDecodeReads :
    (start 16 [0x00, 0x13, 0x0F] [(.ip, 1)] []).Fetching ∧
    (start 16 [0x00, 0x13, 0x0F] [(.ip, 1)] []).handlers = bothUnits ∧ Params.default.ipOperand = .spec ∧
    decode (([0x00, 0x13, 0x0F] : List Byte).drop 1) = .ok (.pop 15) := by decide

theorem test_witness_FetchFaultsAreReported :
    (start 16 [0x1C] [] []).Fetching ∧ (start 16 [0x1C] [] []).handler 0x1C = none ∧
    (start 16 [0x12] [] []).handler 0x12 = some .push ∧ decodeOperands .push [0x12] 1 = .error 1 :=
  ⟨by decide, by decide, by decide, rfl⟩

theorem test_witness_HaltIsIdempotent :
    (start 16 [0x12, 0x03] [(.ip, 2)] []).Fetching ∧
    (start 16 [0x12, 0x03] [(.ip, 2)] []).code.length ≤ (start 16 [0x12, 0x03] [(.ip, 2)] []).ip.toNat ∧
    (start 16 [0x12, 0x03] [(.ip, 2)] []).regOf 0 = .ok .ip ∧
    (1 : Word).toNat < (start 16 [0x12, 0x03] [(.ip, 2)] []).code.length := ⟨by decide, by decide, rfl, by decide⟩

/-- A failing fetch; and resumptions that have recorded a message and then fail by their signal and by an access. -/
theorem test_witness_FailingStepsLatch :
    (∃ t, stepRun (start 16 [0x1C] [] []) = .value (.fail (.opcode 0x1C)) t) ∧
    (start 16 [0x1C] [] []).fault = none ∧ (start 16 [0x1C] [] []).Fetching ∧
    (∃ t, stepRun (inCall ⟨[⟨[.signalError [0x6D]], .error [0]⟩]⟩) = .value (.fail (.syscallErr [0x6D])) t) ∧
    (∃ t, stepRun ((inCall ⟨[⟨[.signalError [0x6D], .establish], .done⟩]⟩).setReg .sp 0xFFFF) =
      .value (.fail (.mem 0xFFFF)) t) ∧
    (∃ u, ((inCall ⟨[⟨[.signalError [0x6D], .establish], .done⟩]⟩).setReg .sp 0xFFFF).accessAll
        [.signalError [0x6D]] = .ok u ∧ u.access .establish = .error (.mem 0xFFFF)) :=
  ⟨⟨_, rfl⟩, rfl, by decide, ⟨_, rfl⟩, ⟨_, rfl⟩, ⟨_, rfl, rfl⟩⟩

/-- ERR keeps what a failing resumption has recorded (R33, R250). -/
theorem test_failing_resumption_keeps_err :
    ((inCall ⟨[⟨[.signalError [0x6D]], .error [0]⟩]⟩).failed (.syscallErr [0x6D])).err = some [0x6D] ∧
    (((inCall ⟨[⟨[.signalError [0x6D], .establish], .done⟩]⟩).setReg .sp 0xFFFF).failed (.mem 0xFFFF)).err =
      some [0x6D] := ⟨rfl, rfl⟩

theorem test_witness_OnlyComparesAndSyscallWriteFlags :
    (∃ t, exec (.addf 3 4 5) small = .next t) ∧ Instr.mnemonic (.addf 3 4 5) ≠ .cmp ∧
    Instr.mnemonic (.addf 3 4 5) ≠ .cmpf ∧ Instr.mnemonic (.addf 3 4 5) ≠ .syscall :=
  ⟨⟨_, rfl⟩, by decide, by decide, by decide⟩

theorem test_witness_OnlyJumpsChangeTheFlow :
    (∃ t, exec (.loadi 0 0x0100) small = .next t) ∧ Mnemonic.loadi.format ≠ .A := ⟨⟨_, rfl⟩, by decide⟩

theorem test_witness_OnlyStoresWriteMemory :
    (∃ t, exec (.load 3 3) small = .next t) ∧ Mnemonic.load ≠ .storei ∧ Mnemonic.load ≠ .store ∧
    Mnemonic.load ≠ .push := ⟨⟨_, rfl⟩, by decide, by decide, by decide⟩

theorem test_witness_StepKeepsTheConfiguration : ∃ t, step beforeCall = .next t := ⟨_, rfl⟩

theorem test_witness_StepKeepsTheInvariant : beforeCall.Inv ∧ ∃ t, step beforeCall = .next t := ⟨by decide, _, rfl⟩

theorem test_witness_RegisteringNeverOverwrites :
    small.phase ≠ .setupFailed ∧ small.phase ≠ .initFailed ∧ small.stepped = false ∧ small.TablesOk ∧
    (State.constructed Params.default).TablesOk ∧ (State.constructed Params.default).handler 0xFF = none ∧
    (∀ o, (State.constructed Params.default).handler o ≠ some .add) ∧ (0x00 : Byte) ≠ 0xFF ∧
    small.handler 0x00 = some .loadi ∧ small.handler 0x1C = none ∧ small.handler 0x05 = some .add ∧
    small.hostFn 0xFFFF = none ∧ beforeCall.hostFn 2 = some frameHost := by
  refine ⟨by decide, by decide, by decide, by decide, by decide, by decide, fun o => ?_, by decide⟩
  show (none : Option Mnemonic) ≠ some .add
  decide

/-- A handler under a second opcode is refused (93 U8), and so is a registration after a failed `Init` (U3). -/
theorem test_registration_refusals :
    registerOpcode 0x1C .add small = .refused (.foreignHandler 0x1C) ∧
    registerOpcode 0x1C .add { small with phase := .initFailed } = .refused .notInitialised ∧
    registerOpcode 0x00 .add small = .error (.dupOpcode 0x00) small := by decide

theorem test_witness_ModuleLoadsItsSections :
    (List.replicate 65535 (0 : Byte)).length ≤ 65535 ∧ (List.replicate 32767 (0 : Word)).length ≤ 32767 ∧
    (sectionBytes 1 [7], ([7] : List Byte), ([] : List Word)) ∈
      [([], [], []), (sectionBytes 1 [7], [7], []), (sectionBytes 0 (bytesOfWords [3]), [], [3]),
        (sectionBytes 0 (bytesOfWords [3]) ++ sectionBytes 1 [7], [7], [3]),
        (sectionBytes 1 [7] ++ sectionBytes 0 (bytesOfWords [3]), [7], [3])] ∧
    1 < (2 : Byte).toNat ∧ ([] : List Byte).length ≤ 65535 ∧ 0 < 2 ∧ 2 < ([] : List Byte).length + 3 :=
  ⟨Nat.le_of_eq List.length_replicate, Nat.le_of_eq List.length_replicate, by decide, by decide, by decide, by decide,
    by decide⟩

theorem test_witness_InitGivesTheResetState :
    small.phase ≠ .setupFailed ∧ 1 ≤ 1 ∧ 65536 ≤ 65536 ∧ loadModule [0x01, 0x02, 0x00, 0x12, 0x03] = .loaded [0x12, 0x03] [] ∧
    (0xFFFF : Word).toNat < 65536 ∧ (0 : Word).toNat < 1 := by decide

theorem test_witness_FailedInitLeavesTheEngineUnusable :
    small.phase ≠ .setupFailed ∧ 1 ≤ 1 ∧ 65536 ≤ 65536 ∧
    loadModule [0x02, 0x00, 0x00] = .malformed (.unknownTag 2) ∧ loadModule [] = .loaded [] [] := by decide

end Sys2Proof.Tests
end

section
/-! PROOF. Linear memory (20_memory.md R65): what a successful `memWrite` leaves unchanged, and from it and the
laws of `memRead` and `memWrite` the statement about bounds, reading back and the frame. -/

namespace Sys2Proof.Machine

section
variable {s t : State} {a v : Word}

/-- R65 "changing no other word", for a memory in canonical form. -/
theorem State.sameMemoryExcept_of_memWrite (hs : Table.Sorted s.mem) (h : s.memWrite a v = .ok t) :
    SameMemoryExcept s t a := fun b hb => by
  rw [State.memRead_memWrite hs h, if_neg hb]

theorem State.memRead_same_of_memWrite (hs : Table.Sorted s.mem) (h : s.memWrite a v = .ok t) :
    t.memRead a = .ok v := by
  rw [State.memRead_memWrite hs h, if_pos rfl]

/-- The frame of a memory write outside MEM: no field but `mem` is touched. -/
theorem State.memWrite_frame (h : s.memWrite a v = .ok t) :
    SameRegsExcept s t [] ∧ SameFlags s t ∧ SameRest s t ∧ t.draws = s.draws := by
  obtain ⟨-, rfl⟩ := State.memWrite_eq_ok.1 h
  exact ⟨fun _ _ => rfl, ⟨⟨rfl, rfl⟩, rfl⟩, ⟨⟨rfl, rfl, rfl, rfl, rfl, rfl, rfl, rfl⟩, rfl, rfl, rfl⟩, rfl⟩

end

/-- Settles O9: the bounds come from the laws of `memRead` and `memWrite`, the word written and the other words
from reading after a write, and registers, flags and the rest from the frame of a write. -/
theorem memoryAccessIsBoundedAndReadsBack : Obligations.MemoryAccessIsBoundedAndReadsBack := by
  unfold Obligations.MemoryAccessIsBoundedAndReadsBack
  rintro s a v ⟨-, -, hsorted, -⟩
  constructor
  · intro hout
    exact ⟨State.memRead_eq_error.2 ⟨hout, rfl⟩, State.memWrite_eq_error.2 ⟨hout, rfl⟩⟩
  · intro hin
    have hwrite := State.memWrite_eq_ok (v := v).2 ⟨hin, rfl⟩
    obtain ⟨hregs, hflags, hrest, -⟩ := State.memWrite_frame hwrite
    exact ⟨State.memRead_eq_ok.2 ⟨hin, rfl⟩, _, hwrite, State.memRead_same_of_memWrite hsorted hwrite,
      State.sameMemoryExcept_of_memWrite hsorted hwrite, hregs, hflags, hrest⟩

end Sys2Proof.Machine
end

section
/-! PROOF. The Half converter (40_half_converter.md): the fields of Half and binary32 patterns, what `halfToFloat`
and `floatToHalf` give for each class of pattern, and from them the round-trip law of R107. -/

namespace Sys2Proof.Machine

/-! ## The fields of a pattern (R100, R103) -/

section
variable (s : Bool)

@[simp] theorem F32.sign_make (e : BitVec 8) (m : BitVec 23) : F32.sign (F32.make s e m) = s :=
  calc (BitVec.ofBool s ++ e ++ m).getLsbD 31
    _ = (BitVec.ofBool s ++ e).getLsbD 8 := BitVec.getLsbD_append
    _ = (BitVec.ofBool s).getLsbD 0 := BitVec.getLsbD_append
    _ = s := by simp

@[simp] theorem F32.exp_make (e : BitVec 8) (m : BitVec 23) : F32.exp (F32.make s e m) = e :=
  calc (BitVec.ofBool s ++ e ++ m).extractLsb' 23 8
    _ = (BitVec.ofBool s ++ e).extractLsb' 0 8 := BitVec.extractLsb'_append_eq_of_le (Nat.le_refl 23)
    _ = e := BitVec.extractLsb'_append_eq_right

@[simp] theorem F32.frac_make (e : BitVec 8) (m : BitVec 23) : F32.frac (F32.make s e m) = m :=
  BitVec.extractLsb'_append_eq_right

/-- The 15 bits below the sign, which `floatToHalf` builds as one magnitude, are the exponent and the fraction. -/
theorem Half.make_eq_sign_append (e : BitVec 5) (m : BitVec 10) : Half.make s e m = BitVec.ofBool s ++ (e ++ m) :=
  BitVec.append_assoc

theorem Half.make_and_make (s' : Bool) (e e' : BitVec 5) (m m' : BitVec 10) :
    Half.make s e m &&& Half.make s' e' m' = Half.make (s && s') (e &&& e') (m &&& m') := by
  unfold Half.make
  rw [← BitVec.ofBool_and_ofBool, ← BitVec.and_append, ← BitVec.and_append]

end

@[simp] theorem Half.make_fields (h : Word) : Half.make (Half.sign h) (Half.exp h) (Half.frac h) = h := by
  have hsign : BitVec.ofBool (Half.sign h) = h.extractLsb' 15 1 := by
    ext i hi
    obtain rfl : i = 0 := by omega
    simp [Half.sign]
  have hhigh : BitVec.ofBool (Half.sign h) ++ Half.exp h = h.extractLsb' 10 6 := by
    rw [hsign]
    exact BitVec.extractLsb'_append_extractLsb'_eq_extractLsb' rfl
  calc BitVec.ofBool (Half.sign h) ++ Half.exp h ++ Half.frac h
    _ = h.extractLsb' 10 6 ++ h.extractLsb' 0 10 := by rw [hhigh]; rfl
    _ = h := BitVec.extractLsb'_append_extractLsb'

/-- Masking with `0x8000` leaves the zero of a pattern's sign. -/
theorem Half.and_signBit (h : Word) : h &&& 0x8000 = Half.make (Half.sign h) 0 0 :=
  calc h &&& 0x8000
    _ = Half.make (Half.sign h) (Half.exp h) (Half.frac h) &&& Half.make true 0 0 := by
        rw [Half.make_fields]; rfl
    _ = Half.make (Half.sign h) 0 0 := by rw [Half.make_and_make]; simp

/-! ## HalfToFloat by class (R104) -/

section
variable {h : Word}

theorem halfToFloat_of_isZero (hh : Half.isZero h = true) : halfToFloat h = F32.make (Half.sign h) 0 0 := by
  simp_all [halfToFloat, Half.isZero]

theorem halfToFloat_of_isSubnormal (hh : Half.isSubnormal h = true) :
    halfToFloat h = F32.make (Half.sign h) (BitVec.ofNat 8 (103 + Nat.log2 (Half.frac h).toNat))
      ((Half.frac h).setWidth 23 <<< (23 - Nat.log2 (Half.frac h).toNat)) := by
  simp_all [halfToFloat, Half.isSubnormal]

theorem halfToFloat_of_exp_eq_max (he : Half.exp h = 31) :
    halfToFloat h = F32.make (Half.sign h) 255 (Half.frac h ++ (0 : BitVec 13)) := by
  simp [halfToFloat, he]

theorem halfToFloat_of_isNormal (hh : Half.isNormal h = true) :
    halfToFloat h = F32.make (Half.sign h) ((Half.exp h).setWidth 8 + 112) (Half.frac h ++ (0 : BitVec 13)) := by
  simp_all [halfToFloat, Half.isNormal]

/-- A subnormal's image has an exponent below the range of the normal Halfs. -/
theorem toNat_exp_halfToFloat_le_of_isSubnormal (hh : Half.isSubnormal h = true) :
    (F32.exp (halfToFloat h)).toNat ≤ 112 := by
  have hlog : Nat.log2 (Half.frac h).toNat < 10 := by
    have hne : (Half.frac h).toNat ≠ 0 := by
      simp only [Half.isSubnormal, Bool.and_eq_true, bne_iff_ne] at hh
      exact fun h0 => hh.2 (BitVec.eq_of_toNat_eq h0)
    exact (Nat.log2_lt hne).2 (Half.frac h).isLt
  rw [halfToFloat_of_isSubnormal hh, F32.exp_make, BitVec.toNat_ofNat]
  omega

/-- The exponent is rebiased from 15 to 127 without a carry out of its field. -/
theorem toNat_exp_halfToFloat_of_isNormal (hh : Half.isNormal h = true) :
    (F32.exp (halfToFloat h)).toNat = (Half.exp h).toNat + 112 := by
  rw [halfToFloat_of_isNormal hh, F32.exp_make, BitVec.toNat_add, BitVec.toNat_setWidth]
  have hlt := (Half.exp h).isLt
  have h112 : (112 : BitVec 8).toNat = 112 := rfl
  omega

end

/-! ## FloatToHalf by class (R105, R106) -/

@[simp] theorem roundUp_zero (mag : BitVec 15) : roundUp 0#13 mag = 0 := by
  simp [roundUp]

section
variable {f : F32} (mode : HalfRound)

theorem floatToHalf_of_isInf (hf : F32.isInf f = true) : floatToHalf mode f = Half.make (F32.sign f) 31 0 := by
  simp_all [floatToHalf, F32.isInf]

/-- A NaN whose top ten fraction bits hold its payload keeps it. -/
theorem floatToHalf_of_isNaN (hf : F32.isNaN f = true) (hp : (F32.frac f).extractLsb' 13 10 ≠ 0) :
    floatToHalf mode f = Half.make (F32.sign f) 31 ((F32.frac f).extractLsb' 13 10) := by
  simp_all [floatToHalf, F32.isNaN]

theorem floatToHalf_of_exp_le (he : (F32.exp f).toNat ≤ 112) : floatToHalf mode f = Half.make (F32.sign f) 0 0 := by
  simp [floatToHalf, he, show (F32.exp f).toNat ≠ 255 by omega]

/-- In the range of the normal Halfs nothing is rounded when the 13 dropped bits are 0, in either mode. -/
theorem floatToHalf_of_exp_mid (hlo : 112 < (F32.exp f).toNat) (hhi : (F32.exp f).toNat < 143)
    (hd : (F32.frac f).extractLsb' 0 13 = 0) :
    floatToHalf mode f =
      Half.make (F32.sign f) (BitVec.ofNat 5 ((F32.exp f).toNat - 112)) ((F32.frac f).extractLsb' 13 10) := by
  rw [Half.make_eq_sign_append]
  cases mode <;>
    simp [floatToHalf, hd, show (F32.exp f).toNat ≠ 255 by omega, show ¬ (F32.exp f).toNat ≤ 112 by omega,
      show ¬ 143 ≤ (F32.exp f).toNat by omega]

end

/-! ## The round trip (R107) -/

section
variable (mode : HalfRound) {h : Word}

theorem floatToHalf_halfToFloat_of_isZero (hh : Half.isZero h = true) : floatToHalf mode (halfToFloat h) = h := by
  have hf := halfToFloat_of_isZero hh
  simp only [Half.isZero, Bool.and_eq_true, beq_iff_eq] at hh
  obtain ⟨he, hm⟩ := hh
  rw [hf, floatToHalf_of_exp_le mode (by simp), F32.sign_make]
  conv_rhs => rw [← Half.make_fields h, he, hm]

theorem floatToHalf_halfToFloat_of_isNormal (hh : Half.isNormal h = true) :
    floatToHalf mode (halfToFloat h) = h := by
  have hexp := toNat_exp_halfToFloat_of_isNormal hh
  have hrange : 0 < (Half.exp h).toNat ∧ (Half.exp h).toNat < 31 := by
    simp only [Half.isNormal, Bool.and_eq_true, bne_iff_ne] at hh
    bv_omega
  have hkept : (Half.frac h ++ (0 : BitVec 13)).extractLsb' 13 10 = Half.frac h := BitVec.extractLsb'_append_eq_left
  have hdropped : (Half.frac h ++ (0 : BitVec 13)).extractLsb' 0 13 = 0 := BitVec.extractLsb'_append_eq_right
  have hfrac : F32.frac (halfToFloat h) = Half.frac h ++ (0 : BitVec 13) := by
    rw [halfToFloat_of_isNormal hh, F32.frac_make]
  have hsign : F32.sign (halfToFloat h) = Half.sign h := by rw [halfToFloat_of_isNormal hh, F32.sign_make]
  rw [floatToHalf_of_exp_mid mode (by omega) (by omega) (by rw [hfrac, hdropped]), hsign, hfrac, hkept, hexp,
    Nat.add_sub_cancel, BitVec.ofNat_toNat, BitVec.setWidth_eq, Half.make_fields]

theorem floatToHalf_halfToFloat_of_exp_eq_max (he : Half.exp h = 31) : floatToHalf mode (halfToFloat h) = h := by
  rw [halfToFloat_of_exp_eq_max he]
  have hkept : (Half.frac h ++ (0 : BitVec 13)).extractLsb' 13 10 = Half.frac h := BitVec.extractLsb'_append_eq_left
  by_cases hm : Half.frac h = 0
  · rw [hm, floatToHalf_of_isInf mode (by simp [F32.isInf]), F32.sign_make, ← he, ← hm, Half.make_fields]
  · have hm' : Half.frac h ++ (0 : BitVec 13) ≠ 0 := fun h0 => hm (by rw [← hkept, h0]; simp)
    rw [floatToHalf_of_isNaN mode (by simpa [F32.isNaN] using hm') (by rwa [F32.frac_make, hkept]), F32.sign_make,
      F32.frac_make, hkept, ← he, Half.make_fields]

/-- A subnormal's image has an exponent too small for a normal Half, so only the sign comes back. -/
theorem floatToHalf_halfToFloat_of_isSubnormal (hh : Half.isSubnormal h = true) :
    floatToHalf mode (halfToFloat h) = h &&& 0x8000 := by
  rw [floatToHalf_of_exp_le mode (toNat_exp_halfToFloat_le_of_isSubnormal hh), halfToFloat_of_isSubnormal hh,
    F32.sign_make, Half.and_signBit]

end

/-- The four classes beside the subnormals (R101), infinities and NaNs being those with the largest exponent. -/
theorem Half.classes_of_not_isSubnormal {h : Word} (hh : Half.isSubnormal h = false) :
    Half.isZero h = true ∨ Half.isNormal h = true ∨ Half.exp h = 31 := by
  by_cases he0 : Half.exp h = 0
  · exact .inl (by simpa [Half.isZero, Half.isSubnormal, he0] using hh)
  · by_cases he31 : Half.exp h = 31
    · exact .inr (.inr he31)
    · exact .inr (.inl (by simp_all [Half.isNormal]))

/-- Settles O23, class by class: what `halfToFloat` gives for the class decides the branch `floatToHalf` takes. -/
theorem halfRoundTrip : Obligations.HalfRoundTrip := by
  unfold Obligations.HalfRoundTrip
  intro mode h
  refine ⟨fun hh => ?_, floatToHalf_halfToFloat_of_isSubnormal mode⟩
  rcases Half.classes_of_not_isSubnormal hh with hzero | hnormal | hmax
  · exact floatToHalf_halfToFloat_of_isZero mode hzero
  · exact floatToHalf_halfToFloat_of_isNormal mode hnormal
  · exact floatToHalf_halfToFloat_of_exp_eq_max mode hmax

end Sys2Proof.Machine
end

section
/-! PROOF. The accessor's two writes (46_syscall.md R249, R250): the frame of a register write and of a write of
ERR, the state each of the two operations leads to, and from them the statement about both. -/

namespace Sys2Proof.Machine

section
variable (s : State)

/-- The frame of a register write (10_state.md R23): the other registers and everything outside the register file. -/
theorem State.setReg_frame (r : Reg) (v : Word) :
    SameRegsExcept s (s.setReg r v) [r] ∧ SameFlags s (s.setReg r v) ∧ SameMemory s (s.setReg r v) ∧
      SameRest s (s.setReg r v) ∧ (s.setReg r v).draws = s.draws :=
  ⟨fun _ hr => State.reg_setReg_ne s v (List.ne_of_not_mem_cons hr), ⟨⟨rfl, rfl⟩, rfl⟩,
    State.setReg_memRead s r v, ⟨⟨rfl, rfl, rfl, rfl, rfl, rfl, rfl, rfl⟩, rfl, rfl, rfl⟩, rfl⟩

/-- The frame of a write of ERR (10_state.md R33): no other field is touched, the other two latches included. -/
theorem State.withErr_frame (e : Option HostMsg) :
    SameRegsExcept s { s with err := e } [] ∧ SameFlags s { s with err := e } ∧ SameMemory s { s with err := e } ∧
      SameConfiguration s { s with err := e } ∧ ({ s with err := e } : State).fault = s.fault ∧
      ({ s with err := e } : State).gen = s.gen ∧ ({ s with err := e } : State).draws = s.draws :=
  ⟨fun _ _ => rfl, ⟨⟨rfl, rfl⟩, rfl⟩, fun _ => rfl, ⟨rfl, rfl, rfl, rfl, rfl, rfl, rfl, rfl⟩, rfl, rfl, rfl⟩

theorem State.access_setReturn (v : Word) : s.access (.setReturn v) = .ok (s.setReg .a0 v) := rfl

theorem State.access_signalError (msg : HostMsg) : s.access (.signalError msg) = .ok { s with err := some msg } := rfl

end

/-- Settles O39: set-return is a write of `A0` and the error signal a write of ERR, and each has its frame. -/
theorem accessorWritesReturnOrError : Obligations.AccessorWritesReturnOrError := by
  unfold Obligations.AccessorWritesReturnOrError
  intro s
  constructor
  · intro v
    exact ⟨_, s.access_setReturn v, s.reg_setReg_same .a0 v, s.setReg_frame .a0 v⟩
  · intro msg
    exact ⟨_, s.access_signalError msg, rfl, s.withErr_frame (some msg)⟩

end Sys2Proof.Machine
end

section
/-! PROOF. The decoder and the encoder (30_encoding.md): when a read of the code buffer succeeds, when an operand
sequence does, and from them the round trip, its converse and what a truncated instruction gives. -/

namespace Sys2Proof

open Sys2Proof.Machine

/-! ## Reads of the code buffer (20_memory.md R66) -/

theorem codeRead8_eq_ok {code : List Byte} {c : Nat} {b : Byte} :
    codeRead8 code c = .ok b ↔ code[c]? = some b := by
  unfold codeRead8
  cases code[c]? <;> simp

theorem codeRead8_eq_error {code : List Byte} {c e : Nat} :
    codeRead8 code c = .error e ↔ code.length ≤ c ∧ e = c := by
  unfold codeRead8
  rcases Nat.lt_or_ge c code.length with h | h
  · simp [h]
  · simp [h, eq_comm]

@[simp] theorem loByte_wordOfBytes (lo hi : Byte) : loByte (wordOfBytes lo hi) = lo :=
  BitVec.extractLsb'_append_eq_right

@[simp] theorem hiByte_wordOfBytes (lo hi : Byte) : hiByte (wordOfBytes lo hi) = hi :=
  BitVec.extractLsb'_append_eq_left

@[simp] theorem wordOfBytes_loByte_hiByte (w : Word) : wordOfBytes (loByte w) (hiByte w) = w :=
  BitVec.extractLsb'_append_extractLsb'

theorem toNat_wordOfBytes (lo hi : Byte) : (wordOfBytes lo hi).toNat = lo.toNat + 256 * hi.toNat := by
  unfold wordOfBytes
  rw [BitVec.toNat_append, Nat.shiftLeft_eq, Nat.mul_comm, ← Nat.two_pow_add_eq_or_of_lt lo.isLt]
  omega

/-- A word is read just where its two bytes stand, the low one first. -/
theorem codeRead16_eq_ok {code : List Byte} {c : Nat} {w : Word} :
    codeRead16 code c = .ok w ↔ code[c]? = some (loByte w) ∧ code[c + 1]? = some (hiByte w) := by
  unfold codeRead16
  cases code[c]? with
  | none => simp
  | some lo =>
    cases code[c + 1]? with
    | none => simp
    | some hi =>
      simp only [Except.ok.injEq, Option.some.injEq]
      constructor
      · rintro rfl
        simp
      · rintro ⟨rfl, rfl⟩
        simp

theorem codeRead16_eq_error {code : List Byte} {c e : Nat} :
    codeRead16 code c = .error e ↔ code.length ≤ c + 1 ∧ e = c := by
  unfold codeRead16
  rcases Nat.lt_or_ge (c + 1) code.length with h | h
  · have hc : c < code.length := by omega
    simp [h, hc]
  · cases hc : code[c]? <;> simp [h, eq_comm]

/-! ## Operand sequences (30_encoding.md R71) -/

/-- Bytes stand from an offset of the code buffer on just where the first stands there and the others after it. -/
theorem cons_isPrefix_drop {code bs : List Byte} {c : Nat} {b : Byte} :
    b :: bs <+: code.drop c ↔ code[c]? = some b ∧ bs <+: code.drop (c + 1) := by
  rcases Nat.lt_or_ge c code.length with h | h
  · rw [List.drop_eq_getElem_cons h, List.cons_prefix_cons, List.getElem?_eq_getElem h, Option.some.injEq, eq_comm]
  · simp [List.drop_eq_nil_of_le h, h]

section
variable {code : List Byte} {c : Nat} {i : Instr}

theorem readRI_eq_ok {mk : Byte → Word → Instr} :
    readRI mk code c = .ok i ↔ ∃ r w, mk r w = i ∧ [r, loByte w, hiByte w] <+: code.drop c := by
  simp only [readRI, except_bind_eq_ok, except_pure, codeRead8_eq_ok, codeRead16_eq_ok, cons_isPrefix_drop]
  grind

theorem readRR_eq_ok {mk : Byte → Byte → Instr} :
    readRR mk code c = .ok i ↔ ∃ a b, mk a b = i ∧ [a, b] <+: code.drop c := by
  simp only [readRR, except_bind_eq_ok, except_pure, codeRead8_eq_ok, cons_isPrefix_drop]
  grind

theorem readRRR_eq_ok {mk : Byte → Byte → Byte → Instr} :
    readRRR mk code c = .ok i ↔ ∃ d s t, mk d s t = i ∧ [d, s, t] <+: code.drop c := by
  simp only [readRRR, except_bind_eq_ok, except_pure, codeRead8_eq_ok, cons_isPrefix_drop]
  grind

theorem readR_eq_ok {mk : Byte → Instr} :
    readR mk code c = .ok i ↔ ∃ r, mk r = i ∧ [r] <+: code.drop c := by
  simp only [readR, except_bind_eq_ok, except_pure, codeRead8_eq_ok, cons_isPrefix_drop]
  grind

theorem readA_eq_ok {mk : Word → Instr} :
    readA mk code c = .ok i ↔ ∃ w, mk w = i ∧ [loByte w, hiByte w] <+: code.drop c := by
  simp only [readA, except_bind_eq_ok, except_pure, codeRead16_eq_ok, cons_isPrefix_drop]
  grind

/-- The operand reads of a handler fail at or after the cursor and not after the end of the buffer: a read before
the failing one has succeeded, so its bytes stand in the buffer. -/
def FailsInside (code : List Byte) (c e : Nat) : Prop := c ≤ code.length → c ≤ e ∧ e ≤ code.length

variable {e : Nat}

theorem codeRead8_bind_failsInside {f : Byte → Except Nat Instr}
    (hf : ∀ b, f b = .error e → FailsInside code (c + 1) e) (h : (codeRead8 code c >>= f) = .error e) :
    FailsInside code c e := by
  intro hc
  rcases except_bind_eq_error.1 h with hread | ⟨b, hb, hrest⟩
  · obtain ⟨hlen, rfl⟩ := codeRead8_eq_error.1 hread
    exact ⟨Nat.le_refl _, hc⟩
  · obtain ⟨hlt, -⟩ := List.getElem?_eq_some_iff.1 (codeRead8_eq_ok.1 hb)
    obtain ⟨hlo, hhi⟩ := hf b hrest hlt
    exact ⟨by omega, hhi⟩

theorem codeRead16_map_failsInside {g : Word → Instr} (h : (codeRead16 code c >>= fun w => pure (g w)) = .error e) :
    FailsInside code c e := by
  intro hc
  rcases except_bind_eq_error.1 h with hread | ⟨w, -, hrest⟩
  · obtain ⟨-, rfl⟩ := codeRead16_eq_error.1 hread
    exact ⟨Nat.le_refl _, hc⟩
  · simp at hrest

theorem pure_failsInside (h : (pure i : Except Nat Instr) = .error e) : FailsInside code c e := by
  simp at h

/-- The operand reads of every handler fail inside the buffer or at its end. -/
theorem decodeOperands_failsInside {m : Mnemonic} (h : decodeOperands m code c = .error e) :
    FailsInside code c e := by
  cases m with
  | loadi | storei => exact codeRead8_bind_failsInside (fun _ => codeRead16_map_failsInside) h
  | load | store | move | cmp | cmpf =>
    exact codeRead8_bind_failsInside (fun _ => codeRead8_bind_failsInside fun _ => pure_failsInside) h
  | add | sub | mul | div | addf | subf | mulf | divf | and | or | xor =>
    exact codeRead8_bind_failsInside (fun _ => codeRead8_bind_failsInside fun _ =>
      codeRead8_bind_failsInside fun _ => pure_failsInside) h
  | push | pop => exact codeRead8_bind_failsInside (fun _ => pure_failsInside) h
  | jmp | je | jne | jg | jge | jl | jle | syscall => exact codeRead16_map_failsInside h

end

/-- The bytes of an instruction after its opcode byte, which no opcode map changes. -/
def Instr.operandBytes (i : Instr) : List Byte := (encode i).tail

theorem encodeWith_eq (code : Mnemonic → Byte) (i : Instr) :
    encodeWith code i = code i.mnemonic :: i.operandBytes := by
  cases i <;> rfl

/-- The operands of `i` are read from offset `c` on just where its operand bytes stand there. -/
theorem decodeOperands_eq_ok {m : Mnemonic} {code : List Byte} {c : Nat} {i : Instr} :
    decodeOperands m code c = .ok i ↔ i.mnemonic = m ∧ i.operandBytes <+: code.drop c := by
  constructor
  · intro h
    cases m with
    | loadi | storei =>
      obtain ⟨_, _, rfl, hbytes⟩ := readRI_eq_ok.1 h
      exact ⟨rfl, hbytes⟩
    | load | store | move | cmp | cmpf =>
      obtain ⟨_, _, rfl, hbytes⟩ := readRR_eq_ok.1 h
      exact ⟨rfl, hbytes⟩
    | add | sub | mul | div | addf | subf | mulf | divf | and | or | xor =>
      obtain ⟨_, _, _, rfl, hbytes⟩ := readRRR_eq_ok.1 h
      exact ⟨rfl, hbytes⟩
    | push | pop =>
      obtain ⟨_, rfl, hbytes⟩ := readR_eq_ok.1 h
      exact ⟨rfl, hbytes⟩
    | jmp | je | jne | jg | jge | jl | jle | syscall =>
      obtain ⟨_, rfl, hbytes⟩ := readA_eq_ok.1 h
      exact ⟨rfl, hbytes⟩
  · rintro ⟨rfl, hbytes⟩
    cases i with
    | loadi | storei => exact readRI_eq_ok.2 ⟨_, _, rfl, hbytes⟩
    | load | store | move | cmp | cmpf => exact readRR_eq_ok.2 ⟨_, _, rfl, hbytes⟩
    | add | sub | mul | div | addf | subf | mulf | divf | and | or | xor =>
      exact readRRR_eq_ok.2 ⟨_, _, _, rfl, hbytes⟩
    | push | pop => exact readR_eq_ok.2 ⟨_, rfl, hbytes⟩
    | jmp | je | jne | jg | jge | jl | jle | syscall => exact readA_eq_ok.2 ⟨_, rfl, hbytes⟩

theorem Instr.length_operandBytes (i : Instr) : i.operandBytes.length + 1 = i.length := by
  cases i <;> rfl

/-! ## Decoding at an offset (30_encoding.md R75, 41_engine_step.md R136) -/

/-- Decoding gives `i` just where an opcode byte of its handler stands and its operand bytes after it. -/
theorem decodeAt_eq_ok {lookup : Byte → Option Mnemonic} {code : List Byte} {p : Nat} {i : Instr} :
    decodeAt lookup code p = .ok i ↔
      ∃ op, code[p]? = some op ∧ lookup op = some i.mnemonic ∧ i.operandBytes <+: code.drop (p + 1) := by
  unfold decodeAt
  cases code[p]? with
  | none => simp
  | some op =>
    cases hm : lookup op with
    | none => simp [hm]
    | some m =>
      have hoperands := @decodeOperands_eq_ok m code (p + 1) i
      cases hd : decodeOperands m code (p + 1) <;> simp [hm, hd, eq_comm] at hoperands ⊢ <;> exact hoperands

/-- Past the end of the buffer there is no opcode byte. -/
theorem decodeAt_of_length_le {lookup : Byte → Option Mnemonic} {code : List Byte} {p : Nat}
    (h : code.length ≤ p) : decodeAt lookup code p = .error .noOpcode := by
  simp [decodeAt, h]

/-- An opcode byte without a handler is reported as it stands. -/
theorem decodeAt_of_no_handler {lookup : Byte → Option Mnemonic} {code : List Byte} {p : Nat} {op : Byte}
    (hop : code[p]? = some op) (hnone : lookup op = none) : decodeAt lookup code p = .error (.opcode op) := by
  simp [decodeAt, hop, hnone]

/-- Operands that cannot be read are reported with the offset of the failed read. -/
theorem decodeAt_of_operands_error {lookup : Byte → Option Mnemonic} {code : List Byte} {p c : Nat} {op : Byte}
    {m : Mnemonic} (hop : code[p]? = some op) (hm : lookup op = some m)
    (hc : decodeOperands m code (p + 1) = .error c) : decodeAt lookup code p = .error (.operand c) := by
  simp [decodeAt, hop, hm, hc]

/-- Under the default map an opcode byte stands for `m` just where it is the byte of `m`. -/
theorem mnemonicOf_eq_some {op : Byte} {m : Mnemonic} : mnemonicOf op = some m ↔ op = opc m := by
  constructor
  · intro h
    have hfound : (opc m == op) = true := List.find?_some (p := fun m => opc m == op) h
    exact (eq_of_beq hfound).symm
  · rintro rfl
    cases m <;> decide

/-- Settles O1: the opcode byte stands at the offset and the operand bytes right after it. -/
theorem decodeOfEncodeIsIdentity : Obligations.DecodeOfEncodeIsIdentity := by
  unfold Obligations.DecodeOfEncodeIsIdentity
  intro lookup code hlookup before after i
  rw [encodeWith_eq]
  refine decodeAt_eq_ok.2 ⟨code i.mnemonic, by simp, hlookup _, ⟨after, ?_⟩⟩
  simp [List.drop_append]

/-- Settles O2: decoding asks for the opcode byte and the operand bytes, which make up the encoding, and for
nothing after them. -/
theorem onlyItsEncodingDecodesToAnInstruction : Obligations.OnlyItsEncodingDecodesToAnInstruction := by
  unfold Obligations.OnlyItsEncodingDecodesToAnInstruction
  intro bytes i
  have hencode : encode i = opc i.mnemonic :: i.operandBytes := encodeWith_eq opc i
  calc decode bytes = .ok i
    _ ↔ bytes[0]? = some (opc i.mnemonic) ∧ i.operandBytes <+: bytes.drop 1 := by
        simp [decode, decodeAt_eq_ok, mnemonicOf_eq_some]
    _ ↔ encode i <+: bytes.drop 0 := by rw [hencode, cons_isPrefix_drop]
    _ ↔ ∃ rest, bytes = encode i ++ rest := by simp [List.IsPrefix, eq_comm]

/-- Settles O3, by evaluating the decoder. -/
theorem sampleWordsDecode : Obligations.SampleWordsDecode := by
  unfold Obligations.SampleWordsDecode
  decide

/-- Settles O4, from the laws of the two code-buffer reads. -/
theorem codeReadsAreBoundedAndLittleEndian : Obligations.CodeReadsAreBoundedAndLittleEndian := by
  unfold Obligations.CodeReadsAreBoundedAndLittleEndian
  intro code c
  refine ⟨fun h => codeRead8_eq_error.2 ⟨h, rfl⟩, fun h => codeRead8_eq_ok.2 (List.getElem?_eq_getElem h),
    fun h => codeRead16_eq_error.2 ⟨h, rfl⟩, fun h => ?_⟩
  refine ⟨wordOfBytes (code[c]'(by omega)) code[c + 1], codeRead16_eq_ok.2 ?_, toNat_wordOfBytes _ _⟩
  simp [List.getElem?_eq_getElem h, List.getElem?_eq_getElem (show c < code.length by omega)]

/-- Settles O5: the operands cannot be read, since they are longer than the bytes left, and the read that fails is
inside the buffer or at its end. -/
theorem truncatedInstructionsDoNotDecode : Obligations.TruncatedInstructionsDoNotDecode := by
  unfold Obligations.TruncatedInstructionsDoNotDecode
  intro m operands hshort
  cases hread : decodeOperands m (opc m :: operands) 1 with
  | ok i =>
    obtain ⟨rfl, hbytes⟩ := decodeOperands_eq_ok.1 hread
    have hle : i.operandBytes.length ≤ operands.length := hbytes.length_le
    have hlen := i.length_operandBytes
    unfold Instr.length at hlen
    omega
  | error c =>
    have hinside := decodeOperands_failsInside hread (by simp)
    exact ⟨c, decodeAt_of_operands_error rfl (mnemonicOf_eq_some.2 rfl) hread, hinside⟩

end Sys2Proof
end

section
/-! PROOF. Register identifiers (10_state.md R22, R23, 60_exceptions.md R265): what an operand byte above 15 does
to an instruction and to the register port. -/

namespace Sys2Proof.Machine

section
variable {s : State} {a b d x : Byte}

theorem validRegId_iff : validRegId b = true ↔ b.toNat < 16 := by
  simp only [validRegId, decide_eq_true_eq]
  omega

theorem State.regOf_of_invalid (h : validRegId b = false) : s.regOf b = .error (.regId b) := by
  refine State.regOf_eq_error.2 ⟨?_, rfl⟩
  have hnot : ¬ b.toNat < 16 := fun hlt => by simp [validRegId_iff.2 hlt] at h
  omega

theorem State.exists_regOf_of_valid (h : validRegId b = true) : ∃ r, s.regOf b = .ok r :=
  ⟨_, State.regOf_eq_ok.2 ⟨validRegId_iff.1 h, rfl⟩⟩

/-! ## The first invalid identifier, in operand order -/

theorem State.reg1_of_find (h : [a].find? (fun b => !validRegId b) = some x) : s.reg1 a = .error (.regId x) := by
  cases ha : validRegId a with
  | true => simp [ha] at h
  | false =>
    obtain rfl : a = x := by simpa [ha] using h
    exact State.regOf_of_invalid ha

theorem State.reg2_of_find (h : [a, b].find? (fun b => !validRegId b) = some x) :
    s.reg2 a b = .error (.regId x) := by
  unfold State.reg2
  cases ha : validRegId a with
  | true =>
    obtain ⟨ra, hra⟩ := State.exists_regOf_of_valid (s := s) ha
    have hrest : s.regOf b = .error (.regId x) := State.reg1_of_find (by simpa [ha] using h)
    simp [hra, hrest]
  | false =>
    obtain rfl : a = x := by simpa [ha] using h
    simp [State.regOf_of_invalid ha]

theorem State.reg3_of_find (h : [d, a, b].find? (fun b => !validRegId b) = some x) :
    s.reg3 d a b = .error (.regId x) := by
  unfold State.reg3
  cases hd : validRegId d with
  | true =>
    obtain ⟨rd, hrd⟩ := State.exists_regOf_of_valid (s := s) hd
    have hrest : s.reg2 a b = .error (.regId x) := State.reg2_of_find (by simpa [hd] using h)
    rcases except_bind_eq_error.1 hrest with hra | ⟨ra, hra, hrb⟩
    · simp [hrd, hra]
    · rcases except_bind_eq_error.1 hrb with hrb | ⟨rb, -, hpure⟩
      · simp [hrd, hra, hrb]
      · simp at hpure
  | false =>
    obtain rfl : d = x := by simpa [hd] using h
    simp [State.regOf_of_invalid hd]

/-- A handler whose operand check fails ends in that fault, whatever it would do next. -/
theorem outcome_error_bind {α : Type} {e : Except Fault α} {f : Fault} {k : α → Except Fault State}
    (h : e = .error f) : outcome (e >>= k) = .fault f := by
  rw [h]
  rfl

end

/-- Settles O8: every handler checks its register operands in order before it does anything else. -/
theorem registerFaultsComeFirstInOperandOrder : Obligations.RegisterFaultsComeFirstInOperandOrder := by
  unfold Obligations.RegisterFaultsComeFirstInOperandOrder
  intro i s b hfind
  cases i with
  | loadi | storei | push | pop => exact outcome_error_bind (State.reg1_of_find hfind)
  | load | store | move | cmp | cmpf => exact outcome_error_bind (State.reg2_of_find hfind)
  | add | sub | mul | div | addf | subf | mulf | divf | and | or | xor =>
    exact outcome_error_bind (State.reg3_of_find hfind)
  | jmp | je | jne | jg | jge | jl | jle | syscall => simp [Instr.regOperands] at hfind

/-! ## The register port (41_engine_step.md R143) -/

section
variable {s : State} {id : Byte} (hready : s.phase = .ready)
include hready

theorem getReg_of_regOf {r : Reg} (h : s.regOf id = .ok r) : getReg id s = .value (s.reg r) s := by
  simp [getReg, State.whenReady, hready, h]

theorem setRegPort_of_regOf {r : Reg} (v : Word) (h : s.regOf id = .ok r) :
    setRegPort id v s = .value () (s.setReg r v) := by
  simp [setRegPort, State.whenReady, hready, h]

/-- The port answers an identifier above 15 with an error and leaves the state as it was. -/
theorem port_of_invalid (v : Word) (h : 15 < id.toNat) :
    getReg id s = .error (.badReg id) s ∧ setRegPort id v s = .error (.badReg id) s := by
  have hreg : s.regOf id = .error (.regId id) := State.regOf_eq_error.2 ⟨h, rfl⟩
  simp [getReg, setRegPort, State.whenReady, hready, hreg]

end

/-- With REGNUM a bijection, different identifiers name different registers (10_state.md R21). -/
theorem State.regOf_inj {s : State} (hs : s.RegnumOk) {a b : Byte} {r : Reg} (ha : s.regOf a = .ok r)
    (hb : s.regOf b = .ok r) : a = b := by
  obtain ⟨hlta, rfl⟩ := State.regOf_eq_ok.1 ha
  obtain ⟨hltb, heq⟩ := State.regOf_eq_ok.1 hb
  have hlist : s.cfg.regnum.toList[a.toNat]'(by simpa using hlta) = s.cfg.regnum.toList[b.toNat]'(by simpa using hltb) := by
    simpa using heq.symm
  exact BitVec.eq_of_toNat_eq ((List.Nodup.getElem_inj_iff hs).1 hlist)

/-- Settles O7: the first invalid identifier is one of the instruction's (O8), and the port answers E_REGID. -/
theorem invalidRegisterIdentifiersFail : Obligations.InvalidRegisterIdentifiersFail := by
  unfold Obligations.InvalidRegisterIdentifiersFail
  refine ⟨fun i s hill => ?_, fun s id v hready hid => port_of_invalid hready v hid⟩
  have hsome : (i.regOperands.find? fun b => !validRegId b).isSome := by
    simpa [Instr.wellFormed, List.find?_isSome] using hill
  obtain ⟨b, hb⟩ := Option.isSome_iff_exists.1 hsome
  have hinvalid : validRegId b = false := by simpa using List.find?_some hb
  refine ⟨b, List.mem_of_find?_eq_some hb, ?_, registerFaultsComeFirstInOperandOrder i s b hb⟩
  exact (State.regOf_eq_error (s := s).1 (State.regOf_of_invalid hinvalid)).1

/-- Settles O6: the port is a read and a write of the register the identifier names, and another identifier names
another register. -/
theorem registerPortReadsBackWrites : Obligations.RegisterPortReadsBackWrites := by
  unfold Obligations.RegisterPortReadsBackWrites
  intro s id v hready hregnum
  refine ⟨fun hid => ?_, fun hid => (port_of_invalid hready v hid).symm⟩
  obtain ⟨r, hr⟩ := State.exists_regOf_of_valid (s := s) (validRegId_iff.2 (Nat.lt_succ_of_le hid))
  refine ⟨_, setRegPort_of_regOf hready v hr, ?_, fun other hother hne => ?_⟩
  · rw [getReg_of_regOf (s := s.setReg r v) hready hr, State.reg_setReg_same]
  · obtain ⟨q, hq⟩ := State.exists_regOf_of_valid (s := s) (validRegId_iff.2 (Nat.lt_succ_of_le hother))
    have hqr : q ≠ r := fun h => hne (State.regOf_inj hregnum hq (h ▸ hr))
    refine ⟨_, getReg_of_regOf hready hq, ?_⟩
    rw [getReg_of_regOf (s := s.setReg r v) hready hq, State.reg_setReg_ne s v hqr]

end Sys2Proof.Machine
end

section
/-! PROOF. Data movement (42_data_movement.md): the frames of the writes a handler ends with, `Ip` being written
last (70_reset_and_hazards.md R300), and from them the statement of each instruction. -/

namespace Sys2Proof.Machine

/-! ## What a handler's writes leave unchanged -/

section
variable (s : State)

/-- Two register writes: the first is lost where both write one register, as a handler's write of `Ip` is. -/
theorem State.setReg_setReg_frame (r q : Reg) (v w : Word) :
    let t := (s.setReg r v).setReg q w
    (r ≠ q → t.reg r = v) ∧ t.reg q = w ∧ SameRegsExcept s t [r, q] ∧ SameFlags s t ∧ SameMemory s t ∧
      SameRest s t ∧ t.draws = s.draws := by
  refine ⟨fun hr => ?_, State.reg_setReg_same _ _ _, fun x hx => ?_, ⟨⟨rfl, rfl⟩, rfl⟩, fun _ => rfl,
    ⟨⟨rfl, rfl, rfl, rfl, rfl, rfl, rfl, rfl⟩, rfl, rfl, rfl⟩, rfl⟩
  · rw [State.reg_setReg_ne _ _ hr, State.reg_setReg_same]
  · simp only [List.mem_cons, List.not_mem_nil, or_false, not_or] at hx
    rw [State.reg_setReg_ne _ _ hx.2, State.reg_setReg_ne _ _ hx.1]

variable {s} {a : Word}

/-- `s` with `v` stored at `a`, which an instruction then writes registers in. -/
def State.stored (s : State) (a v : Word) : State := { s with mem := s.mem.write a.toNat v }

theorem State.memWrite_eq_stored (ha : a.toNat < s.memSize) (v : Word) : s.memWrite a v = .ok (s.stored a v) :=
  State.memWrite_eq_ok.2 ⟨ha, rfl⟩

/-- Memory after a store: the word at `a` and no other, in any state with the same memory. -/
theorem State.stored_memory (hs : s.MemOk) (ha : a.toNat < s.memSize) (v : Word) :
    (s.stored a v).memRead a = .ok v ∧ SameMemoryExcept s (s.stored a v) a := by
  obtain ⟨-, -, hsorted, -⟩ := hs
  have hwrite := State.memWrite_eq_stored ha v
  exact ⟨State.memRead_same_of_memWrite hsorted hwrite, State.sameMemoryExcept_of_memWrite hsorted hwrite⟩

end

/-! ## The faults of a memory access (60_exceptions.md R262) -/

section
variable {s : State} {a v : Word}

theorem State.memRead_of_le (h : s.memSize ≤ a.toNat) : s.memRead a = .error (.mem a) :=
  State.memRead_eq_error.2 ⟨h, rfl⟩

theorem State.memWrite_of_le (h : s.memSize ≤ a.toNat) : s.memWrite a v = .error (.mem a) :=
  State.memWrite_eq_error.2 ⟨h, rfl⟩

theorem State.push_of_le (h : s.memSize ≤ (s.reg .sp).toNat) : s.push v = .error (.mem (s.reg .sp)) :=
  State.push_eq_error.2 ⟨h, rfl⟩

theorem State.pop_of_le (h : s.memSize ≤ (s.reg .sp + 1).toNat) : s.pop = .error (.mem (s.reg .sp + 1)) :=
  State.pop_eq_error.2 ⟨h, rfl⟩

/-- Two valid register operands, as one check. -/
theorem State.reg2_of_regOf {a b : Byte} {ra rb : Reg} (ha : s.regOf a = .ok ra) (hb : s.regOf b = .ok rb) :
    s.reg2 a b = .ok (ra, rb) := State.reg2_eq_ok.2 ⟨ha, hb⟩

/-- Three valid register operands, as one check. -/
theorem State.reg3_of_regOf {d a b : Byte} {rd ra rb : Reg} (hd : s.regOf d = .ok rd) (ha : s.regOf a = .ok ra)
    (hb : s.regOf b = .ok rb) : s.reg3 d a b = .ok (rd, ra, rb) := State.reg3_eq_ok.2 ⟨hd, ha, hb⟩

end

/-! ## The instructions -/

/-- Settles O10. -/
theorem loadImmediateWritesItsRegister : Obligations.LoadImmediateWritesItsRegister := by
  unfold Obligations.LoadImmediateWritesItsRegister
  intro s d imm rd hd
  exact ⟨_, execLoadi_eq_next.2 ⟨rd, hd, rfl⟩, s.setReg_setReg_frame rd .ip imm _⟩

/-- Settles O11. -/
theorem loadReadsTheWordAtItsPointer : Obligations.LoadReadsTheWordAtItsPointer := by
  unfold Obligations.LoadReadsTheWordAtItsPointer
  intro s d p rd rp hd hp
  refine ⟨fun v hv => ?_, fun hout => ?_⟩
  · obtain ⟨hin, rfl⟩ := State.memRead_eq_ok.1 hv
    exact ⟨_, execLoad_eq_next.2 ⟨rd, rp, hd, hp, hin, rfl⟩, s.setReg_setReg_frame rd .ip _ _⟩
  · simp [exec, execLoad, State.reg2_of_regOf hd hp, State.memRead_of_le hout]

/-- Settles O12: the store is a memory write, whose frame the write of `Ip` then narrows by `Ip` alone. -/
theorem storeImmediateWritesTheWordAtItsAddress : Obligations.StoreImmediateWritesTheWordAtItsAddress := by
  unfold Obligations.StoreImmediateWritesTheWordAtItsAddress
  intro s r imm rr hs hr
  refine ⟨fun hin => ?_, fun hout => ?_⟩
  · obtain ⟨hread, hother⟩ := State.stored_memory hs hin (s.reg rr)
    obtain ⟨hregs, hflags, -, hrest, hdraws⟩ := (s.stored imm (s.reg rr)).setReg_frame .ip (s.cursor 3)
    exact ⟨_, execStorei_eq_next.2 ⟨rr, hr, hin, rfl⟩, hread, hother, State.reg_setReg_same _ _ _, hregs, hflags,
      hrest, hdraws⟩
  · simp [exec, execStorei, State.reg1, hr, State.memWrite_of_le hout]

/-- Settles O13. -/
theorem storeWritesTheWordAtItsPointer : Obligations.StoreWritesTheWordAtItsPointer := by
  unfold Obligations.StoreWritesTheWordAtItsPointer
  intro s p r rp rr hs hp hr
  refine ⟨fun hin => ?_, fun hout => ?_⟩
  · obtain ⟨hread, hother⟩ := State.stored_memory hs hin (s.reg rr)
    obtain ⟨hregs, hflags, -, hrest, hdraws⟩ := (s.stored (s.reg rp) (s.reg rr)).setReg_frame .ip (s.cursor 2)
    exact ⟨_, execStore_eq_next.2 ⟨rp, rr, hp, hr, hin, rfl⟩, hread, hother, State.reg_setReg_same _ _ _, hregs,
      hflags, hrest, hdraws⟩
  · simp [exec, execStore, State.reg2_of_regOf hp hr, State.memWrite_of_le hout]

/-- Settles O14. -/
theorem moveCopiesARegister : Obligations.MoveCopiesARegister := by
  unfold Obligations.MoveCopiesARegister
  intro s d r rd rr hd hr
  exact ⟨_, execMove_eq_next.2 ⟨rd, rr, hd, hr, rfl⟩, s.setReg_setReg_frame rd .ip _ _⟩

/-- Settles O15: a store at the old `Sp`, then writes of `Sp` and `Ip`. -/
theorem pushStoresAtSpAndLowersIt : Obligations.PushStoresAtSpAndLowersIt := by
  unfold Obligations.PushStoresAtSpAndLowersIt
  intro s r rr hs hr
  refine ⟨fun hin => ?_, fun hout => ?_⟩
  · obtain ⟨hread, hother⟩ := State.stored_memory hs hin (s.reg rr)
    obtain ⟨hsp, hip, hregs, hflags, -, hrest, hdraws⟩ :=
      (s.stored (s.reg .sp) (s.reg rr)).setReg_setReg_frame .sp .ip (s.reg .sp - 1) (s.cursor 1)
    exact ⟨_, execPush_eq_next.2 ⟨rr, hr, hin, rfl⟩, hread, hother, hsp (by decide), hip, hregs, hflags, hrest,
      hdraws⟩
  · simp [exec, execPush, State.reg1, hr, State.push_of_le hout]

/-- Settles O16: a write of `Sp`, then of the register, then of `Ip`. -/
theorem popRaisesSpAndReadsThere : Obligations.PopRaisesSpAndReadsThere := by
  unfold Obligations.PopRaisesSpAndReadsThere
  intro s r rr hr
  refine ⟨fun v hv => ?_, fun hout => ?_⟩
  · obtain ⟨hin, rfl⟩ := State.memRead_eq_ok.1 hv
    obtain ⟨hrr, hip, hregs, hflags, hmem, hrest, hdraws⟩ :=
      (s.setReg .sp (s.reg .sp + 1)).setReg_setReg_frame rr .ip (s.peek (s.reg .sp + 1).toNat) (s.cursor 1)
    refine ⟨_, execPop_eq_next.2 ⟨rr, hr, hin, rfl⟩, hrr, fun hsp => ?_, hip, fun q hq => ?_, hflags, hmem, hrest,
      hdraws⟩
    · rw [hregs .sp (by simp [hsp.symm]), State.reg_setReg_same]
    · simp only [List.mem_cons, List.not_mem_nil, or_false, not_or] at hq
      obtain ⟨hqr, hqsp, hqip⟩ := hq
      rw [hregs q (by simp [hqr, hqip]), State.reg_setReg_ne _ _ hqsp]
  · simp [exec, execPop, State.reg1, hr, State.pop_of_le hout]

/-- A register operand names the same register in two states with the same parameters. -/
theorem State.regOf_congr {s t : State} (h : t.cfg = s.cfg) (b : Byte) : t.regOf b = s.regOf b := by
  unfold State.regOf
  rw [h]

/-- Settles O17: POP (O16) reads back at the old `Sp` what PUSH (O15) has stored there. -/
theorem pushThenPopRestoresSp : Obligations.PushThenPopRestoresSp := by
  unfold Obligations.PushThenPopRestoresSp
  intro s r q rr rq hs hr hq _ _ hqsp hqip hin
  obtain ⟨t, hpush, hread, -, hsp, -, -, -, ⟨⟨-, -, hcfg, -⟩, -⟩, -⟩ := (pushStoresAtSpAndLowersIt s r rr hs hr).1 hin
  have hback : t.reg .sp + 1 = s.reg .sp := by rw [hsp, BitVec.sub_add_cancel]
  obtain ⟨u, hpop, hval, hsp', -⟩ :=
    (popRaisesSpAndReadsThere t q rq (by rw [State.regOf_congr hcfg, hq])).1 (s.reg rr) (by rw [hback, hread])
  exact ⟨t, u, hpush, hpop, hval hqip, (hsp' hqsp).trans hback⟩

end Sys2Proof.Machine
end

section
/-! PROOF. The integer ALU (43_integer_alu.md) and the jumps (45_control_transfer.md): the three-register form and
the jump form with their frames, and from them the statement of each operation and of the jumps after CMP. -/

namespace Sys2Proof.Machine

/-! ## The three-register form (43_integer_alu.md R180) -/

section
variable {s : State} {d a b : Byte} {rd ra rb : Reg}
  (hd : s.regOf d = .ok rd) (ha : s.regOf a = .ok ra) (hb : s.regOf b = .ok rb)
include hd ha hb

theorem threeReg_completes (op : Word → Word → Word) :
    ∃ t, threeReg op d a b s = .next t ∧ (rd ≠ .ip → t.reg rd = op (s.reg ra) (s.reg rb)) ∧ t.ip = s.ip + 3 ∧
      SameRegsExcept s t [rd, .ip] ∧ SameFlags s t ∧ SameMemory s t ∧ SameRest s t ∧ t.draws = s.draws :=
  ⟨_, threeReg_eq_next.2 ⟨rd, ra, rb, hd, ha, hb, rfl⟩, s.setReg_setReg_frame rd .ip _ _⟩

end

/-- Settles O18: the word operations are the integer ones modulo 2^16. -/
theorem integerArithmeticWrapsModulo65536 : Obligations.IntegerArithmeticWrapsModulo65536 := by
  unfold Obligations.IntegerArithmeticWrapsModulo65536
  intro mk f hmem s d a b rd ra rb hd ha hb
  have key : ∃ op : Word → Word → Word, (∀ d a b, exec (mk d a b) s = threeReg op d a b s) ∧
      ∀ x y : Word, ((op x y).toNat : Int) = f x.toNat y.toNat % 65536 := by
    simp only [List.mem_cons, List.not_mem_nil, or_false, Prod.mk.injEq] at hmem
    rcases hmem with ⟨rfl, rfl⟩ | ⟨rfl, rfl⟩ | ⟨rfl, rfl⟩
    · exact ⟨fun x y => x + y, fun _ _ _ => rfl, fun x y => by simp [BitVec.toNat_add]⟩
    · exact ⟨fun x y => x - y, fun _ _ _ => rfl, fun x y => by simp only [BitVec.toNat_sub]; omega⟩
    · exact ⟨fun x y => x * y, fun _ _ _ => rfl, fun x y => by simp [BitVec.toNat_mul]⟩
  obtain ⟨op, hexec, hop⟩ := key
  obtain ⟨t, ht, hval, hframe⟩ := threeReg_completes hd ha hb op
  exact ⟨t, (hexec d a b).trans ht, fun hip => by rw [hval hip, hop], hframe⟩

/-- Settles O19: the word operations are the Boolean ones bit by bit. -/
theorem logicIsBitwise : Obligations.LogicIsBitwise := by
  unfold Obligations.LogicIsBitwise
  intro mk f hmem s d a b rd ra rb hd ha hb
  have key : ∃ op : Word → Word → Word, (∀ d a b, exec (mk d a b) s = threeReg op d a b s) ∧
      ∀ (x y : Word) (i : Nat), (op x y).getLsbD i = f (x.getLsbD i) (y.getLsbD i) := by
    simp only [List.mem_cons, List.not_mem_nil, or_false, Prod.mk.injEq] at hmem
    rcases hmem with ⟨rfl, rfl⟩ | ⟨rfl, rfl⟩ | ⟨rfl, rfl⟩
    · exact ⟨fun x y => x &&& y, fun _ _ _ => rfl, fun _ _ _ => BitVec.getLsbD_and⟩
    · exact ⟨fun x y => x ||| y, fun _ _ _ => rfl, fun _ _ _ => BitVec.getLsbD_or⟩
    · exact ⟨fun x y => x ^^^ y, fun _ _ _ => rfl, fun _ _ _ => BitVec.getLsbD_xor⟩
  obtain ⟨op, hexec, hop⟩ := key
  obtain ⟨t, ht, hval, hframe⟩ := threeReg_completes hd ha hb op
  exact ⟨t, (hexec d a b).trans ht, fun hip i _ => by rw [hval hip, hop], hframe⟩

/-- Settles O20: a quotient of words is a word. -/
theorem divisionIsUnsignedAndFaultsOnZero : Obligations.DivisionIsUnsignedAndFaultsOnZero := by
  unfold Obligations.DivisionIsUnsignedAndFaultsOnZero
  intro s d a b rd ra rb hd ha hb
  refine ⟨fun hne => ?_, fun hzero => ?_⟩
  · have hquot : (s.reg ra).toNat / (s.reg rb).toNat < 2 ^ 16 := Nat.lt_of_le_of_lt (Nat.div_le_self _ _) (s.reg ra).isLt
    obtain ⟨hval, hframe⟩ := s.setReg_setReg_frame rd .ip (BitVec.ofNat 16 ((s.reg ra).toNat / (s.reg rb).toNat)) (s.cursor 3)
    refine ⟨_, execDiv_eq_next.2 ⟨rd, ra, rb, hd, ha, hb, hne, rfl⟩, fun hip => ?_, hframe⟩
    rw [hval hip, BitVec.toNat_ofNat, Nat.mod_eq_of_lt hquot]
  · simp [exec, execDiv, State.reg3_of_regOf hd ha hb, hzero]

/-- Settles O21: SUB reads the sum ADD has written and the word ADD has left. -/
theorem addThenSubRoundTrips : Obligations.AddThenSubRoundTrips := by
  unfold Obligations.AddThenSubRoundTrips
  intro s d a b rd ra rb hd ha hb hdip hbip hdb
  obtain ⟨t, hadd, hsum, -, hregs, -, -, ⟨⟨-, -, hcfg, -⟩, -⟩, -⟩ := threeReg_completes hd ha hb (fun x y => x + y)
  have hd' : t.regOf d = .ok rd := by rw [State.regOf_congr hcfg, hd]
  have hb' : t.regOf b = .ok rb := by rw [State.regOf_congr hcfg, hb]
  obtain ⟨u, hsub, hdiff, -⟩ := threeReg_completes hd' hd' hb' (fun x y => x - y)
  have hkept : t.reg rb = s.reg rb := hregs rb (by simp [hdb.symm, hbip])
  exact ⟨t, u, hadd, hsub, by rw [hdiff hdip, hsum hdip, hkept, BitVec.add_sub_cancel]⟩

/-! ## The compare (43_integer_alu.md R188) -/

theorem cmpZero_iff {x y : Word} : cmpZero x y = true ↔ x = y := by
  simp [cmpZero, BitVec.toNat_inj]

theorem cmpSign_iff {x y : Word} : cmpSign x y = true ↔ x.toNat < y.toNat := by
  simp only [cmpSign, decide_eq_true_eq]
  omega

/-- A write of the compare flags and then of `Ip`. -/
theorem State.setCompare_setIp_frame (s : State) (z n : Bool) (c : Word) :
    let t := (s.setCompare z n).setReg .ip c
    t.sysc = s.sysc ∧ t.ip = c ∧ SameRegsExcept s t [.ip] ∧ SameMemory s t ∧ SameRest s t ∧ t.draws = s.draws := by
  obtain ⟨hregs, -⟩ := (s.setCompare z n).setReg_frame .ip c
  exact ⟨rfl, State.reg_setReg_same _ _ _, hregs, fun _ => rfl,
    ⟨⟨rfl, rfl, rfl, rfl, rfl, rfl, rfl, rfl⟩, rfl, rfl, rfl⟩, rfl⟩

/-- Settles O22. -/
theorem compareIsUnsigned : Obligations.CompareIsUnsigned := by
  unfold Obligations.CompareIsUnsigned
  intro s a b ra rb ha hb
  exact ⟨_, execCmp_eq_next.2 ⟨ra, rb, ha, hb, rfl⟩, cmpZero_iff, cmpSign_iff, s.setCompare_setIp_frame _ _ _⟩

/-! ## The jumps (45_control_transfer.md) -/

theorem jumpWhen_completes (s : State) (taken : Bool) (addr : Word) :
    ∃ t, jumpWhen taken addr s = .next t ∧ t.ip = (if taken then addr else s.ip + 2) ∧ SameRegsExcept s t [.ip] ∧
      SameFlags s t ∧ SameMemory s t ∧ SameRest s t ∧ t.draws = s.draws :=
  ⟨_, jumpWhen_eq_next.2 rfl, State.reg_setReg_same _ _ _, s.setReg_frame .ip _⟩

/-- The condition of JLE, by its mode (R227). -/
theorem condJle_eq (mode : JleMode) (zero sign : Bool) :
    condJle mode zero sign = if mode = .observed then zero || !sign else zero || sign := by
  cases mode <;> rfl

/-- Settles O34: each jump is the jump form with its own condition. -/
theorem jumpsSetIpAlone : Obligations.JumpsSetIpAlone := by
  unfold Obligations.JumpsSetIpAlone
  intro s mk taken hmem addr
  have hexec : exec (mk addr) s = jumpWhen taken addr s := by
    simp only [List.mem_cons, List.not_mem_nil, or_false, Prod.mk.injEq] at hmem
    rcases hmem with ⟨rfl, rfl⟩ | ⟨rfl, rfl⟩ | ⟨rfl, rfl⟩ | ⟨rfl, rfl⟩ | ⟨rfl, rfl⟩ | ⟨rfl, rfl⟩ | ⟨rfl, rfl⟩
    iterate 6 rfl
    rw [← condJle_eq]
    rfl
  rw [hexec]
  exact jumpWhen_completes s taken addr

/-- Settles O35: after CMP (O22) the flags tell the order of the operands, and each condition (O34) reads it off. -/
theorem jumpsAfterCompareFollowTheOrder : Obligations.JumpsAfterCompareFollowTheOrder := by
  unfold Obligations.JumpsAfterCompareFollowTheOrder
  intro s t a b ra rb ha hb hcmp mk holds hmem addr
  obtain ⟨t', hcmp', hzero, hsign, -, -, -, -, ⟨⟨-, -, hcfg, -⟩, -⟩, -⟩ := compareIsUnsigned s a b ra rb ha hb
  obtain rfl : t = t' := Host.Outcome.next.inj (hcmp.symm.trans hcmp')
  rw [← BitVec.toNat_inj] at hzero
  have key : ∃ taken, exec (mk addr) t = jumpWhen taken addr t ∧ (taken = true ↔ holds) := by
    simp only [List.mem_cons, List.not_mem_nil, or_false, Prod.mk.injEq] at hmem
    rcases hmem with ⟨rfl, rfl⟩ | ⟨rfl, rfl⟩ | ⟨rfl, rfl⟩ | ⟨rfl, rfl⟩ | ⟨rfl, rfl⟩ | ⟨rfl, rfl⟩
    · exact ⟨_, rfl, hzero⟩
    · exact ⟨_, rfl, by simp [condJne, ← hzero]⟩
    · exact ⟨_, rfl, by simp [condJg, ← Bool.not_eq_true, hzero, hsign]; omega⟩
    · exact ⟨_, rfl, by simp [condJge, ← Bool.not_eq_true, hzero, hsign]; omega⟩
    · exact ⟨_, rfl, by simp [condJl, ← Bool.not_eq_true, hzero, hsign]; omega⟩
    · refine ⟨_, rfl, ?_⟩
      rw [hcfg]
      cases s.cfg.jleMode with
      | observed => simp [condJle, ← Bool.not_eq_true, hzero, hsign]; omega
      | intended => simp [condJle, hzero, hsign]; omega
  obtain ⟨taken, hexec, hiff⟩ := key
  obtain ⟨u, hjump, hip, -⟩ := jumpWhen_completes t taken addr
  refine ⟨u, hexec.trans hjump, fun hh => ?_, fun hn => ?_⟩
  · rw [hip, if_pos (hiff.2 hh)]
  · rw [hip, if_neg (mt hiff.1 hn)]

end Sys2Proof.Machine
end

section
/-! PROOF. The cases of the step contract (41_engine_step.md R133 to R137): which one a step takes, and what it
runs, from the state alone. -/

namespace Sys2Proof.Machine

section
variable {s : State} (hready : s.phase = .ready)
include hready

theorem step_of_ready : step s = s.runCase := by
  simp [step, hready]

theorem step_of_latched {f : Fault} (hfault : s.fault = some f) : step s = .fault f := by
  simp [step_of_ready hready, State.runCase, State.stepCase, hfault, raise]

theorem step_of_inProgress (hfault : s.fault = none) (hsysc : s.sysc = true) : step s = s.advance := by
  simp [step_of_ready hready, State.runCase, State.stepCase, hfault, hsysc]

theorem step_of_pending (hfault : s.fault = none) (hsysc : s.sysc = false) {msg : HostMsg}
    (herr : s.err = some msg) : step s = .fault (.syscallErr msg) := by
  simp [step_of_ready hready, State.runCase, State.stepCase, hfault, hsysc, herr, raise]

end

theorem State.stepCase_of_fetching {s : State} (hs : s.Fetching) : s.stepCase = .fetch := by
  obtain ⟨-, hfault, hsysc, herr⟩ := hs
  simp [State.stepCase, hfault, hsysc, herr]

theorem step_of_fetching {s : State} (hs : s.Fetching) : step s = s.fetchAndRun := by
  rw [step_of_ready hs.1]
  simp [State.runCase, State.stepCase_of_fetching hs]

/-- Settles O42. -/
theorem stepCasesArePrioritised : Obligations.StepCasesArePrioritised := by
  unfold Obligations.StepCasesArePrioritised
  intro s hready
  exact ⟨fun f hfault => step_of_latched hready hfault, step_of_inProgress hready,
    fun hfault hsysc msg herr => step_of_pending hready hfault hsysc herr,
    fun hfault hsysc herr => step_of_fetching ⟨hready, hfault, hsysc, herr⟩⟩

/-- Settles O43. -/
theorem stepRunsTheDecodedInstruction : Obligations.StepRunsTheDecodedInstruction := by
  unfold Obligations.StepRunsTheDecodedInstruction
  intro s i hs hdecode
  have hfetched : s.fetched = .ok i := hdecode
  rw [step_of_fetching hs]
  exact ⟨fun hadm => by simp [State.fetchAndRun, hfetched, hadm],
    fun hadm => by simp [State.fetchAndRun, hfetched, hadm]⟩

/-- Settles O45. -/
theorem fetchFaultsAreReported : Obligations.FetchFaultsAreReported := by
  unfold Obligations.FetchFaultsAreReported
  intro s op hs hop
  rw [step_of_fetching hs]
  refine ⟨fun hnone => ?_, fun m c hm hread => ?_⟩
  · have hfetched : s.fetched = .error (.opcode op) := decodeAt_of_no_handler hop hnone
    simp [State.fetchAndRun, hfetched, raise]
  · have hfetched : s.fetched = .error (.operand c) := decodeAt_of_operands_error hop hm hread
    simp [State.fetchAndRun, hfetched, raise]

/-! ## The default opcode map -/

/-- With both units registered the handler table is the default opcode map. -/
theorem lookup_bothUnits (op : Byte) : Table.lookup bothUnits op.toNat = mnemonicOf op := by
  revert op
  decide

/-- Decoding at an offset is decoding the buffer from that offset on. -/
theorem decodeAt_of_decode_drop {code : List Byte} {p : Nat} {i : Instr} (h : decode (code.drop p) = .ok i) :
    decodeAt mnemonicOf code p = .ok i := by
  obtain ⟨op, hop, hm, hbytes⟩ := decodeAt_eq_ok.1 h
  refine decodeAt_eq_ok.2 ⟨op, by simpa using hop, hm, by simpa [Nat.add_comm] using hbytes⟩

/-- Settles O44. -/
theorem stepRunsWhatDecodeReads : Obligations.StepRunsWhatDecodeReads := by
  unfold Obligations.StepRunsWhatDecodeReads
  intro s i hs hunits hip hdecode
  have hmap : s.handler = mnemonicOf := funext fun op => by rw [State.handler, hunits, lookup_bothUnits]
  have hadm : i.admitted s.cfg = true := by simp [Instr.admitted, hip]
  exact (stepRunsTheDecodedInstruction s i hs (hmap ▸ decodeAt_of_decode_drop hdecode)).1 hadm

end Sys2Proof.Machine
end

section
/-! PROOF. What an instruction, a resumption and a step can do to the state, said once each, and from it the rules
that hold of every instruction (10_state.md R30, R41, 70_reset_and_hazards.md R300) and the machine's invariant. -/

namespace Sys2Proof.Machine

/-! ## Every effect of an instruction -/

/-- The states an instruction can lead to before its last write of `Ip`, by what it writes besides registers and the
count of free values. -/
inductive Effect (i : Instr) (s : State) : State → Prop
  | registers (rs : Vector Word 16) (n : Nat) : Effect i s { s with regs := rs, draws := n }
  | compare (rs : Vector Word 16) (n : Nat) (zero sign : Bool) (hi : i.mnemonic = .cmp ∨ i.mnemonic = .cmpf)
      (hflags : ¬ (zero = true ∧ sign = true)) :
      Effect i s { s with regs := rs, draws := n, zero := zero, sign := sign }
  | store (rs : Vector Word 16) (a : Nat) (v : Word)
      (hi : i.mnemonic = .storei ∨ i.mnemonic = .store ∨ i.mnemonic = .push) (ha : a < s.memSize) :
      Effect i s { s with regs := rs, mem := s.mem.write a v }
  | call (rs : Vector Word 16) (g : Generator) (hi : i.mnemonic = .syscall) :
      Effect i s { s with regs := rs, gen := some g, sysc := true }

theorem not_cmpZero_and_cmpSign (a b : Word) : ¬ (cmpZero a b = true ∧ cmpSign a b = true) := by
  rintro ⟨hzero, hsign⟩
  have hlt := cmpSign_iff.1 hsign
  rw [cmpZero_iff.1 hzero] at hlt
  exact Nat.lt_irrefl _ hlt

theorem not_cmpfZero_and_cmpfSign (d : F32) : ¬ (cmpfZero d = true ∧ cmpfSign d = true) := by
  simp only [cmpfZero, cmpfSign, Bool.and_eq_true, beq_iff_eq, bne_iff_ne]
  exact fun h => h.2.2 h.1

/-- Taking up a binary32 result draws free values and does nothing else. -/
theorem State.exists_resolve_eq (s : State) (r : FloatResult) : ∃ n, (s.resolve r).2 = { s with draws := n } := by
  rcases s.resolve_cases r with ⟨f, -, h⟩ | ⟨-, h⟩ <;> rw [h] <;> exact ⟨_, rfl⟩

/-- An instruction that completes has one of the four effects and then writes `Ip`: unless it is a jump, with the
cursor after its operands (41_engine_step.md R137). -/
def Completes (i : Instr) (s t : State) : Prop :=
  ∃ u c, t = u.setReg .ip c ∧ Effect i s u ∧ (i.mnemonic.format ≠ .A → c = s.cursor (i.length - 1))

section
variable {i : Instr} {s t : State}

theorem completes_of_threeReg {op : Word → Word → Word} {d a b : Byte} (h : threeReg op d a b s = .next t)
    (hlen : i.length = 4) : Completes i s t := by
  obtain ⟨rd, ra, rb, -, -, -, rfl⟩ := threeReg_eq_next.1 h
  exact ⟨_, _, rfl, .registers _ _, fun _ => by rw [hlen]⟩

theorem completes_of_threeRegFloat {op : F32 → F32 → FloatResult} {d a b : Byte}
    (h : threeRegFloat op d a b s = .next t) (hlen : i.length = 4) : Completes i s t := by
  obtain ⟨rd, ra, rb, -, -, -, rfl⟩ := threeRegFloat_eq_next.1 h
  obtain ⟨n, hn⟩ := s.exists_resolve_eq (op (halfToFloat (s.reg ra)) (halfToFloat (s.reg rb)))
  rw [hn]
  exact ⟨_, _, rfl, .registers _ _, fun _ => by rw [hlen]⟩

theorem completes_of_jumpWhen {c : Bool} {addr : Word} (h : jumpWhen c addr s = .next t)
    (hformat : i.mnemonic.format = .A) : Completes i s t := by
  obtain rfl := jumpWhen_eq_next.1 h
  exact ⟨s, _, rfl, .registers s.regs s.draws, fun hne => absurd hformat hne⟩

theorem completes_of_exec (h : exec i s = .next t) : Completes i s t := by
  cases i with
  | loadi =>
    obtain ⟨_, -, rfl⟩ := execLoadi_eq_next.1 h
    exact ⟨_, _, rfl, .registers _ _, fun _ => rfl⟩
  | load =>
    obtain ⟨_, _, -, -, -, rfl⟩ := execLoad_eq_next.1 h
    exact ⟨_, _, rfl, .registers _ _, fun _ => rfl⟩
  | move =>
    obtain ⟨_, _, -, -, rfl⟩ := execMove_eq_next.1 h
    exact ⟨_, _, rfl, .registers _ _, fun _ => rfl⟩
  | pop =>
    obtain ⟨_, -, -, rfl⟩ := execPop_eq_next.1 h
    exact ⟨_, _, rfl, .registers _ _, fun _ => rfl⟩
  | div =>
    obtain ⟨_, _, _, -, -, -, -, rfl⟩ := execDiv_eq_next.1 h
    exact ⟨_, _, rfl, .registers _ _, fun _ => rfl⟩
  | add | sub | mul | and | or | xor => exact completes_of_threeReg h rfl
  | addf | subf | mulf | divf => exact completes_of_threeRegFloat h rfl
  | jmp | je | jne | jg | jge | jl | jle => exact completes_of_jumpWhen h rfl
  | storei =>
    obtain ⟨_, -, hin, rfl⟩ := execStorei_eq_next.1 h
    exact ⟨_, _, rfl, .store s.regs _ _ (.inl rfl) hin, fun _ => rfl⟩
  | store =>
    obtain ⟨_, _, -, -, hin, rfl⟩ := execStore_eq_next.1 h
    exact ⟨_, _, rfl, .store s.regs _ _ (.inr (.inl rfl)) hin, fun _ => rfl⟩
  | push =>
    obtain ⟨_, -, hin, rfl⟩ := execPush_eq_next.1 h
    exact ⟨_, _, rfl, .store _ _ _ (.inr (.inr rfl)) hin, fun _ => rfl⟩
  | cmp =>
    obtain ⟨_, _, -, -, rfl⟩ := execCmp_eq_next.1 h
    exact ⟨_, _, rfl, .compare s.regs s.draws _ _ (.inl rfl) (not_cmpZero_and_cmpSign _ _), fun _ => rfl⟩
  | cmpf =>
    obtain ⟨ra, rb, d, u, -, -, hu, rfl⟩ := execCmpf_eq_next.1 h
    obtain ⟨n, hn⟩ := s.exists_resolve_eq (f32Sub (halfToFloat (s.reg ra)) (halfToFloat (s.reg rb)))
    obtain rfl : u = { s with draws := n } := by rw [← hn, hu]
    exact ⟨_, _, rfl, .compare s.regs n _ _ (.inr rfl) (not_cmpfZero_and_cmpfSign _), fun _ => rfl⟩
  | syscall =>
    obtain ⟨_, -, rfl⟩ := execSyscall_eq_next.1 h
    exact ⟨_, _, rfl, .call s.regs _ rfl, fun _ => rfl⟩

end

/-! ## What holds of every instruction -/

/-- Settles O48: a handler answers a next state or a fault, and a jump a next state. -/
theorem noInstructionIsRefused : Obligations.NoInstructionIsRefused := by
  unfold Obligations.NoInstructionIsRefused
  intro i s r
  cases i with
  | jmp | je | jne | jg | jge | jl | jle => exact fun h => nomatch h
  | _ => exact outcome_ne_refused

/-- Settles O49. -/
theorem onlyComparesAndSyscallWriteFlags : Obligations.OnlyComparesAndSyscallWriteFlags := by
  unfold Obligations.OnlyComparesAndSyscallWriteFlags
  intro i s t h
  obtain ⟨u, c, rfl, heffect, -⟩ := completes_of_exec h
  cases heffect with
  | registers | store => exact ⟨fun _ _ => ⟨rfl, rfl⟩, fun _ => rfl⟩
  | compare rs n z sg hi =>
    refine ⟨fun hcmp hcmpf => ?_, fun _ => rfl⟩
    exact (hi.elim hcmp hcmpf).elim
  | call rs g hi => exact ⟨fun _ _ => ⟨rfl, rfl⟩, fun hne => absurd hi hne⟩

/-- Settles O51. -/
theorem onlyStoresWriteMemory : Obligations.OnlyStoresWriteMemory := by
  unfold Obligations.OnlyStoresWriteMemory
  intro i s t h hstorei hstore hpush
  obtain ⟨u, c, rfl, heffect, -⟩ := completes_of_exec h
  cases heffect with
  | registers | compare | call => rfl
  | store rs a v hi => exact (hi.elim hstorei fun hi => hi.elim hstore hpush).elim

/-- Settles O50. -/
theorem onlyJumpsChangeTheFlow : Obligations.OnlyJumpsChangeTheFlow := by
  unfold Obligations.OnlyJumpsChangeTheFlow
  intro i s t h hformat
  obtain ⟨u, c, rfl, -, hc⟩ := completes_of_exec h
  rw [hc hformat]
  exact State.reg_setReg_same _ _ _

/-! ## Every effect of a resumption (46_syscall.md R244) -/

theorem SameConfiguration.refl (s : State) : SameConfiguration s s := ⟨rfl, rfl, rfl, rfl, rfl, rfl, rfl, rfl⟩

theorem SameConfiguration.trans {s t u : State} (hst : SameConfiguration s t) (htu : SameConfiguration t u) :
    SameConfiguration s u := by
  obtain ⟨h1, h2, h3, h4, h5, h6, h7, h8⟩ := hst
  obtain ⟨k1, k2, k3, k4, k5, k6, k7, k8⟩ := htu
  exact ⟨k1.trans h1, k2.trans h2, k3.trans h3, k4.trans h4, k5.trans h5, k6.trans h6, k7.trans h7, k8.trans h8⟩

/-- What the accessor operations leave unchanged, and that they keep memory in canonical form. -/
structure HostConfined (s t : State) : Prop where
  regs : SameRegsExcept s t [.a0, .sp, .fp]
  flags : SameFlags s t
  config : SameConfiguration s t
  fault : t.fault = s.fault
  gen : t.gen = s.gen
  memory : Memory.wf s.memSize s.mem → Memory.wf t.memSize t.mem

theorem HostConfined.refl (s : State) : HostConfined s s :=
  ⟨fun _ _ => rfl, ⟨⟨rfl, rfl⟩, rfl⟩, .refl s, rfl, rfl, id⟩

theorem HostConfined.trans {s t u : State} (hst : HostConfined s t) (htu : HostConfined t u) : HostConfined s u := by
  obtain ⟨⟨hz, hn⟩, hc⟩ := hst.flags
  obtain ⟨⟨kz, kn⟩, kc⟩ := htu.flags
  exact ⟨fun r hr => (htu.regs r hr).trans (hst.regs r hr), ⟨⟨kz.trans hz, kn.trans hn⟩, kc.trans hc⟩,
    hst.config.trans htu.config, htu.fault.trans hst.fault, htu.gen.trans hst.gen, htu.memory ∘ hst.memory⟩

theorem HostConfined.of_setReg (s : State) {r : Reg} (hr : r ∈ [Reg.a0, .sp, .fp]) (v : Word) :
    HostConfined s (s.setReg r v) :=
  ⟨fun _ hq => State.reg_setReg_ne _ _ fun h => hq (h ▸ hr), ⟨⟨rfl, rfl⟩, rfl⟩, .refl s, rfl, rfl, id⟩

theorem HostConfined.of_memWrite {s : State} {a : Nat} (ha : a < s.memSize) (v : Word) :
    HostConfined s { s with mem := s.mem.write a v } :=
  ⟨fun _ _ => rfl, ⟨⟨rfl, rfl⟩, rfl⟩, .refl s, rfl, rfl, fun hwf => Memory.wf_write hwf ha v⟩

theorem HostConfined.of_access {s t : State} {op : AccessorOp} (h : s.access op = .ok t) : HostConfined s t := by
  rcases State.access_eq_ok h with rfl | ⟨v, rfl⟩ | ⟨msg, rfl⟩ | ⟨hin, rfl⟩ | ⟨v, rfl⟩
  · exact .refl _
  · exact .of_setReg s (by simp) v
  · exact ⟨fun _ _ => rfl, ⟨⟨rfl, rfl⟩, rfl⟩, .refl s, rfl, rfl, id⟩
  · exact ((HostConfined.of_memWrite hin _).trans (.of_setReg _ (by simp) _)).trans (.of_setReg _ (by simp) _)
  · exact (HostConfined.of_setReg s (by simp) _).trans (.of_setReg _ (by simp) v)

theorem HostConfined.of_accessAll {s t : State} {ops : List AccessorOp} (h : s.accessAll ops = .ok t) :
    HostConfined s t :=
  State.accessAll_induction (P := HostConfined s) (fun _ _ _ hop hs => hs.trans (.of_access hop)) h (.refl s)

/-- A resumption: its operations, in a state that differs from `s` by the draws, then its signal. -/
theorem State.resume_eq {s : State} {g g' : Generator} {r : Resumption} {n : Nat} (h : g.next s.draws = (r, g', n)) :
    s.resume g = { s with draws := n }.accessAll r.ops >>= fun u => u.afterSignal g' r.signal := by
  simp [State.resume, h]

/-- A signal ends the step well where it is `continue` or `done`. -/
theorem State.afterSignal_eq_ok {s t : State} {g : Generator} {sig : Signal} :
    s.afterSignal g sig = .ok t ↔
      (sig = .continue ∧ t = { s with gen := some g }) ∨ (sig = .done ∧ t = { s with gen := none, sysc := false }) := by
  cases sig <;> simp [State.afterSignal, eq_comm]

/-- A resumption that completes leaves what its operations have left, but for GEN and `sysc`: the call goes on with
the generator left, or it is over. -/
theorem State.resume_eq_ok {s t : State} {g : Generator} (h : s.resume g = .ok t) :
    ∃ u, { s with draws := (g.next s.draws).2.2 }.accessAll (g.next s.draws).1.ops = .ok u ∧
      (((g.next s.draws).1.signal = .continue ∧ t = { u with gen := some (g.next s.draws).2.1 }) ∨
        ((g.next s.draws).1.signal = .done ∧ t = { u with gen := none, sysc := false })) := by
  rw [State.resume_eq rfl] at h
  obtain ⟨u, hops, hsignal⟩ := except_bind_eq_ok.1 h
  exact ⟨u, hops, State.afterSignal_eq_ok.1 hsignal⟩

/-! ## Every effect of a step (41_engine_step.md R133) -/

/-- A fetch that completes halts or runs an instruction. -/
theorem State.fetchAndRun_eq_next {s t : State} (h : s.fetchAndRun = .next t) :
    t = s ∨ ∃ i, exec i (s.setIp (s.ip + 1)) = .next t := by
  unfold State.fetchAndRun at h
  split at h
  · exact .inl (Host.Outcome.next.inj h).symm
  · cases h
  · cases h
  · next i _ =>
    split at h
    · exact .inr ⟨i, h⟩
    · cases h

/-- A step that completes is a resumption, a halt or an instruction. -/
theorem step_eq_next {s t : State} (h : step s = .next t) :
    (∃ g, s.Resuming g ∧ s.resume g = .ok t) ∨ (s.Fetching ∧ t = s) ∨
      (s.Fetching ∧ ∃ i, exec i (s.setIp (s.ip + 1)) = .next t) := by
  have hready : s.phase = .ready := by
    cases hp : s.phase <;> simp_all [step]
  cases hfault : s.fault with
  | some f => simp [step_of_latched hready hfault] at h
  | none =>
  cases hsysc : s.sysc with
  | true =>
    rw [step_of_inProgress hready hfault hsysc, State.advance] at h
    cases hgen : s.gen with
    | none => simp [hgen] at h
    | some g =>
      rw [hgen] at h
      exact .inl ⟨g, ⟨hready, hfault, hsysc, hgen⟩, outcome_eq_next.1 h⟩
  | false =>
  cases herr : s.err with
  | some msg => simp [step_of_pending hready hfault hsysc herr] at h
  | none =>
    have hs : s.Fetching := ⟨hready, hfault, hsysc, herr⟩
    exact .inr ((State.fetchAndRun_eq_next (step_of_fetching hs ▸ h)).imp (⟨hs, ·⟩) (⟨hs, ·⟩))

/-! ## The invariant -/

theorem Completes.config {i : Instr} {s t : State} (h : Completes i s t) : SameConfiguration s t := by
  obtain ⟨u, c, rfl, heffect, -⟩ := h
  cases heffect <;> exact .refl s

/-- Settles O52. -/
theorem stepKeepsTheConfiguration : Obligations.StepKeepsTheConfiguration := by
  unfold Obligations.StepKeepsTheConfiguration
  intro s t h
  rcases step_eq_next h with ⟨g, -, hresume⟩ | ⟨-, rfl⟩ | ⟨-, i, hexec⟩
  · obtain ⟨u, hops, ⟨-, rfl⟩ | ⟨-, rfl⟩⟩ := State.resume_eq_ok hresume <;>
      exact (HostConfined.of_accessAll hops).config
  · exact .refl t
  · exact (completes_of_exec hexec).config

/-- What is left to prove of the invariant where the configuration is the same: the form of memory, that there is a
generator exactly when `sysc` is set, and that the compare flags are not both set. -/
theorem State.inv_of_sameConfiguration {s t : State} (hs : s.Inv) (hconfig : SameConfiguration s t)
    (hmem : Memory.wf t.memSize t.mem) (hgen : t.GenOk) (hflags : t.FlagsOk) : t.Inv := by
  obtain ⟨⟨hlo, hhi, -⟩, hbuffers, -, -, htables, hregnum⟩ := hs
  obtain ⟨-, -, hcfg, hhandlers, hsyscalls, hsize, hcode, hconsts⟩ := hconfig
  refine ⟨⟨by omega, by omega, hmem⟩, ?_, hgen, hflags, ?_, ?_⟩
  · simpa [State.BuffersOk, hcode, hconsts] using hbuffers
  · simpa only [State.TablesOk, hhandlers, hsyscalls] using htables
  · simpa only [State.RegnumOk, hcfg] using hregnum

theorem Completes.inv {i : Instr} {s t : State} (h : Completes i s t) (hs : s.Inv) : t.Inv := by
  refine s.inv_of_sameConfiguration hs h.config ?_ ?_ ?_ <;> obtain ⟨u, c, rfl, heffect, -⟩ := h <;>
    obtain ⟨⟨-, -, hmem⟩, -, hgen, hflags, -⟩ := hs
  · cases heffect with
    | registers | compare | call => exact hmem
    | store rs a v _ ha => exact Memory.wf_write hmem ha v
  · cases heffect with
    | registers | compare | store => exact hgen
    | call => rfl
  · cases heffect with
    | registers | store | call => exact hflags
    | compare rs n zero sign _ hne => exact hne

/-- Writing `Ip` keeps the invariant, which says nothing of registers. -/
theorem State.inv_setReg {s : State} (hs : s.Inv) (r : Reg) (v : Word) : (s.setReg r v).Inv := hs

/-- The operations of a resumption keep the invariant, and its signal sets `sysc` and GEN together. -/
theorem State.inv_of_resume {s t : State} {g : Generator} (hs : s.Inv) (hsysc : s.sysc = true)
    (h : s.resume g = .ok t) : t.Inv := by
  obtain ⟨u, hops, hsignal⟩ := State.resume_eq_ok h
  have hu := HostConfined.of_accessAll hops
  obtain ⟨⟨hzero, hsign⟩, hsysc'⟩ := hu.flags
  have hmem := hu.memory hs.1.2.2
  have hflags : u.FlagsOk := by
    obtain ⟨-, -, -, hflags, -⟩ := hs
    simpa only [State.FlagsOk, hzero, hsign] using hflags
  obtain ⟨-, rfl⟩ | ⟨-, rfl⟩ := hsignal
  · exact s.inv_of_sameConfiguration hs hu.config hmem (hsysc'.trans hsysc) hflags
  · exact s.inv_of_sameConfiguration hs hu.config hmem rfl hflags

/-- Settles O53: a step is a resumption, a halt or an instruction, and each keeps the invariant. -/
theorem stepKeepsTheInvariant : Obligations.StepKeepsTheInvariant := by
  unfold Obligations.StepKeepsTheInvariant
  intro s t hs h
  rcases step_eq_next h with ⟨g, ⟨-, -, hsysc, -⟩, hresume⟩ | ⟨-, rfl⟩ | ⟨-, i, hexec⟩
  · exact State.inv_of_resume hs hsysc hresume
  · exact hs
  · exact (completes_of_exec hexec).inv (State.inv_setReg hs _ _)

/-- Settles O54, by evaluating the reset state. -/
theorem resetMeetsTheInvariant : Obligations.ResetMeetsTheInvariant := by
  unfold Obligations.ResetMeetsTheInvariant
  decide

end Sys2Proof.Machine
end

section
/-! PROOF. SYSCALL, the accessor and the resumption (46_syscall.md, 41_engine_step.md R134): what each operation of
the accessor answers, and from it the statements about host functions. -/

namespace Sys2Proof.Machine

/-- Settles O36. -/
theorem syscallStartsItsHostFunction : Obligations.SyscallStartsItsHostFunction := by
  unfold Obligations.SyscallStartsItsHostFunction
  refine fun s id => ⟨fun fn hfn => ?_, fun hnone => ?_⟩
  · refine ⟨_, execSyscall_eq_next.2 ⟨fn, hfn, rfl⟩, rfl, rfl, State.reg_setReg_same _ _ _, fun r hr => ?_, ⟨rfl, rfl⟩,
      fun _ => rfl, .refl s, rfl, rfl, rfl⟩
    exact State.reg_setReg_ne _ _ (List.ne_of_not_mem_cons hr)
  · simp [exec, execSyscall, hnone]

/-! ## The resumption -/

theorem step_of_resuming {s : State} {g : Generator} (hs : s.Resuming g) : step s = outcome (s.resume g) := by
  obtain ⟨hready, hfault, hsysc, hgen⟩ := hs
  simp [step_of_inProgress hready hfault hsysc, State.advance, hgen]

/-- Settles O37. -/
theorem syscallStepFollowsTheSignal : Obligations.SyscallStepFollowsTheSignal := by
  unfold Obligations.SyscallStepFollowsTheSignal
  intro s g g' r n hs hnext
  rw [step_of_resuming hs, State.resume_eq hnext]
  refine ⟨fun u hu => ?_, fun f hf => by rw [hf]; rfl⟩
  rw [hu]
  refine ⟨fun hr => ?_, fun hr => ?_, fun msg hr => ?_⟩ <;> rw [hr] <;> rfl

/-- An operation that establishes no frame writes no memory. -/
theorem State.mem_of_access {s t : State} {op : AccessorOp} (h : s.access op = .ok t) (hop : op ≠ .establish) :
    t.mem = s.mem := by
  cases op with
  | establish => exact absurd rfl hop
  | readArg | readString =>
    obtain ⟨_, -, heq⟩ := except_bind_eq_ok.1 h
    cases heq
    rfl
  | setReturn | signalError =>
    cases h
    rfl
  | teardown =>
    obtain ⟨-, rfl⟩ := State.teardown_eq_ok.1 h
    rfl

theorem State.mem_of_accessAll {ops : List AccessorOp} {s t : State} (h : s.accessAll ops = .ok t)
    (hops : .establish ∉ ops) : t.mem = s.mem := by
  induction ops generalizing s with
  | nil =>
    cases h
    rfl
  | cons op ops ih =>
    obtain ⟨u, hop, hrest⟩ := except_bind_eq_ok.1 h
    simp only [List.mem_cons, not_or] at hops
    exact (ih hrest hops.2).trans (State.mem_of_access hop (Ne.symm hops.1))

/-- Reads of memory depend on MEM and its size alone. -/
theorem sameMemory_of_eq {s t : State} (hsize : t.memSize = s.memSize) (hmem : t.mem = s.mem) : SameMemory s t := by
  intro a
  simp [State.memRead, State.peek, hsize, hmem]

/-- Settles O38: its operations are confined one by one, and its signal touches `sysc` and GEN alone. -/
theorem hostFunctionsAreConfined : Obligations.HostFunctionsAreConfined := by
  unfold Obligations.HostFunctionsAreConfined
  intro s t g hs h
  obtain ⟨u, hops, hsignal⟩ := State.resume_eq_ok (outcome_eq_next.1 (step_of_resuming hs ▸ h))
  obtain ⟨hregs, ⟨hcompare, hsysc⟩, hconfig, hfault, -, -⟩ := HostConfined.of_accessAll hops
  obtain ⟨-, hnofault, hinprogress, -⟩ := hs
  have hip : u.reg .ip = s.reg .ip := hregs .ip (by decide)
  have hmem : .establish ∉ (g.next s.draws).1.ops → SameMemory s u := fun hno => by
    have hsame := State.mem_of_accessAll hops hno
    obtain ⟨-, -, -, -, -, hsize, -⟩ := hconfig
    exact sameMemory_of_eq hsize hsame
  obtain ⟨hcont, rfl⟩ | ⟨hdone, rfl⟩ := hsignal
  · exact ⟨hip, hcompare, hregs, hconfig, hfault.trans hnofault,
      iff_of_true (hsysc.trans hinprogress) hcont, hmem⟩
  · exact ⟨hip, hcompare, hregs, hconfig, hfault.trans hnofault,
      iff_of_false Bool.false_ne_true (by simp [hdone]), hmem⟩

/-! ## Frames (46_syscall.md R251, R252) -/

section
variable {s : State}

theorem State.access_establish_of_le (h : s.memSize ≤ (s.reg .sp).toNat) :
    s.access .establish = .error (.mem (s.reg .sp)) := by
  simp [State.access, State.establish, State.push_of_le h]

theorem State.access_teardown_of_le (h : s.memSize ≤ (s.reg .fp + 1).toNat) :
    s.access .teardown = .error (.mem (s.reg .fp + 1)) := by
  have hpop := State.pop_of_le (s := s.setReg .sp (s.reg .fp)) (by simpa using h)
  simp [State.access, State.teardown, hpop]

/-- Tearing down reads the word above `Fp`. -/
theorem State.access_teardown_of_memRead {v : Word} (h : s.memRead (s.reg .fp + 1) = .ok v) :
    s.access .teardown = .ok ((s.setReg .sp (s.reg .fp + 1)).setReg .fp v) := by
  obtain ⟨hin, rfl⟩ := State.memRead_eq_ok.1 h
  exact State.teardown_eq_ok.2 ⟨hin, rfl⟩

end

/-- Settles O40: a frame is a store at `Sp` and writes of `Sp` and `Fp`; torn down at once, it reads back what it
has stored. -/
theorem framesAreEstablishedAndTornDown : Obligations.FramesAreEstablishedAndTornDown := by
  unfold Obligations.FramesAreEstablishedAndTornDown
  intro s hs
  refine ⟨fun hin => ?_, State.access_establish_of_le, fun v hv => ?_, State.access_teardown_of_le⟩
  · obtain ⟨hread, hother⟩ := State.stored_memory hs hin (s.reg .fp)
    obtain ⟨hsp, hfp, hregs, hflags, -, hrest, -⟩ :=
      (s.stored (s.reg .sp) (s.reg .fp)).setReg_setReg_frame .sp .fp (s.reg .sp - 1) (s.reg .sp - 1)
    have hestablish := State.establish_eq_ok.2 ⟨hin, rfl⟩
    refine ⟨_, _, hestablish, hread, hother, hsp (by decide), hfp, hregs, hflags, hrest,
      State.access_teardown_of_memRead (v := s.reg .fp) ?_, fun r _ => ?_⟩
    · rw [State.reg_setReg_same, BitVec.sub_add_cancel]
      exact hread
    · simp only [State.reg_setReg, BitVec.sub_add_cancel, if_true]
      split
      · next h => rw [h]
      · split
        · next h => rw [h]
        · rfl
  · obtain ⟨hsp, hfp, hregs, hflags, hmem, hrest, -⟩ := s.setReg_setReg_frame .sp .fp (s.reg .fp + 1) v
    exact ⟨_, State.access_teardown_of_memRead hv, hsp (by decide), hfp, hregs, hflags, hmem, hrest⟩

/-! ## Reads (46_syscall.md R247, R248) -/

section
variable {s : State} {n v : Word} (hv : s.readArg n = .ok v)
include hv

theorem State.access_readArg_of_ok : s.access (.readArg n) = .ok s := by
  simp [State.access, hv]

theorem State.readString_of_readArg :
    s.readString n = s.constRead v.toNat >>= fun len => s.constReads (v.toNat + 1) len.toNat := by
  simp [State.readString, hv]

end

/-- Settles O41: the argument is one read of MEM, and the entry it designates a run of reads of CONST. -/
theorem accessorReadsAreBoundedAndPure : Obligations.AccessorReadsAreBoundedAndPure := by
  unfold Obligations.AccessorReadsAreBoundedAndPure
  rintro s n ⟨-, hconsts⟩
  refine ⟨fun v hv => ?_, fun hout => ?_⟩
  · have harg : s.readArg n = .ok v := hv
    have hstring := State.readString_of_readArg harg
    refine ⟨State.access_readArg_of_ok harg, fun len hlen hfits => ?_, fun len hlen hcut => ?_, fun hout => ?_⟩
    · obtain ⟨hlt, rfl⟩ := List.getElem?_eq_some_iff.1 hlen
      simp [State.access, hstring, State.constRead_of_lt hlt, State.constReads_eq (Nat.succ_le_of_lt hlt), hfits]
    · obtain ⟨hlt, rfl⟩ := List.getElem?_eq_some_iff.1 hlen
      refine ⟨BitVec.ofNat 16 s.consts.length, ?_, ?_⟩
      · rw [BitVec.toNat_ofNat]
        omega
      · simp [State.access, hstring, State.constRead_of_lt hlt, State.constReads_eq (Nat.succ_le_of_lt hlt),
          Nat.not_le_of_lt hcut]
    · simp [State.access, hstring, State.constRead_of_le hout]
  · have harg : s.readArg n = .error (.mem (s.reg .fp - n + 2)) := State.memRead_of_le hout
    simp [State.access, State.readString, harg]

end Sys2Proof.Machine
end

section
/-! PROOF. `StepRun` where it does not complete a step (41_engine_step.md R145, R146, 60_exceptions.md R261): HALT,
which changes nothing, and the latching of a failure. -/

namespace Sys2Proof.Machine

/-! ## HALT -/

section
variable {s : State} (hs : s.Fetching) (hip : s.code.length ≤ s.ip.toNat)
include hs hip

theorem step_of_halt : step s = .next s := by
  have hfetched : s.fetched = .error .noOpcode := decodeAt_of_length_le hip
  simp [step_of_fetching hs, State.fetchAndRun, hfetched]

theorem stepRun_of_halt : stepRun s = .value .halt { s with stepped := true } := by
  have hhalts : s.halts = true := by
    simp [State.halts, State.stepCase_of_fetching hs, State.ipOutside, show s.code.length ≤ (s.reg .ip).toNat from hip]
  simp [stepRun, step_of_halt hs hip, hhalts]

end

/-- Settles O46: `stepped` decides nothing, so the second call halts as the first; a write of `Ip` leaves the step in
the fetch case. -/
theorem haltIsIdempotent : Obligations.HaltIsIdempotent := by
  unfold Obligations.HaltIsIdempotent
  intro s hs hip
  refine ⟨step_of_halt hs hip, stepRun_of_halt hs hip, stepRun_of_halt (s := { s with stepped := true }) hs hip,
    fun id v hid hv => ?_⟩
  have hready : s.phase = .ready := hs.1
  have ht : (s.setReg .ip v).Fetching := hs
  refine ⟨_, setRegPort_of_regOf hready v hid, ht, ?_, State.reg_setReg_same _ _ _⟩
  simp [State.halts, State.stepCase_of_fetching ht, State.ipOutside, hv]

/-! ## A failing step -/

/-- What `StepRun` reports as a failure is a fault of the step, in an initialised engine. -/
theorem stepRun_eq_fail {s t : State} {f : Fault} (h : stepRun s = .value (.fail f) t) :
    s.phase = .ready ∧ step s = .fault f ∧ t = { s.failed f with stepped := true } := by
  unfold stepRun at h
  cases hstep : step s with
  | next u =>
    rw [hstep] at h
    cases hhalts : s.halts <;> simp [hhalts] at h
  | refused r => simp [hstep] at h
  | fault f' =>
    rw [hstep] at h
    simp only [Answer.value.injEq, Report.fail.injEq] at h
    obtain ⟨rfl, rfl⟩ := h
    refine ⟨?_, rfl, rfl⟩
    cases hp : s.phase <;> simp_all [step]

theorem State.stepCase_of_latched {s : State} {f : Fault} (hfault : s.fault = some f) : s.stepCase = .latched f := by
  simp [State.stepCase, hfault]

/-- A latched failure is reported again, and nothing but `stepped` changes. -/
theorem stepRun_of_latched {s : State} {f : Fault} (hready : s.phase = .ready) (hfault : s.fault = some f) :
    stepRun s = .value (.fail f) { s with stepped := true } := by
  simp [stepRun, step_of_latched hready hfault, State.failed, State.stepCase_of_latched hfault]

/-- The state a failing step leaves, in each of the four cases of R133. -/
theorem State.failed_cases {s : State} {f : Fault} (hready : s.phase = .ready) (hstep : step s = .fault f) :
    (s.fault = some f ∧ s.failed f = s) ∨
    (s.fault = none ∧ s.sysc = true ∧ s.failed f = s.afterFail f s.ip s.errAtFailure) ∨
    (s.fault = none ∧ s.sysc = false ∧ s.err ≠ none ∧ s.failed f = { s with fault := some f }) ∨
    (s.fault = none ∧ s.sysc = false ∧ s.err = none ∧ s.failed f = s.afterFail f (s.ip + 1) s.err) := by
  cases hfault : s.fault with
  | some f' =>
    obtain rfl : f' = f := Host.Outcome.fault.inj ((step_of_latched hready hfault).symm.trans hstep)
    simp [State.failed, State.stepCase_of_latched hfault]
  | none =>
  cases hsysc : s.sysc with
  | true => simp [State.failed, State.stepCase, hfault, hsysc]
  | false => cases herr : s.err <;> simp [State.failed, State.stepCase, hfault, hsysc, herr]

theorem State.failed_phase (s : State) (f : Fault) : (s.failed f).phase = s.phase := by
  unfold State.failed
  cases s.stepCase <;> rfl

/-- ERR where a resumption fails: what the operations before the failure have left, whether one of them fails or the
signal does. -/
theorem State.errAtFailure_eq {s u : State} {g g' : Generator} {r : Resumption} {n : Nat}
    {before after : List AccessorOp} (hgen : s.gen = some g) (hnext : g.next s.draws = (r, g', n))
    (hops : r.ops = before ++ after) (hbefore : { s with draws := n }.accessAll before = .ok u)
    (hafter : after = [] ∨ ∃ op more e, after = op :: more ∧ u.access op = .error e) : s.errAtFailure = u.err := by
  have herr : s.errAtFailure = { s with draws := n }.errAfter (before ++ after) := by
    simp [State.errAtFailure, hgen, hnext, hops]
  rw [herr]
  rcases hafter with rfl | ⟨op, more, e, rfl, hop⟩
  · rw [List.append_nil]
    exact State.errAfter_of_ok hbefore
  · exact State.errAfter_of_error hbefore hop

/-- Settles O47, by the four cases of a failing step. -/
theorem failingStepsLatch : Obligations.FailingStepsLatch := by
  unfold Obligations.FailingStepsLatch
  intro s t f h
  obtain ⟨hready, hstep, rfl⟩ := stepRun_eq_fail h
  have hcases := State.failed_cases hready hstep
  have hlatch : (s.failed f).fault = some f := by
    rcases hcases with ⟨hfault, heq⟩ | ⟨-, -, heq⟩ | ⟨-, -, -, heq⟩ | ⟨-, -, -, heq⟩ <;> rw [heq]
    · exact hfault
    all_goals rfl
  refine ⟨hlatch, stepRun_of_latched ((s.failed_phase f).trans hready) hlatch, ?_⟩
  rcases hcases with ⟨hfault, heq⟩ | ⟨hfault, hsysc, heq⟩ | ⟨hfault, hsysc, herr, heq⟩ | ⟨hfault, hsysc, herr, heq⟩ <;>
    rw [heq]
  · exact ⟨by simp [hfault], by simp [hfault], fun _ => rfl, by simp [hfault]⟩
  · exact ⟨fun _ => rfl, by simp [hsysc], by simp [hsysc],
      fun g g' r n before after u ⟨_, _, _, hgen⟩ => State.errAtFailure_eq hgen⟩
  · exact ⟨fun _ => hsysc, by simp [herr], fun _ => rfl, by simp [hsysc]⟩
  · exact ⟨fun _ => rfl, fun _ => s.afterFail_ip f (s.ip + 1) s.err, fun _ => rfl, by simp [hsysc]⟩

end Sys2Proof.Machine
end

section
/-! PROOF. Setup (41_engine_step.md R140 to R142, 46_syscall.md R241, 70_reset_and_hazards.md R290 to R293):
registration into the two tables, and `Init`. -/

namespace Sys2Proof.Machine

/-! ## Tables with a new key -/

section
variable {α : Type} {t : List (Nat × α)} {k : Nat} {v : α}

theorem Table.mem_of_lookup (h : Table.lookup t k = some v) : (k, v) ∈ t := by
  induction t with
  | nil => simp [Table.lookup] at h
  | cons e t ih =>
    simp only [Table.lookup] at h
    split at h
    · next hk =>
      cases h
      exact List.mem_cons.2 (.inl (by rw [hk]))
    · exact List.mem_cons_of_mem _ (ih h)

theorem Table.lookup_of_mem (ht : Table.Sorted t) (h : (k, v) ∈ t) : Table.lookup t k = some v := by
  induction t with
  | nil => simp at h
  | cons e t ih =>
    obtain ⟨hhead, htail⟩ := List.pairwise_cons.1 ht
    rcases List.mem_cons.1 h with rfl | hmem
    · simp [Table.lookup]
    · have hne : k ≠ e.1 := Nat.ne_of_gt (hhead _ hmem)
      simpa [Table.lookup, hne] using ih htail hmem

/-- Putting in a key that is not listed adds one entry. -/
theorem Table.insert_perm (h : Table.lookup t k = none) : (Table.insert t k v).Perm ((k, v) :: t) := by
  induction t with
  | nil => exact .refl _
  | cons e t ih =>
    simp only [Table.lookup] at h
    split at h
    · cases h
    · next hne =>
      simp only [Table.insert]
      split
      · exact .refl _
      · simpa only [hne, if_false] using ((ih h).cons e).trans (.swap _ _ _)

end

/-- A handler stands somewhere in the table just where some opcode byte has it. -/
theorem State.mem_handlers_iff {s : State} (hs : s.TablesOk) {h : Mnemonic} :
    h ∈ s.handlers.map Prod.snd ↔ ∃ o, s.handler o = some h := by
  obtain ⟨⟨hsorted, hkeys, -⟩, -⟩ := hs
  constructor
  · intro hmem
    obtain ⟨⟨k, m⟩, he, rfl⟩ := List.mem_map.1 hmem
    have hk : k % 2 ^ 8 = k := Nat.mod_eq_of_lt (hkeys _ he)
    refine ⟨BitVec.ofNat 8 k, ?_⟩
    rw [State.handler, BitVec.toNat_ofNat, hk]
    exact Table.lookup_of_mem hsorted he
  · rintro ⟨o, ho⟩
    exact List.mem_map.2 ⟨_, Table.mem_of_lookup ho, rfl⟩

/-! ## Registration -/

section
variable {s : State}

/-- Before the first `StepRun`, and unless setup or `Init` has failed, a registration is what it is. -/
theorem State.whenSetup_eq {α : Type} (hsetup : s.phase ≠ .setupFailed) (hinit : s.phase ≠ .initFailed)
    (hstepped : s.stepped = false) (k : Answer α) : s.whenSetup k = k := by
  unfold State.whenSetup
  cases hp : s.phase <;> simp_all

/-- A new handler under a new opcode byte keeps the tables' form. -/
theorem State.tablesOk_insert_handler (hs : s.TablesOk) {op : Byte} {h : Mnemonic} (hop : s.handler op = none)
    (hnew : h ∉ s.handlers.map Prod.snd) : { s with handlers := Table.insert s.handlers op.toNat h }.TablesOk := by
  obtain ⟨⟨hsorted, hkeys, hnodup⟩, hsyscalls⟩ := hs
  refine ⟨⟨Table.sorted_insert hsorted _ _, fun e he => ?_, ?_⟩, hsyscalls⟩
  · rcases Table.mem_insert he with rfl | he
    · exact op.isLt
    · exact hkeys e he
  · exact ((Table.insert_perm hop).map Prod.snd).nodup_iff.2 (List.nodup_cons.2 ⟨hnew, hnodup⟩)

theorem State.tablesOk_insert_syscall (hs : s.TablesOk) (id : Word) (fn : HostFn) :
    { s with syscalls := Table.insert s.syscalls id.toNat fn }.TablesOk := by
  obtain ⟨hhandlers, hsorted, hkeys⟩ := hs
  refine ⟨hhandlers, Table.sorted_insert hsorted _ _, fun e he => ?_⟩
  rcases Table.mem_insert he with rfl | he
  · exact id.isLt
  · exact hkeys e he

end

/-- Settles O55: an entry is put in only where the look-up gives none, and a look-up after a new entry differs at its
key alone. -/
theorem registeringNeverOverwrites : Obligations.RegisteringNeverOverwrites := by
  unfold Obligations.RegisteringNeverOverwrites
  intro s op h hsetup hinit hstepped hs
  have hgo : ∀ k : Answer Unit, s.whenSetup k = k := State.whenSetup_eq hsetup hinit hstepped
  refine ⟨fun hop hnew => ?_, fun m hm => ?_, fun o hop ho => ?_, fun id fn hid => ?_, fun id fn old hid => ?_⟩
  · have hmem : h ∉ s.handlers.map Prod.snd := fun hh => by
      obtain ⟨o, ho⟩ := (State.mem_handlers_iff hs).1 hh
      exact hnew o ho
    have hadd := addHandler_eq_ok.2 ⟨hop, hmem, rfl⟩
    refine ⟨{ s with handlers := Table.insert s.handlers op.toNat h }, ?_, ?_, fun other hne => ?_,
      State.tablesOk_insert_handler hs hop hmem⟩
    · rw [registerOpcode, hgo, hadd]
    · simp [State.handler, Table.lookup_insert]
    · simp [State.handler, Table.lookup_insert, BitVec.toNat_inj, hne]
  · have hadd := addHandler_eq_dup (h := h).2 ⟨⟨m, hm⟩, rfl⟩
    rw [registerOpcode, hgo, hadd]
  · have hmem : h ∈ s.handlers.map Prod.snd := (State.mem_handlers_iff hs).2 ⟨o, ho⟩
    have hadd : addHandler s.handlers op h = .error (.refused (.foreignHandler op)) := by
      rw [addHandler, show Table.lookup s.handlers op.toNat = none from hop]
      exact if_pos hmem
    rw [registerOpcode, hgo, hadd]
  · refine ⟨{ s with syscalls := Table.insert s.syscalls id.toNat fn }, ?_, ?_, fun other hne => ?_,
      State.tablesOk_insert_syscall hs id fn⟩
    · rw [registerSyscall, hgo, hid]
    · simp [State.hostFn, Table.lookup_insert]
    · simp [State.hostFn, Table.lookup_insert, BitVec.toNat_inj, hne]
  · rw [registerSyscall, hgo, hid]

/-- The machine a new engine with default parameters becomes when the table is `t`. -/
def withHandlers (t : List (Nat × Mnemonic)) : State := { State.constructed Params.default with handlers := t }

/-- The table with one unit registered under the default opcode map. -/
def unitTable (u : ExecUnit) : List (Nat × Mnemonic) :=
  (unitOpcodes u).foldl (fun t m => Table.insert t (opc m).toNat m) []

/-- A unit registers on a new engine with a table where all its opcodes are new. -/
theorem registerUnit_withHandlers {u : ExecUnit} {t t' : List (Nat × Mnemonic)}
    (h : addHandlers opc t (unitOpcodes u) = .ok t') :
    registerUnit opc u (withHandlers t) = .value () (withHandlers t') := by
  have hadd : addHandlers opc (withHandlers t).handlers (unitOpcodes u) = .ok t' := h
  rw [registerUnit, hadd]
  rfl

/-- A unit whose first opcode has an entry fails on it and ends setup. -/
theorem registerUnit_withHandlers_dup {u : ExecUnit} {t : List (Nat × Mnemonic)} {op : Byte}
    (h : addHandlers opc t (unitOpcodes u) = .error (.error (.dupOpcode op))) :
    registerUnit opc u (withHandlers t) = .error (.dupOpcode op) { withHandlers t with phase := .setupFailed } := by
  have hadd : addHandlers opc (withHandlers t).handlers (unitOpcodes u) = .error (.error (.dupOpcode op)) := h
  rw [registerUnit, hadd]
  rfl

theorem addHandlers_alu : addHandlers opc [] (unitOpcodes .alu) = .ok (unitTable .alu) := by rfl
theorem addHandlers_fpu : addHandlers opc [] (unitOpcodes .fpu) = .ok (unitTable .fpu) := by rfl
theorem addHandlers_alu_fpu : addHandlers opc (unitTable .alu) (unitOpcodes .fpu) = .ok bothUnits := by rfl
theorem addHandlers_fpu_alu : addHandlers opc (unitTable .fpu) (unitOpcodes .alu) = .ok bothUnits := by rfl
theorem addHandlers_alu_again : addHandlers opc bothUnits (unitOpcodes .alu) = .error (.error (.dupOpcode 0x00)) := by rfl
theorem addHandlers_fpu_again : addHandlers opc bothUnits (unitOpcodes .fpu) = .error (.error (.dupOpcode 0x09)) := by rfl

/-- Settles O56: what each registration makes of the table is evaluated. -/
theorem unitsFillTheHandlerTable : Obligations.UnitsFillTheHandlerTable := by
  unfold Obligations.UnitsFillTheHandlerTable
  refine ⟨withHandlers (unitTable .alu), withHandlers (unitTable .fpu), withHandlers bothUnits, withHandlers bothUnits,
    registerUnit_withHandlers addHandlers_alu, registerUnit_withHandlers addHandlers_alu_fpu,
    registerUnit_withHandlers addHandlers_fpu, registerUnit_withHandlers addHandlers_fpu_alu, rfl, rfl,
    lookup_bothUnits, ?_, registerUnit_withHandlers_dup addHandlers_alu_again,
    registerUnit_withHandlers_dup addHandlers_fpu_again⟩
  decide

/-! ## `Init` -/

section
variable {s : State} {m : List Byte} {n : Nat} (hsetup : s.phase ≠ .setupFailed) (hlo : 1 ≤ n) (hhi : n ≤ 65536)
include hsetup hlo hhi

theorem init_of_loaded {code : List Byte} {consts : List Word} (hm : loadModule m = .loaded code consts) :
    init m n s = .value () (s.initialised code consts n) := by
  simp [init, hsetup, hm, Nat.not_lt_of_le hhi, Nat.ne_of_gt hlo]

theorem init_of_malformed {e : ModuleError} (hm : loadModule m = .malformed e) :
    init m n s = .error (.badModule e) { s with phase := .initFailed } := by
  simp [init, hsetup, hm, Nat.not_lt_of_le hhi, Nat.ne_of_gt hlo]

end

/-- Settles O58. -/
theorem initGivesTheResetState : Obligations.InitGivesTheResetState := by
  unfold Obligations.InitGivesTheResetState
  intro s m n code consts hsetup hlo hhi hm
  have htop : (BitVec.ofNat 16 (n - 1)).toNat = n - 1 := by
    rw [BitVec.toNat_ofNat]
    omega
  refine ⟨_, init_of_loaded hsetup hlo hhi hm, rfl, htop, htop, fun r hsp hfp => ?_, rfl, rfl, rfl, rfl, rfl, rfl, rfl,
    fun a ha => State.memRead_eq_ok.2 ⟨ha, rfl⟩, rfl, rfl, rfl, rfl⟩
  cases r with
  | sp => exact absurd rfl hsp
  | fp => exact absurd rfl hfp
  | _ => rfl

/-- Settles O59. -/
theorem failedInitLeavesTheEngineUnusable : Obligations.FailedInitLeavesTheEngineUnusable := by
  unfold Obligations.FailedInitLeavesTheEngineUnusable
  intro s m n e hsetup hlo hhi hm
  exact ⟨_, init_of_malformed hsetup hlo hhi hm, rfl, fun _ _ => ⟨rfl, rfl⟩, fun _ _ => rfl, fun _ _ => rfl,
    fun _ _ => rfl, fun _ _ _ hm' => ⟨_, init_of_loaded (by simp) hlo hhi hm', rfl⟩⟩

/-- Settles O60: both units register (O56), and `Init` of the empty module gives the reset state. -/
theorem resetIsReachedBySetup : Obligations.ResetIsReachedBySetup := by
  unfold Obligations.ResetIsReachedBySetup
  exact ⟨withHandlers (unitTable .alu), withHandlers bothUnits, registerUnit_withHandlers addHandlers_alu,
    registerUnit_withHandlers addHandlers_alu_fpu,
    init_of_loaded (by decide) (by decide) (by decide) (show loadModule [] = .loaded [] [] from rfl)⟩

end Sys2Proof.Machine
end

section
/-! PROOF. The module loader (20_memory.md R62 to R64): what one section of a module does to the loading loop, and
from it what a module of at most two sections gives, and what one more section that is no section gives. -/

namespace Sys2Proof.Machine

/-! ## Payloads -/

theorem wordsOfBytes_bytesOfWords (ws : List Word) : wordsOfBytes (bytesOfWords ws) = ws := by
  induction ws with
  | nil => rfl
  | cons w ws ih =>
    calc wordsOfBytes (bytesOfWords (w :: ws))
      _ = wordOfBytes (loByte w) (hiByte w) :: wordsOfBytes (bytesOfWords ws) := rfl
      _ = w :: ws := by rw [ih, wordOfBytes_loByte_hiByte]

theorem length_bytesOfWords (ws : List Word) : (bytesOfWords ws).length = 2 * ws.length := by
  induction ws with
  | nil => rfl
  | cons w ws ih =>
    have hcons : (bytesOfWords (w :: ws)).length = (bytesOfWords ws).length + 2 := rfl
    rw [hcons, ih, List.length_cons]
    omega

theorem length_sectionBytes (tag : Byte) (payload : List Byte) :
    (sectionBytes tag payload).length = payload.length + 3 := by
  simp [sectionBytes]

/-! ## One section of the loop -/

section
variable {fuel : Nat} {payload rest : List Byte} {code : Option (List Byte)} {consts : Option (List Word)}

/-- The size field of a section holds the length of its payload. -/
theorem size_mod_eq (h : payload.length ≤ 65535) : payload.length % 65536 = payload.length :=
  Nat.mod_eq_of_lt (Nat.lt_succ_of_le h)

theorem loadSections_code (h : payload.length ≤ 65535) :
    loadSections (fuel + 1) (sectionBytes 1 payload ++ rest) none consts =
      loadSections fuel rest (some payload) consts := by
  simp [sectionBytes, loadSections, size_mod_eq h]

theorem loadSections_consts (h : payload.length ≤ 65535) (heven : payload.length % 2 = 0) :
    loadSections (fuel + 1) (sectionBytes 0 payload ++ rest) code none =
      loadSections fuel rest code (some (wordsOfBytes payload)) := by
  simp [sectionBytes, loadSections, size_mod_eq h, heven]

theorem loadSections_unknown {tag : Byte} (htag : 1 < tag.toNat) (h : payload.length ≤ 65535) :
    loadSections (fuel + 1) (sectionBytes tag payload ++ rest) code consts = .malformed (.unknownTag tag) := by
  have hne1 : tag ≠ 1#8 := fun he => by simp [he] at htag
  have hne0 : tag ≠ 0#8 := fun he => by simp [he] at htag
  simp [sectionBytes, loadSections, size_mod_eq h, hne1, hne0]

/-- A section cut short anywhere, in its header or in its payload. -/
theorem loadSections_truncated {tag : Byte} {n : Nat} (h : payload.length ≤ 65535) (hlo : 0 < n)
    (hhi : n < payload.length + 3) :
    loadSections fuel ((sectionBytes tag payload).take n) code consts = .malformed .truncated := by
  obtain ⟨n, rfl⟩ : ∃ k, n = k + 1 := ⟨n - 1, by omega⟩
  cases fuel with
  | zero => rfl
  | succ fuel =>
    match n with
    | 0 => rfl
    | 1 => rfl
    | n + 2 =>
      have hshort : min n payload.length < payload.length := by omega
      simp [sectionBytes, loadSections, size_mod_eq h, hshort]

end

/-! ## Modules of whole sections -/

/-- Whatever follows them, the sections leave the loop with this code and these constants filled, and with enough
fuel for what follows. -/
def LeadsTo (sections : List Byte) (code : Option (List Byte)) (consts : Option (List Word)) : Prop :=
  ∀ rest : List Byte, ∃ fuel, rest.length ≤ fuel ∧ loadModule (sections ++ rest) = loadSections fuel rest code consts

theorem LeadsTo.nil : LeadsTo [] none none := fun rest => ⟨rest.length, Nat.le_refl _, rfl⟩

section
variable {sections : List Byte} {code : Option (List Byte)} {consts : Option (List Word)} {payload : List Byte}

theorem LeadsTo.append_code (h : LeadsTo sections none consts) (hlen : payload.length ≤ 65535) :
    LeadsTo (sections ++ sectionBytes 1 payload) (some payload) consts := by
  intro rest
  obtain ⟨fuel, hfuel, hload⟩ := h (sectionBytes 1 payload ++ rest)
  rw [List.length_append, length_sectionBytes] at hfuel
  obtain ⟨fuel, rfl⟩ : ∃ k, fuel = k + 1 := ⟨fuel - 1, by omega⟩
  exact ⟨fuel, by omega, by rw [List.append_assoc, hload, loadSections_code hlen]⟩

theorem LeadsTo.append_consts {ws : List Word} (h : LeadsTo sections code none) (hlen : ws.length ≤ 32767) :
    LeadsTo (sections ++ sectionBytes 0 (bytesOfWords ws)) code (some ws) := by
  intro rest
  obtain ⟨fuel, hfuel, hload⟩ := h (sectionBytes 0 (bytesOfWords ws) ++ rest)
  rw [List.length_append, length_sectionBytes] at hfuel
  obtain ⟨fuel, rfl⟩ : ∃ k, fuel = k + 1 := ⟨fuel - 1, by omega⟩
  have hbytes := length_bytesOfWords ws
  refine ⟨fuel, by omega, ?_⟩
  rw [List.append_assoc, hload, loadSections_consts (by omega) (by omega), wordsOfBytes_bytesOfWords]

theorem LeadsTo.loaded (h : LeadsTo sections code consts) :
    loadModule sections = .loaded (code.getD []) (consts.getD []) := by
  obtain ⟨fuel, -, hload⟩ := h []
  rw [List.append_nil] at hload
  rw [hload]
  cases fuel <;> rfl

theorem LeadsTo.unknown (h : LeadsTo sections code consts) {tag : Byte} (htag : 1 < tag.toNat)
    (hlen : payload.length ≤ 65535) (rest : List Byte) :
    loadModule (sections ++ sectionBytes tag payload ++ rest) = .malformed (.unknownTag tag) := by
  obtain ⟨fuel, hfuel, hload⟩ := h (sectionBytes tag payload ++ rest)
  rw [List.length_append, length_sectionBytes] at hfuel
  obtain ⟨fuel, rfl⟩ : ∃ k, fuel = k + 1 := ⟨fuel - 1, by omega⟩
  rw [List.append_assoc, hload, loadSections_unknown htag hlen]

theorem LeadsTo.truncated (h : LeadsTo sections code consts) {tag : Byte} {n : Nat} (hlen : payload.length ≤ 65535)
    (hlo : 0 < n) (hhi : n < payload.length + 3) :
    loadModule (sections ++ (sectionBytes tag payload).take n) = .malformed .truncated := by
  obtain ⟨fuel, -, hload⟩ := h ((sectionBytes tag payload).take n)
  rw [hload, loadSections_truncated hlen hlo hhi]

end

/-- Settles O57: the five modules lead the loop to their contents, and the loop goes on from there. -/
theorem moduleLoadsItsSections : Obligations.ModuleLoadsItsSections := by
  unfold Obligations.ModuleLoadsItsSections
  intro code consts hcode hconsts sections code' consts' hmem
  have key : ∃ c k, LeadsTo sections c k ∧ c.getD [] = code' ∧ k.getD [] = consts' := by
    simp only [List.mem_cons, List.not_mem_nil, or_false, Prod.mk.injEq] at hmem
    rcases hmem with ⟨rfl, rfl, rfl⟩ | ⟨rfl, rfl, rfl⟩ | ⟨rfl, rfl, rfl⟩ | ⟨rfl, rfl, rfl⟩ | ⟨rfl, rfl, rfl⟩
    · exact ⟨_, _, .nil, rfl, rfl⟩
    · exact ⟨_, _, LeadsTo.nil.append_code hcode, rfl, rfl⟩
    · exact ⟨_, _, LeadsTo.nil.append_consts hconsts, rfl, rfl⟩
    · exact ⟨_, _, (LeadsTo.nil.append_consts hconsts).append_code hcode, rfl, rfl⟩
    · exact ⟨_, _, (LeadsTo.nil.append_code hcode).append_consts hconsts, rfl, rfl⟩
  obtain ⟨c, k, hleads, rfl, rfl⟩ := key
  exact ⟨hleads.loaded, fun tag payload rest htag hlen => hleads.unknown htag hlen rest,
    fun tag payload n hlen hlo hhi => hleads.truncated hlen hlo hhi⟩

end Sys2Proof.Machine
end

section
/-! PROOF. The Half converter as arithmetic (40_half_converter.md R100 to R110): every pattern is a sign and a
magnitude, the number its other bits make, and the classes, the values and both directions of the converter are told
by the magnitude. -/

namespace Sys2Proof.Machine

/-! ## Sign and magnitude of a pattern (R100, R103) -/

/-- Two bit vectors side by side, as a number. -/
theorem toNat_append_eq {m n : Nat} (x : BitVec m) (y : BitVec n) : (x ++ y).toNat = x.toNat * 2 ^ n + y.toNat := by
  rw [BitVec.toNat_append, ← Nat.shiftLeft_add_eq_or_of_lt y.isLt, Nat.shiftLeft_eq]

/-- The bits below the sign of a Half, as a number. -/
def Half.magnitude (h : Word) : Nat := (h.extractLsb' 0 15).toNat

/-- The bits below the sign of a binary32 pattern, as a number. -/
def F32.magnitude (f : F32) : Nat := (f.extractLsb' 0 31).toNat

section
variable (h : Word) (f : F32)

theorem Half.magnitude_lt : Half.magnitude h < 2 ^ 15 := (h.extractLsb' 0 15).isLt

theorem F32.magnitude_lt : F32.magnitude f < 2 ^ 31 := (f.extractLsb' 0 31).isLt

theorem Half.toNat_exp : (Half.exp h).toNat = Half.magnitude h / 2 ^ 10 := by
  simp only [Half.exp, Half.magnitude, BitVec.extractLsb'_toNat, Nat.shiftRight_eq_div_pow]
  omega

theorem Half.toNat_frac : (Half.frac h).toNat = Half.magnitude h % 2 ^ 10 := by
  simp only [Half.frac, Half.magnitude, BitVec.extractLsb'_toNat, Nat.shiftRight_eq_div_pow]
  omega

theorem F32.toNat_exp : (F32.exp f).toNat = F32.magnitude f / 2 ^ 23 := by
  simp only [F32.exp, F32.magnitude, BitVec.extractLsb'_toNat, Nat.shiftRight_eq_div_pow]
  omega

theorem F32.toNat_frac : (F32.frac f).toNat = F32.magnitude f % 2 ^ 23 := by
  simp only [F32.frac, F32.magnitude, BitVec.extractLsb'_toNat, Nat.shiftRight_eq_div_pow]
  omega

end

section
variable (s : Bool)

@[simp] theorem Half.sign_append (mag : BitVec 15) : Half.sign (BitVec.ofBool s ++ mag) = s :=
  calc (BitVec.ofBool s ++ mag).getLsbD 15
    _ = (BitVec.ofBool s).getLsbD 0 := BitVec.getLsbD_append
    _ = s := by simp

@[simp] theorem Half.magnitude_append (mag : BitVec 15) : Half.magnitude (BitVec.ofBool s ++ mag) = mag.toNat :=
  congrArg BitVec.toNat BitVec.extractLsb'_append_eq_right

@[simp] theorem Half.sign_make (e : BitVec 5) (m : BitVec 10) : Half.sign (Half.make s e m) = s := by
  rw [Half.make_eq_sign_append, Half.sign_append]

@[simp] theorem Half.magnitude_make (e : BitVec 5) (m : BitVec 10) :
    Half.magnitude (Half.make s e m) = e.toNat * 2 ^ 10 + m.toNat := by
  rw [Half.make_eq_sign_append, Half.magnitude_append, toNat_append_eq]

@[simp] theorem F32.sign_append (mag : BitVec 31) : F32.sign (BitVec.ofBool s ++ mag) = s :=
  calc (BitVec.ofBool s ++ mag).getLsbD 31
    _ = (BitVec.ofBool s).getLsbD 0 := BitVec.getLsbD_append
    _ = s := by simp

@[simp] theorem F32.magnitude_append (mag : BitVec 31) : F32.magnitude (BitVec.ofBool s ++ mag) = mag.toNat :=
  congrArg BitVec.toNat BitVec.extractLsb'_append_eq_right

@[simp] theorem F32.magnitude_make (e : BitVec 8) (m : BitVec 23) :
    F32.magnitude (F32.make s e m) = e.toNat * 2 ^ 23 + m.toNat := by
  have happend : F32.make s e m = BitVec.ofBool s ++ (e ++ m) := BitVec.append_assoc
  rw [happend, F32.magnitude_append, toNat_append_eq]

end

@[simp] theorem F32.make_fields (f : F32) : F32.make (F32.sign f) (F32.exp f) (F32.frac f) = f := by
  have hsign : BitVec.ofBool (F32.sign f) = f.extractLsb' 31 1 := by
    ext i hi
    obtain rfl : i = 0 := by omega
    simp [F32.sign]
  have hhigh : BitVec.ofBool (F32.sign f) ++ F32.exp f = f.extractLsb' 23 9 := by
    rw [hsign]
    exact BitVec.extractLsb'_append_extractLsb'_eq_extractLsb' rfl
  calc BitVec.ofBool (F32.sign f) ++ F32.exp f ++ F32.frac f
    _ = f.extractLsb' 23 9 ++ f.extractLsb' 0 23 := by rw [hhigh]; rfl
    _ = f := BitVec.extractLsb'_append_extractLsb'

/-! ## Classes by magnitude (R101, R103) -/

section
variable {h : Word} {f : F32}

theorem Half.isZero_iff : Half.isZero h = true ↔ Half.magnitude h = 0 := by
  simp only [Half.isZero, Bool.and_eq_true, beq_iff_eq, ← BitVec.toNat_inj, Half.toNat_exp, Half.toNat_frac,
    BitVec.ofNat_eq_ofNat, BitVec.toNat_ofNat]
  omega

theorem Half.isSubnormal_iff : Half.isSubnormal h = true ↔ 0 < Half.magnitude h ∧ Half.magnitude h < 2 ^ 10 := by
  simp only [Half.isSubnormal, Bool.and_eq_true, beq_iff_eq, bne_iff_ne, ne_eq, ← BitVec.toNat_inj, Half.toNat_exp,
    Half.toNat_frac, BitVec.ofNat_eq_ofNat, BitVec.toNat_ofNat]
  omega

theorem Half.isInf_iff : Half.isInf h = true ↔ Half.magnitude h = 31 * 2 ^ 10 := by
  have hlt := Half.magnitude_lt h
  simp only [Half.isInf, Bool.and_eq_true, beq_iff_eq, ← BitVec.toNat_inj, Half.toNat_exp, Half.toNat_frac,
    BitVec.ofNat_eq_ofNat, BitVec.toNat_ofNat]
  omega

theorem Half.isNaN_iff : Half.isNaN h = true ↔ 31 * 2 ^ 10 < Half.magnitude h := by
  have hlt := Half.magnitude_lt h
  simp only [Half.isNaN, Bool.and_eq_true, beq_iff_eq, bne_iff_ne, ne_eq, ← BitVec.toNat_inj, Half.toNat_exp,
    Half.toNat_frac, BitVec.ofNat_eq_ofNat, BitVec.toNat_ofNat]
  omega

theorem Half.exp_ne_max_iff : Half.exp h ≠ 31 ↔ Half.magnitude h < 31 * 2 ^ 10 := by
  have hlt := Half.magnitude_lt h
  simp only [ne_eq, ← BitVec.toNat_inj, Half.toNat_exp, BitVec.ofNat_eq_ofNat, BitVec.toNat_ofNat]
  omega

theorem F32.exp_eq_zero_iff : F32.exp f = 0 ↔ F32.magnitude f < 2 ^ 23 := by
  simp only [← BitVec.toNat_inj, F32.toNat_exp, BitVec.ofNat_eq_ofNat, BitVec.toNat_ofNat]
  omega

theorem F32.isZero_iff : F32.isZero f = true ↔ F32.magnitude f = 0 := by
  simp only [F32.isZero, Bool.and_eq_true, beq_iff_eq, ← BitVec.toNat_inj, F32.toNat_exp, F32.toNat_frac,
    BitVec.ofNat_eq_ofNat, BitVec.toNat_ofNat]
  omega

theorem F32.isInf_iff : F32.isInf f = true ↔ F32.magnitude f = 255 * 2 ^ 23 := by
  have hlt := F32.magnitude_lt f
  simp only [F32.isInf, Bool.and_eq_true, beq_iff_eq, ← BitVec.toNat_inj, F32.toNat_exp, F32.toNat_frac,
    BitVec.ofNat_eq_ofNat, BitVec.toNat_ofNat]
  omega

theorem F32.isNaN_iff : F32.isNaN f = true ↔ 255 * 2 ^ 23 < F32.magnitude f := by
  have hlt := F32.magnitude_lt f
  simp only [F32.isNaN, Bool.and_eq_true, beq_iff_eq, bne_iff_ne, ne_eq, ← BitVec.toNat_inj, F32.toNat_exp,
    F32.toNat_frac, BitVec.ofNat_eq_ofNat, BitVec.toNat_ofNat]
  omega

theorem F32.exp_ne_max_iff : F32.exp f ≠ 255 ↔ F32.magnitude f < 255 * 2 ^ 23 := by
  have hlt := F32.magnitude_lt f
  simp only [ne_eq, ← BitVec.toNat_inj, F32.toNat_exp, BitVec.ofNat_eq_ofNat, BitVec.toNat_ofNat]
  omega

end

/-! ## FloatToHalf on magnitudes (R105, R106) -/

/-- R106: the 13 low bits are dropped and, in the nearest-even mode, rounded. -/
def droppedMagnitude (mode : HalfRound) (n : Nat) : Nat :=
  match mode with
  | .trunc => n / 2 ^ 13
  | .rne => n / 2 ^ 13 + if 2 ^ 12 < n % 2 ^ 13 ∨ (n % 2 ^ 13 = 2 ^ 12 ∧ n / 2 ^ 13 % 2 = 1) then 1 else 0

theorem droppedMagnitude_bounds (mode : HalfRound) (n : Nat) :
    n / 2 ^ 13 ≤ droppedMagnitude mode n ∧ droppedMagnitude mode n ≤ n / 2 ^ 13 + 1 := by
  cases mode with
  | trunc => exact ⟨Nat.le_refl _, Nat.le_succ _⟩
  | rne =>
    simp only [droppedMagnitude]
    split <;> omega

theorem droppedMagnitude_mono (mode : HalfRound) {n n' : Nat} (h : n ≤ n') :
    droppedMagnitude mode n ≤ droppedMagnitude mode n' := by
  cases mode with
  | trunc => exact Nat.div_le_div_right h
  | rne =>
    simp only [droppedMagnitude]
    split <;> split <;> omega

/-- What `floatToHalf` makes of the magnitude of a pattern that is no NaN (R105). -/
def demotedMagnitude (mode : HalfRound) (n : Nat) : Nat :=
  if n < 113 * 2 ^ 23 then 0
  else if 143 * 2 ^ 23 ≤ n then 31 * 2 ^ 10
  else droppedMagnitude mode (n - 112 * 2 ^ 23)

/-- Below the range of the normal Halfs nothing is left; from there on a normal Half or the infinity is. -/
theorem demotedMagnitude_range (mode : HalfRound) (n : Nat) :
    (n < 113 * 2 ^ 23 ∧ demotedMagnitude mode n = 0) ∨
      (113 * 2 ^ 23 ≤ n ∧ 2 ^ 10 ≤ demotedMagnitude mode n ∧ demotedMagnitude mode n ≤ 31 * 2 ^ 10) := by
  have hbounds := droppedMagnitude_bounds mode (n - 112 * 2 ^ 23)
  unfold demotedMagnitude
  split
  · exact .inl ⟨by omega, rfl⟩
  · refine .inr ⟨by omega, ?_⟩
    split <;> omega

theorem demotedMagnitude_mono (mode : HalfRound) {n n' : Nat} (h : n ≤ n') :
    demotedMagnitude mode n ≤ demotedMagnitude mode n' := by
  have hrange := demotedMagnitude_range mode n
  have hrange' := demotedMagnitude_range mode n'
  have hmono := droppedMagnitude_mono mode (Nat.sub_le_sub_right h (112 * 2 ^ 23))
  rcases Nat.lt_or_ge n (113 * 2 ^ 23) with hlo | hlo
  · omega
  · rcases Nat.lt_or_ge n' (143 * 2 ^ 23) with hhi | hhi
    · rw [demotedMagnitude, demotedMagnitude, if_neg (show ¬ n < 113 * 2 ^ 23 by omega),
        if_neg (show ¬ 143 * 2 ^ 23 ≤ n by omega), if_neg (show ¬ n' < 113 * 2 ^ 23 by omega),
        if_neg (show ¬ 143 * 2 ^ 23 ≤ n' by omega)]
      exact hmono
    · have hinf : demotedMagnitude mode n' = 31 * 2 ^ 10 := by
        rw [demotedMagnitude, if_neg (show ¬ n' < 113 * 2 ^ 23 by omega), if_pos hhi]
      omega

theorem toNat_roundUp (d : BitVec 13) (mag : BitVec 15) :
    (roundUp d mag).toNat = if 2 ^ 12 < d.toNat ∨ (d.toNat = 2 ^ 12 ∧ mag.toNat % 2 = 1) then 1 else 0 := by
  have hbit : mag.getLsbD 0 = decide (mag.toNat % 2 = 1) := by
    rw [← BitVec.testBit_toNat, Nat.testBit_zero]
  unfold roundUp
  simp only [hbit, decide_eq_true_eq]
  rw [apply_ite BitVec.toNat]
  rfl

section
variable {f : F32} (mode : HalfRound)

/-- In the range of the normal Halfs the exponent is rebiased and the fraction's low 13 bits are rounded away; a carry
out of the fraction raises the exponent, to that of the infinity at most. -/
theorem floatToHalf_of_mid (hlo : 112 < (F32.exp f).toNat) (hhi : (F32.exp f).toNat < 143) :
    ∃ mag : BitVec 15, floatToHalf mode f = BitVec.ofBool (F32.sign f) ++ mag ∧
      mag.toNat = droppedMagnitude mode (F32.magnitude f - 112 * 2 ^ 23) := by
  have hexp := F32.toNat_exp f
  have hfrac := F32.toNat_frac f
  have hkept : (BitVec.ofNat 5 ((F32.exp f).toNat - 112) ++ (F32.frac f).extractLsb' 13 10).toNat =
      (F32.magnitude f - 112 * 2 ^ 23) / 2 ^ 13 := by
    rw [toNat_append_eq, BitVec.toNat_ofNat, BitVec.extractLsb'_toNat, Nat.shiftRight_eq_div_pow]
    omega
  have hdropped : ((F32.frac f).extractLsb' 0 13).toNat = (F32.magnitude f - 112 * 2 ^ 23) % 2 ^ 13 := by
    rw [BitVec.extractLsb'_toNat, Nat.shiftRight_zero]
    omega
  cases mode with
  | trunc =>
    refine ⟨_, ?_, hkept⟩
    simp [floatToHalf, show (F32.exp f).toNat ≠ 255 by omega, show ¬ (F32.exp f).toNat ≤ 112 by omega,
      show ¬ 143 ≤ (F32.exp f).toNat by omega]
  | rne =>
    refine ⟨BitVec.ofNat 5 ((F32.exp f).toNat - 112) ++ (F32.frac f).extractLsb' 13 10 +
      roundUp ((F32.frac f).extractLsb' 0 13)
        (BitVec.ofNat 5 ((F32.exp f).toNat - 112) ++ (F32.frac f).extractLsb' 13 10), ?_, ?_⟩
    · simp [floatToHalf, show (F32.exp f).toNat ≠ 255 by omega, show ¬ (F32.exp f).toNat ≤ 112 by omega,
        show ¬ 143 ≤ (F32.exp f).toNat by omega]
    · rw [BitVec.toNat_add, toNat_roundUp, hkept, hdropped]
      have hbounds := droppedMagnitude_bounds .rne (F32.magnitude f - 112 * 2 ^ 23)
      exact Nat.mod_eq_of_lt (show droppedMagnitude .rne (F32.magnitude f - 112 * 2 ^ 23) < 2 ^ 15 by omega)

/-- Beyond the range of the normal Halfs the result is the infinity (R105). -/
theorem floatToHalf_of_exp_ge (hlo : 143 ≤ (F32.exp f).toNat) (hhi : (F32.exp f).toNat < 255) :
    floatToHalf mode f = Half.make (F32.sign f) 31 0 := by
  simp [floatToHalf, show (F32.exp f).toNat ≠ 255 by omega, show ¬ (F32.exp f).toNat ≤ 112 by omega, hlo]

/-- The sign is copied, and the magnitude is demoted where the pattern is no NaN. -/
theorem floatToHalf_of_not_isNaN (hf : F32.isNaN f = false) :
    Half.sign (floatToHalf mode f) = F32.sign f ∧
      Half.magnitude (floatToHalf mode f) = demotedMagnitude mode (F32.magnitude f) := by
  have hexp := F32.toNat_exp f
  have hnan : F32.magnitude f ≤ 255 * 2 ^ 23 := by
    rw [← Bool.not_eq_true, F32.isNaN_iff] at hf
    omega
  unfold demotedMagnitude
  rcases Nat.lt_or_ge 112 (F32.exp f).toNat with hlo | hlo
  · rcases Nat.lt_or_ge (F32.exp f).toNat 143 with hhi | hhi
    · obtain ⟨mag, hmag, hval⟩ := floatToHalf_of_mid mode hlo hhi
      rw [hmag, Half.sign_append, Half.magnitude_append, hval, if_neg (by omega), if_neg (by omega)]
      exact ⟨rfl, rfl⟩
    · have hinf : floatToHalf mode f = Half.make (F32.sign f) 31 0 := by
        rcases Nat.lt_or_ge (F32.exp f).toNat 255 with hmax | hmax
        · exact floatToHalf_of_exp_ge mode hhi hmax
        · exact floatToHalf_of_isInf mode (F32.isInf_iff.2 (by omega))
      rw [hinf, Half.sign_make, Half.magnitude_make, if_neg (by omega), if_pos (by omega)]
      exact ⟨rfl, rfl⟩
  · rw [floatToHalf_of_exp_le mode hlo, Half.sign_make, Half.magnitude_make, if_pos (by omega)]
    exact ⟨rfl, rfl⟩

/-- A NaN gives a NaN of its sign: its payload, or 0x200 where the kept bits are 0. -/
theorem floatToHalf_isNaN_of_isNaN (hf : F32.isNaN f = true) :
    Half.sign (floatToHalf mode f) = F32.sign f ∧ Half.isNaN (floatToHalf mode f) = true := by
  have hmake : ∃ p : BitVec 10, floatToHalf mode f = Half.make (F32.sign f) 31 p ∧ p ≠ 0 := by
    by_cases hp : (F32.frac f).extractLsb' 13 10 = 0
    · refine ⟨0x200, ?_, by decide⟩
      simp_all [floatToHalf, F32.isNaN]
    · exact ⟨_, floatToHalf_of_isNaN mode hf hp, hp⟩
  obtain ⟨p, hp, hne⟩ := hmake
  have hpos : 0 < p.toNat := Nat.pos_of_ne_zero fun h0 => hne (BitVec.eq_of_toNat_eq h0)
  refine ⟨by rw [hp, Half.sign_make], Half.isNaN_iff.2 ?_⟩
  rw [hp, Half.magnitude_make]
  exact Nat.lt_add_of_pos_right hpos

end

/-- Settles O25: a NaN gives a NaN, and a demoted magnitude is 0 or lies between the smallest normal Half and the
infinity. -/
theorem floatToHalfKeepsSignAndClass : Obligations.FloatToHalfKeepsSignAndClass := by
  unfold Obligations.FloatToHalfKeepsSignAndClass
  intro mode f
  have hexp := F32.toNat_exp f
  cases hnan : F32.isNaN f with
  | true =>
    obtain ⟨hsign, hisnan⟩ := floatToHalf_isNaN_of_isNaN mode hnan
    have hmag := Half.isNaN_iff.1 hisnan
    have hbig := F32.isNaN_iff.1 hnan
    refine ⟨hsign, ?_, hisnan, fun hinf => ?_, fun hle => ?_⟩
    · rw [← Bool.not_eq_true, Half.isSubnormal_iff]
      omega
    · have := F32.isInf_iff.1 hinf
      omega
    · omega
  | false =>
    obtain ⟨hsign, hmag⟩ := floatToHalf_of_not_isNaN mode hnan
    have hrange := demotedMagnitude_range mode (F32.magnitude f)
    refine ⟨hsign, ?_, ?_, fun hinf => ?_, fun hle => ?_⟩
    · rw [← Bool.not_eq_true, Half.isSubnormal_iff, hmag]
      omega
    · rw [← Bool.not_eq_true, Half.isNaN_iff, hmag]
      omega
    · rw [Half.isInf_iff, hmag, F32.isInf_iff.1 hinf]
      rfl
    · rw [Half.isZero_iff, hmag]
      omega

/-- Settles O26: the magnitude of the result is a monotonic function of that of the input, and 0 for 0. -/
theorem floatToHalfIsMonotonic : Obligations.FloatToHalfIsMonotonic := by
  unfold Obligations.FloatToHalfIsMonotonic
  intro mode f g hf hg hle
  obtain ⟨hfs, hfm⟩ := floatToHalf_of_not_isNaN mode hf
  obtain ⟨hgs, hgm⟩ := floatToHalf_of_not_isNaN mode hg
  have hzero : demotedMagnitude mode 0 = 0 := rfl
  rw [← F32.magnitude, ← F32.magnitude] at hle
  rw [← Half.magnitude, ← Half.magnitude, hfs, hgs, hfm, hgm]
  cases hsf : F32.sign f <;> cases hsg : F32.sign g <;> simp only [hsf, hsg, if_true, Bool.false_eq_true, if_false] at hle ⊢
  · have := demotedMagnitude_mono mode (Int.ofNat_le.1 hle)
    omega
  · have hf0 : F32.magnitude f = 0 := by omega
    have hg0 : F32.magnitude g = 0 := by omega
    rw [hf0, hg0, hzero]
    decide
  · omega
  · have := demotedMagnitude_mono mode (show F32.magnitude g ≤ F32.magnitude f by omega)
    omega

end Sys2Proof.Machine
end

section
/-! PROOF. The numbers patterns stand for (40_half_converter.md R102, R103, R108, R109): a sign and a size each, what
`halfToFloat` makes of the size, and that truncation does not raise it. -/

namespace Sys2Proof.Machine

/-! ## Signed sizes -/

/-- The integer of a sign and a size. -/
def signed (s : Bool) (n : Nat) : Int := (if s then -1 else 1) * (n : Int)

@[simp] theorem natAbs_signed (s : Bool) (n : Nat) : (signed s n).natAbs = n := by
  cases s <;> simp [signed]

theorem signed_mul_signed (s s' : Bool) (n n' : Nat) : signed s n * signed s' n' = signed (s ^^ s') (n * n') := by
  cases s <;> cases s' <;> simp [signed]

theorem signed_mul_natCast (s : Bool) (n k : Nat) : signed s n * (k : Int) = signed s (n * k) := by
  simp [signed]

/-- The size of a finite Half in units of 2^-24 (R102). -/
def Half.size (h : Word) : Nat :=
  if Half.exp h = 0 then (Half.frac h).toNat else (1024 + (Half.frac h).toNat) * 2 ^ ((Half.exp h).toNat - 1)

/-- The size of a finite binary32 pattern in units of 2^-149 (R103). -/
def F32.size (f : F32) : Nat := F32.mant f * 2 ^ F32.scale f

theorem Half.value_eq (h : Word) : Half.value h = signed (Half.sign h) (Half.size h) := rfl

theorem F32.value_eq (f : F32) : F32.value f = signed (F32.sign f) (F32.size f) := rfl

section
variable {h : Word} {f : F32}

theorem Half.exp_ne_zero_of_pos (hpos : 0 < (Half.exp h).toNat) : Half.exp h ≠ 0 := fun h0 => by
  rw [h0] at hpos
  exact Nat.lt_irrefl _ hpos

theorem F32.exp_ne_zero_of_pos (hpos : 0 < (F32.exp f).toNat) : F32.exp f ≠ 0 := fun h0 => by
  rw [h0] at hpos
  exact Nat.lt_irrefl _ hpos

theorem Half.size_of_exp_eq_zero (he : Half.exp h = 0) : Half.size h = (Half.frac h).toNat := if_pos he

theorem Half.size_of_exp_ne_zero (he : Half.exp h ≠ 0) :
    Half.size h = (1024 + (Half.frac h).toNat) * 2 ^ ((Half.exp h).toNat - 1) := if_neg he

theorem F32.size_of_exp_eq_zero (he : F32.exp f = 0) : F32.size f = (F32.frac f).toNat := by
  simp [F32.size, F32.mant, F32.scale, he]

theorem F32.size_of_exp_ne_zero (he : F32.exp f ≠ 0) :
    F32.size f = (2 ^ 23 + (F32.frac f).toNat) * 2 ^ ((F32.exp f).toNat - 1) := by
  simp only [F32.size, F32.mant, F32.scale, if_neg he]

theorem Half.size_eq_zero_iff : Half.size h = 0 ↔ Half.isZero h = true := by
  simp only [Half.isZero, Bool.and_eq_true, beq_iff_eq]
  by_cases he : Half.exp h = 0
  · simp [Half.size_of_exp_eq_zero he, he, ← BitVec.toNat_inj]
  · rw [Half.size_of_exp_ne_zero he]
    exact iff_of_false (Nat.ne_of_gt (by positivity)) fun hzero => he hzero.1

theorem F32.size_eq_zero_iff : F32.size f = 0 ↔ F32.isZero f = true := by
  simp only [F32.isZero, Bool.and_eq_true, beq_iff_eq]
  by_cases he : F32.exp f = 0
  · simp [F32.size_of_exp_eq_zero he, he, ← BitVec.toNat_inj]
  · rw [F32.size_of_exp_ne_zero he]
    exact iff_of_false (Nat.ne_of_gt (by positivity)) fun hzero => he hzero.1

/-- A pattern is its sign and its magnitude. -/
theorem Half.ext {k : Word} (hs : Half.sign h = Half.sign k) (hm : Half.magnitude h = Half.magnitude k) : h = k := by
  have he : Half.exp h = Half.exp k := BitVec.eq_of_toNat_eq (by rw [Half.toNat_exp, Half.toNat_exp, hm])
  have hf : Half.frac h = Half.frac k := BitVec.eq_of_toNat_eq (by rw [Half.toNat_frac, Half.toNat_frac, hm])
  rw [← Half.make_fields h, ← Half.make_fields k, hs, he, hf]

theorem exp_ne_max_of_isSubnormal (hh : Half.isSubnormal h = true) : Half.exp h ≠ 31 := by
  rw [Half.exp_ne_max_iff]
  have hrange := Half.isSubnormal_iff.1 hh
  omega

theorem size_of_isSubnormal (hh : Half.isSubnormal h = true) : Half.size h = Half.magnitude h := by
  have hrange := Half.isSubnormal_iff.1 hh
  have he : Half.exp h = 0 := BitVec.eq_of_toNat_eq ((Half.toNat_exp h).trans (Nat.div_eq_of_lt hrange.2))
  rw [Half.size_of_exp_eq_zero he, Half.toNat_frac]
  exact Nat.mod_eq_of_lt hrange.2

theorem F32.ext {g : F32} (hs : F32.sign f = F32.sign g) (hm : F32.magnitude f = F32.magnitude g) : f = g := by
  have he : F32.exp f = F32.exp g := BitVec.eq_of_toNat_eq (by rw [F32.toNat_exp, F32.toNat_exp, hm])
  have hf : F32.frac f = F32.frac g := BitVec.eq_of_toNat_eq (by rw [F32.toNat_frac, F32.toNat_frac, hm])
  rw [← F32.make_fields f, ← F32.make_fields g, hs, he, hf]

/-! ## HalfToFloat is exact (R108) -/

/-- The normalised fraction of a subnormal Half: its highest 1 bit becomes the leading bit of the significand. -/
theorem toNat_normalised_frac (hh : Half.isSubnormal h = true) :
    2 ^ 23 + ((Half.frac h).setWidth 23 <<< (23 - Nat.log2 (Half.frac h).toNat)).toNat =
      (Half.frac h).toNat * 2 ^ (23 - Nat.log2 (Half.frac h).toNat) ∧ Nat.log2 (Half.frac h).toNat ≤ 9 := by
  have hne : (Half.frac h).toNat ≠ 0 := by
    have hmag := Half.isSubnormal_iff.1 hh
    rw [Half.toNat_frac]
    omega
  have hlog : Nat.log2 (Half.frac h).toNat ≤ 9 := Nat.le_of_lt_succ ((Nat.log2_lt hne).2 (Half.frac h).isLt)
  have hlo := Nat.mul_le_mul_right (2 ^ (23 - Nat.log2 (Half.frac h).toNat)) (Nat.log2_self_le hne)
  have hhi := (Nat.mul_lt_mul_right (Nat.two_pow_pos (23 - Nat.log2 (Half.frac h).toNat))).2
    (Nat.lt_log2_self (n := (Half.frac h).toNat))
  have hpow : 2 ^ Nat.log2 (Half.frac h).toNat * 2 ^ (23 - Nat.log2 (Half.frac h).toNat) = 2 ^ 23 := by
    rw [← Nat.pow_add]
    congr 1
    omega
  rw [Nat.pow_succ, Nat.mul_right_comm, hpow] at hhi
  rw [hpow] at hlo
  refine ⟨?_, hlog⟩
  have hsmall : (Half.frac h).toNat % 2 ^ 23 = (Half.frac h).toNat := by
    have := (Half.frac h).isLt
    omega
  rw [BitVec.toNat_shiftLeft, BitVec.toNat_setWidth, hsmall, Nat.shiftLeft_eq]
  omega

theorem exp_halfToFloat_of_isSubnormal (hh : Half.isSubnormal h = true) :
    (F32.exp (halfToFloat h)).toNat = 103 + Nat.log2 (Half.frac h).toNat := by
  obtain ⟨-, hlog⟩ := toNat_normalised_frac hh
  rw [halfToFloat_of_isSubnormal hh, F32.exp_make, BitVec.toNat_ofNat]
  omega

theorem sign_halfToFloat (h : Word) : F32.sign (halfToFloat h) = Half.sign h := by
  unfold halfToFloat
  simp only []
  split
  · split <;> exact F32.sign_make _ _ _
  · split <;> exact F32.sign_make _ _ _

/-- The finite classes (R101). -/
theorem Half.finite_cases (he : Half.exp h ≠ 31) :
    Half.isZero h = true ∨ Half.isSubnormal h = true ∨ Half.isNormal h = true := by
  cases hsub : Half.isSubnormal h with
  | true => exact .inr (.inl rfl)
  | false => 
    rcases Half.classes_of_not_isSubnormal hsub with hzero | hnormal | hmax
    · exact .inl hzero
    · exact .inr (.inr hnormal)
    · exact absurd hmax he

theorem size_halfToFloat (he : Half.exp h ≠ 31) : F32.size (halfToFloat h) = Half.size h * 2 ^ 125 := by
  rcases Half.finite_cases he with hzero | hsub | hnormal
  · rw [Half.size_eq_zero_iff.2 hzero, halfToFloat_of_isZero hzero]
    exact F32.size_eq_zero_iff.2 (by simp [F32.isZero])
  · obtain ⟨hfrac, hlog⟩ := toNat_normalised_frac hsub
    have hexp := exp_halfToFloat_of_isSubnormal hsub
    have hne : F32.exp (halfToFloat h) ≠ 0 := F32.exp_ne_zero_of_pos (by omega)
    have he0 : Half.exp h = 0 := by
      simp only [Half.isSubnormal, Bool.and_eq_true, beq_iff_eq] at hsub
      exact hsub.1
    rw [F32.size_of_exp_ne_zero hne, hexp, Half.size_of_exp_eq_zero he0]
    rw [halfToFloat_of_isSubnormal hsub, F32.frac_make, hfrac, Nat.mul_assoc, ← Nat.pow_add]
    congr 2
    omega
  · have hexp := toNat_exp_halfToFloat_of_isNormal hnormal
    have hne : F32.exp (halfToFloat h) ≠ 0 := F32.exp_ne_zero_of_pos (by omega)
    have hne' : Half.exp h ≠ 0 := by
      simp only [Half.isNormal, Bool.and_eq_true, bne_iff_ne] at hnormal
      exact hnormal.1
    have hpos : 0 < (Half.exp h).toNat := Nat.pos_of_ne_zero fun h0 => hne' (BitVec.eq_of_toNat_eq h0)
    rw [F32.size_of_exp_ne_zero hne, hexp, Half.size_of_exp_ne_zero hne', halfToFloat_of_isNormal hnormal,
      F32.frac_make, toNat_append_eq]
    have hpow : 2 ^ ((Half.exp h).toNat + 112 - 1) * 2 ^ 13 = 2 ^ ((Half.exp h).toNat - 1) * 2 ^ 125 := by
      rw [← Nat.pow_add, ← Nat.pow_add]
      congr 1
      omega
    calc (2 ^ 23 + ((Half.frac h).toNat * 2 ^ 13 + (0 : BitVec 13).toNat)) * 2 ^ ((Half.exp h).toNat + 112 - 1)
      _ = (1024 + (Half.frac h).toNat) * (2 ^ ((Half.exp h).toNat + 112 - 1) * 2 ^ 13) := by
          rw [show (0 : BitVec 13).toNat = 0 from rfl]
          ring
      _ = (1024 + (Half.frac h).toNat) * 2 ^ ((Half.exp h).toNat - 1) * 2 ^ 125 := by rw [hpow, Nat.mul_assoc]

theorem value_halfToFloat (he : Half.exp h ≠ 31) : F32.value (halfToFloat h) = Half.value h * 2 ^ 125 := by
  rw [F32.value_eq, Half.value_eq, sign_halfToFloat, size_halfToFloat he, ← signed_mul_natCast]
  norm_num

/-- The magnitude of the image, by class: 0, at least that of an exponent of 103 and finite, or that of an infinity or
NaN with the fraction moved up. -/
theorem magnitude_halfToFloat_cases (h : Word) :
    (Half.magnitude h = 0 ∧ F32.magnitude (halfToFloat h) = 0) ∨
    (0 < Half.magnitude h ∧ Half.magnitude h < 31 * 2 ^ 10 ∧ 103 * 2 ^ 23 ≤ F32.magnitude (halfToFloat h) ∧
      F32.magnitude (halfToFloat h) < 143 * 2 ^ 23) ∨
    (31 * 2 ^ 10 ≤ Half.magnitude h ∧
      F32.magnitude (halfToFloat h) = 255 * 2 ^ 23 + (Half.magnitude h - 31 * 2 ^ 10) * 2 ^ 13) := by
  have hexp32 := F32.toNat_exp (halfToFloat h)
  have hmag := Half.magnitude_lt h
  have hexp16 := Half.toNat_exp h
  have hfrac16 := Half.toNat_frac h
  by_cases he : Half.exp h = 31
  · have he' : (Half.exp h).toNat = 31 := by rw [he]; rfl
    refine .inr (.inr ⟨by omega, ?_⟩)
    rw [halfToFloat_of_exp_eq_max he, F32.magnitude_make, toNat_append_eq, hfrac16,
      show (255 : BitVec 8).toNat = 255 from rfl, show (0 : BitVec 13).toNat = 0 from rfl]
    omega
  · rcases Half.finite_cases he with hzero | hsub | hnormal
    · refine .inl ⟨Half.isZero_iff.1 hzero, ?_⟩
      rw [halfToFloat_of_isZero hzero, F32.magnitude_make]
      rfl
    · obtain ⟨-, hlog⟩ := toNat_normalised_frac hsub
      have hexp := exp_halfToFloat_of_isSubnormal hsub
      have hrange := Half.isSubnormal_iff.1 hsub
      exact .inr (.inl ⟨by omega, by omega, by omega, by omega⟩)
    · have hexp := toNat_exp_halfToFloat_of_isNormal hnormal
      have hrange : 0 < (Half.exp h).toNat ∧ (Half.exp h).toNat < 31 := by
        simp only [Half.isNormal, Bool.and_eq_true, bne_iff_ne] at hnormal
        bv_omega
      exact .inr (.inl ⟨by omega, by omega, by omega, by omega⟩)

theorem exp_halfToFloat_ne_max (he : Half.exp h ≠ 31) : F32.exp (halfToFloat h) ≠ 255 := by
  have hcases := magnitude_halfToFloat_cases h
  rw [Half.exp_ne_max_iff] at he
  rw [F32.exp_ne_max_iff]
  omega

theorem isInf_halfToFloat (h : Word) : F32.isInf (halfToFloat h) = Half.isInf h := by
  have hcases := magnitude_halfToFloat_cases h
  rw [Bool.eq_iff_iff, F32.isInf_iff, Half.isInf_iff]
  omega

theorem isNaN_halfToFloat (h : Word) : F32.isNaN (halfToFloat h) = Half.isNaN h := by
  have hcases := magnitude_halfToFloat_cases h
  rw [Bool.eq_iff_iff, F32.isNaN_iff, Half.isNaN_iff]
  omega

theorem isZero_halfToFloat (h : Word) : F32.isZero (halfToFloat h) = Half.isZero h := by
  have hcases := magnitude_halfToFloat_cases h
  rw [Bool.eq_iff_iff, F32.isZero_iff, Half.isZero_iff]
  omega

/-- A subnormal and a zero have different images. -/
theorem halfToFloat_ne_of_isSubnormal {k : Word} {s : Bool} (hh : Half.isSubnormal h = true) (hk : k = Half.make s 0 0) :
    halfToFloat h ≠ halfToFloat k := fun heq => by
  have hcases := magnitude_halfToFloat_cases h
  have kcases := magnitude_halfToFloat_cases k
  have hrange := Half.isSubnormal_iff.1 hh
  have hmag : Half.magnitude k = 0 := by rw [hk, Half.magnitude_make]; rfl
  rw [heq] at hcases
  omega

/-- The low bits of a fraction that was moved up are 0. -/
theorem low_halfToFloat (h : Word) : (halfToFloat h).extractLsb' 0 13 = 0 := by
  have key : ∀ (s : Bool) (e : BitVec 8) (m : BitVec 23), m.extractLsb' 0 13 = 0 →
      (F32.make s e m).extractLsb' 0 13 = 0 := fun s e m hm =>
    (BitVec.extractLsb'_append_eq_of_add_le (by decide)).trans hm
  by_cases he : Half.exp h = 31
  · rw [halfToFloat_of_exp_eq_max he]
    exact key _ _ _ BitVec.extractLsb'_append_eq_right
  · rcases Half.finite_cases he with hzero | hsub | hnormal
    · rw [halfToFloat_of_isZero hzero]
      exact key _ _ _ (by simp)
    · obtain ⟨-, hlog⟩ := toNat_normalised_frac hsub
      rw [halfToFloat_of_isSubnormal hsub]
      refine key _ _ _ (BitVec.eq_of_getLsbD_eq fun i hi => ?_)
      simp [show i < 23 - Nat.log2 (Half.frac h).toNat by omega]
    · rw [halfToFloat_of_isNormal hnormal]
      exact key _ _ _ BitVec.extractLsb'_append_eq_right

end

/-- No two Halfs have one image: a pattern that is no subnormal comes back from it (O23), and a subnormal is told by
its sign and value. -/
theorem halfToFloat_injective {h k : Word} (heq : halfToFloat h = halfToFloat k) : h = k := by
  have hback : floatToHalf .trunc (halfToFloat h) = floatToHalf .trunc (halfToFloat k) := by rw [heq]
  obtain ⟨hkept, hzeroed⟩ := halfRoundTrip .trunc h
  obtain ⟨kkept, kzeroed⟩ := halfRoundTrip .trunc k
  cases hsub : Half.isSubnormal h <;> cases ksub : Half.isSubnormal k
  · rw [← hkept hsub, hback, kkept ksub]
  · rw [hkept hsub, kzeroed ksub, Half.and_signBit] at hback
    exact absurd heq (halfToFloat_ne_of_isSubnormal ksub hback).symm
  · rw [hzeroed hsub, kkept ksub, Half.and_signBit] at hback
    exact absurd heq (halfToFloat_ne_of_isSubnormal hsub hback.symm)
  · have hsign : Half.sign h = Half.sign k := by rw [← sign_halfToFloat, heq, sign_halfToFloat]
    refine Half.ext hsign (Nat.eq_of_mul_eq_mul_right (Nat.two_pow_pos 125) ?_)
    rw [← size_of_isSubnormal hsub, ← size_of_isSubnormal ksub, ← size_halfToFloat (exp_ne_max_of_isSubnormal hsub),
      heq, size_halfToFloat (exp_ne_max_of_isSubnormal ksub)]

/-- Settles O24: sign, class and magnitude of the image are read off class by class, its value is the Half's. -/
theorem halfToFloatIsExact : Obligations.HalfToFloatIsExact := by
  unfold Obligations.HalfToFloatIsExact
  refine ⟨fun h k => halfToFloat_injective, fun h => ?_⟩
  have hcases := magnitude_halfToFloat_cases h
  have hexp := F32.toNat_exp (halfToFloat h)
  refine ⟨fun he => ⟨exp_halfToFloat_ne_max he, value_halfToFloat he⟩, isInf_halfToFloat h, isNaN_halfToFloat h,
    sign_halfToFloat h, low_halfToFloat h, ?_, fun hne => ?_⟩
  · rw [F32.exp_eq_zero_iff, Half.isZero_iff]
    omega
  · rw [ne_eq, F32.exp_eq_zero_iff] at hne
    omega

/-! ## Truncation (R109 item 5) -/

theorem size_floatToHalf_trunc_le {f : F32} (hf : (F32.exp f).toNat ≤ 142) :
    Half.size (floatToHalf .trunc f) * 2 ^ 125 ≤ F32.size f := by
  rcases Nat.lt_or_ge 112 (F32.exp f).toNat with hlo | hlo
  · obtain ⟨mag, hmag, hval⟩ := floatToHalf_of_mid .trunc hlo (Nat.lt_succ_of_le hf)
    have hmag' : Half.magnitude (floatToHalf .trunc f) = (F32.magnitude f - 112 * 2 ^ 23) / 2 ^ 13 := by
      rw [hmag, Half.magnitude_append, hval]
      rfl
    have hexp := F32.toNat_exp f
    have hfrac := F32.toNat_frac f
    have hexp' : (Half.exp (floatToHalf .trunc f)).toNat = (F32.exp f).toNat - 112 := by
      rw [Half.toNat_exp, hmag']
      omega
    have hfrac' : (Half.frac (floatToHalf .trunc f)).toNat = (F32.frac f).toNat / 2 ^ 13 := by
      rw [Half.toNat_frac, hmag']
      omega
    rw [Half.size_of_exp_ne_zero (Half.exp_ne_zero_of_pos (by omega)), F32.size_of_exp_ne_zero (F32.exp_ne_zero_of_pos (by omega)), hexp', hfrac']
    have hpow : 2 ^ ((F32.exp f).toNat - 112 - 1) * 2 ^ 125 = 2 ^ 13 * 2 ^ ((F32.exp f).toNat - 1) := by
      rw [← Nat.pow_add, ← Nat.pow_add]
      congr 1
      omega
    rw [Nat.mul_assoc, hpow, ← Nat.mul_assoc]
    exact Nat.mul_le_mul_right _ (by omega)
  · rw [floatToHalf_of_exp_le .trunc hlo, Half.size_eq_zero_iff.2 (Half.isZero_iff.2 (by rw [Half.magnitude_make]; rfl)),
      Nat.zero_mul]
    exact Nat.zero_le _

/-- Settles O27. -/
theorem truncationNeverGrows : Obligations.TruncationNeverGrows := by
  unfold Obligations.TruncationNeverGrows
  intro f hf
  rw [Half.value_eq, F32.value_eq, natAbs_signed, natAbs_signed]
  exact size_floatToHalf_trunc_le hf

end Sys2Proof.Machine
end

section
/-! PROOF. The four binary32 operations by the class of their operands (40_half_converter.md R111, R112): when the
result is a NaN, and that it is no NaN pattern otherwise. -/

namespace Sys2Proof.Machine

/-! ## Zeros, infinities, and the other sign -/

section
variable (s : Bool) (f : F32)

@[simp] theorem F32.sign_zero : F32.sign (F32.zero s) = s := F32.sign_make s 0 0
@[simp] theorem F32.sign_inf : F32.sign (F32.inf s) = s := F32.sign_make s 255 0
@[simp] theorem F32.magnitude_zero : F32.magnitude (F32.zero s) = 0 := F32.magnitude_make s 0 0
@[simp] theorem F32.magnitude_inf : F32.magnitude (F32.inf s) = 255 * 2 ^ 23 := F32.magnitude_make s 255 0
@[simp] theorem F32.sign_negate : F32.sign (F32.negate f) = !F32.sign f := F32.sign_make _ _ _
@[simp] theorem F32.exp_negate : F32.exp (F32.negate f) = F32.exp f := F32.exp_make _ _ _
@[simp] theorem F32.frac_negate : F32.frac (F32.negate f) = F32.frac f := F32.frac_make _ _ _
@[simp] theorem F32.isNaN_negate : F32.isNaN (F32.negate f) = F32.isNaN f := by simp [F32.isNaN]
@[simp] theorem F32.isInf_negate : F32.isInf (F32.negate f) = F32.isInf f := by simp [F32.isInf]

theorem F32.isNaN_eq_false_iff {f : F32} : F32.isNaN f = false ↔ F32.magnitude f ≤ 255 * 2 ^ 23 := by
  rw [← Bool.not_eq_true, F32.isNaN_iff]
  omega

theorem F32.isNaN_zero : F32.isNaN (F32.zero s) = false := by
  rw [F32.isNaN_eq_false_iff, F32.magnitude_zero]
  omega

theorem F32.isNaN_inf : F32.isNaN (F32.inf s) = false := by
  rw [F32.isNaN_eq_false_iff, F32.magnitude_inf]

end

/-! ## Rounding (R111) -/

/-- The magnitude `F32.round` gives before it is cut off at the infinity: the significand, a carry out of which moves
into the exponent field, over the exponent. -/
def roundedMagnitude (n e : Nat) : Nat :=
  (max (Nat.log2 n + e - 23) 251 - 251) * 2 ^ 23 +
    if max (Nat.log2 n + e - 23) 251 ≤ e then n * 2 ^ (e - max (Nat.log2 n + e - 23) 251)
    else roundShift n (max (Nat.log2 n + e - 23) 251 - e)

theorem F32.round_eq (s : Bool) (n e : Nat) :
    F32.round s n e = if 255 * 2 ^ 23 ≤ roundedMagnitude n e then F32.inf s
      else BitVec.ofBool s ++ BitVec.ofNat 31 (roundedMagnitude n e) := rfl

@[simp] theorem F32.sign_round (s : Bool) (n e : Nat) : F32.sign (F32.round s n e) = s := by
  rw [F32.round_eq]
  split
  · exact F32.sign_inf s
  · exact F32.sign_append s _

theorem F32.magnitude_round (s : Bool) (n e : Nat) :
    F32.magnitude (F32.round s n e) = min (roundedMagnitude n e) (255 * 2 ^ 23) := by
  rw [F32.round_eq]
  split
  · rw [F32.magnitude_inf]
    omega
  · rw [F32.magnitude_append, BitVec.toNat_ofNat]
    omega

theorem F32.isNaN_round (s : Bool) (n e : Nat) : F32.isNaN (F32.round s n e) = false := by
  rw [F32.isNaN_eq_false_iff, F32.magnitude_round]
  exact Nat.min_le_right _ _

/-! ## The operations by class -/

section
variable {f : F32}

theorem F32.not_isZero_of_isInf (hf : F32.isInf f = true) : F32.isZero f = false := by
  rw [← Bool.not_eq_true, F32.isZero_iff, F32.isInf_iff.1 hf]
  omega

theorem F32.isNaN_eq_false_of_isInf (hf : F32.isInf f = true) : F32.isNaN f = false := by
  rw [F32.isNaN_eq_false_iff, F32.isInf_iff.1 hf]

theorem F32.isNaN_eq_false_of_finite (hf : F32.exp f ≠ 255) : F32.isNaN f = false :=
  F32.isNaN_eq_false_iff.2 (Nat.le_of_lt (F32.exp_ne_max_iff.1 hf))

theorem F32.isInf_eq_false_of_finite (hf : F32.exp f ≠ 255) : F32.isInf f = false := by
  rw [← Bool.not_eq_true, F32.isInf_iff]
  exact Nat.ne_of_lt (F32.exp_ne_max_iff.1 hf)

end

section
variable (a b : F32)

/-! In each branch of a definition, taken in its order, both sides are decided. -/

theorem f32Add_eq_nan_iff : f32Add a b = .nan ↔
    F32.isNaN a ∨ F32.isNaN b ∨ (F32.isInf a ∧ F32.isInf b ∧ F32.sign a ≠ F32.sign b) := by
  simp only [f32Add]
  split_ifs
  all_goals grind

theorem f32Sub_eq_nan_iff : f32Sub a b = .nan ↔
    F32.isNaN a ∨ F32.isNaN b ∨ (F32.isInf a ∧ F32.isInf b ∧ F32.sign a = F32.sign b) := by
  rw [f32Sub, f32Add_eq_nan_iff, F32.isNaN_negate, F32.isInf_negate, F32.sign_negate]
  simp

theorem f32Mul_eq_nan_iff : f32Mul a b = .nan ↔
    F32.isNaN a ∨ F32.isNaN b ∨ (F32.isInf a ∧ F32.isZero b) ∨ (F32.isZero a ∧ F32.isInf b) := by
  have ha := F32.not_isZero_of_isInf (f := a)
  have hb := F32.not_isZero_of_isInf (f := b)
  simp only [f32Mul]
  split_ifs
  all_goals grind

theorem f32Div_eq_nan_iff : f32Div a b = .nan ↔
    F32.isNaN a ∨ F32.isNaN b ∨ (F32.isInf a ∧ F32.isInf b) ∨ (F32.isZero a ∧ F32.isZero b) := by
  have ha := F32.not_isZero_of_isInf (f := a)
  have hb := F32.not_isZero_of_isInf (f := b)
  simp only [f32Div]
  split_ifs
  all_goals grind

end

section
variable {a b f : F32}

/-- A sum that is no NaN is an operand that is none, a zero or a rounded number. -/
theorem isNaN_of_f32Add (h : f32Add a b = .val f) : F32.isNaN f = false := by
  simp only [f32Add] at h
  split_ifs at h with hnan hinf hopposite hinf' hzero
  all_goals cases h
  · simp_all
  · simp_all
  · exact F32.isNaN_zero _
  · exact F32.isNaN_round _ _ _

theorem isNaN_of_f32Mul (h : f32Mul a b = .val f) : F32.isNaN f = false := by
  simp only [f32Mul] at h
  split_ifs at h
  all_goals cases h
  · exact F32.isNaN_inf _
  · exact F32.isNaN_zero _
  · exact F32.isNaN_round _ _ _

theorem isNaN_of_f32Div (h : f32Div a b = .val f) : F32.isNaN f = false := by
  simp only [f32Div] at h
  split_ifs at h
  all_goals cases h
  · exact F32.isNaN_inf _
  · exact F32.isNaN_zero _
  · exact F32.isNaN_inf _
  · exact F32.isNaN_zero _
  · exact F32.isNaN_round _ _ _

end

/-- Settles O28. -/
theorem invalidOperationsGiveNan : Obligations.InvalidOperationsGiveNan := by
  unfold Obligations.InvalidOperationsGiveNan
  refine ⟨fun a b => ⟨f32Add_eq_nan_iff a b, f32Sub_eq_nan_iff a b, f32Mul_eq_nan_iff a b, f32Div_eq_nan_iff a b⟩,
    fun op hop a b f h => ?_⟩
  simp only [List.mem_cons, List.not_mem_nil, or_false] at hop
  rcases hop with rfl | rfl | rfl | rfl
  · exact isNaN_of_f32Add h
  · exact isNaN_of_f32Add h
  · exact isNaN_of_f32Mul h
  · exact isNaN_of_f32Div h

/-! ## The FPU's instructions (44_fpu.md) -/

/-- The pattern drawn for a NaN is a NaN (R112). -/
theorem State.isNaN_drawNan (s : State) : F32.isNaN s.drawNan.1 = true := by
  have hmake : s.drawNan.1 = F32.make (Config.f32NanSign s.draws) 0xFF
      (BitVec.ofNat 23 ((Config.f32NanFraction s.draws).val + 1)) := rfl
  rw [F32.isNaN_iff, hmake, F32.magnitude_make, BitVec.toNat_ofNat, show (0xFF : BitVec 8).toNat = 255 from rfl]
  have hlt := (Config.f32NanFraction s.draws).isLt
  omega

/-- The three-register float form always completes, with the demoted pattern of its result in the destination. -/
theorem threeRegFloat_completes {s : State} {d a b : Byte} {rd ra rb : Reg} (hd : s.regOf d = .ok rd)
    (ha : s.regOf a = .ok ra) (hb : s.regOf b = .ok rb) (op : F32 → F32 → FloatResult) :
    ∃ t, threeRegFloat op d a b s = .next t ∧
      (rd ≠ .ip → t.reg rd = floatToHalf s.cfg.halfRound
        (s.resolve (op (halfToFloat (s.reg ra)) (halfToFloat (s.reg rb)))).1) ∧
      t.ip = s.ip + 3 ∧ SameRegsExcept s t [rd, .ip] ∧ SameFlags s t ∧ SameMemory s t ∧ SameRest s t := by
  refine ⟨_, threeRegFloat_eq_next.2 ⟨rd, ra, rb, hd, ha, hb, rfl⟩, ?_⟩
  obtain ⟨n, hn⟩ := s.exists_resolve_eq (op (halfToFloat (s.reg ra)) (halfToFloat (s.reg rb)))
  rw [hn]
  obtain ⟨hval, hip, hregs, hflags, hmem, hrest, -⟩ := ({ s with draws := n } : State).setReg_setReg_frame rd .ip
    (floatToHalf s.cfg.halfRound (s.resolve (op (halfToFloat (s.reg ra)) (halfToFloat (s.reg rb)))).1) (s.cursor 3)
  exact ⟨hval, hip, hregs, hflags, hmem, hrest⟩

/-- Settles O31: the class of the demoted pattern is that of O25. -/
theorem floatArithmeticPromotesComputesDemotes : Obligations.FloatArithmeticPromotesComputesDemotes := by
  unfold Obligations.FloatArithmeticPromotesComputesDemotes
  intro mk op hmem s d a b rd ra rb hd ha hb
  have hexec : exec (mk d a b) s = threeRegFloat op d a b s := by
    simp only [List.mem_cons, List.not_mem_nil, or_false, Prod.mk.injEq] at hmem
    rcases hmem with ⟨rfl, rfl⟩ | ⟨rfl, rfl⟩ | ⟨rfl, rfl⟩ | ⟨rfl, rfl⟩ <;> rfl
  obtain ⟨t, ht, hval, hframe⟩ := threeRegFloat_completes hd ha hb op
  refine ⟨t, hexec.trans ht, fun f hf hip => ?_, fun hnan hip => ?_, fun hip => ?_, hframe⟩
  · rw [hval hip, hf]
    rfl
  · rw [hval hip, hnan]
    exact (floatToHalf_isNaN_of_isNaN _ s.isNaN_drawNan).2
  · rw [hval hip]
    obtain ⟨-, hsub, -⟩ := floatToHalfKeepsSignAndClass s.cfg.halfRound
      (s.resolve (op (halfToFloat (s.reg ra)) (halfToFloat (s.reg rb)))).1
    exact hsub

/-! ## The float compare (44_fpu.md R205) -/

section
variable {f : F32}

theorem cmpfZero_eq_isZero (f : F32) : cmpfZero f = F32.isZero f := by
  rw [Bool.eq_iff_iff, F32.isZero_iff, cmpfZero, beq_iff_eq, F32.magnitude, ← BitVec.toNat_inj]
  rfl

theorem cmpfSign_iff : cmpfSign f = true ↔ F32.isNaN f = false ∧ F32.sign f = true ∧ F32.isZero f = false := by
  have hzero : (f.extractLsb' 0 31 != 0) = !F32.isZero f := congrArg (!·) (cmpfZero_eq_isZero f)
  rw [cmpfSign, hzero]
  simp [and_assoc]

/-- A NaN demoted and read back is a NaN. -/
theorem isNaN_cmpfTested (p : Params) : F32.isNaN (cmpfTested p f) = F32.isNaN f := by
  unfold cmpfTested
  split
  · obtain ⟨-, -, hnan, -⟩ := floatToHalfKeepsSignAndClass p.halfRound f
    rw [isNaN_halfToFloat, hnan]
  · rfl

end

/-- CMPF always completes and writes the compare flags from the pattern it tests. -/
theorem execCmpf_completes {s : State} {a b : Byte} {ra rb : Reg} (ha : s.regOf a = .ok ra) (hb : s.regOf b = .ok rb) :
    ∃ t d, execCmpf a b s = .next t ∧
      d = cmpfTested s.cfg (s.resolve (f32Sub (halfToFloat (s.reg ra)) (halfToFloat (s.reg rb)))).1 ∧
      t.zero = cmpfZero d ∧ t.sign = cmpfSign d ∧ t.sysc = s.sysc ∧ t.ip = s.ip + 2 ∧ SameRegsExcept s t [.ip] ∧
      SameMemory s t ∧ SameRest s t := by
  obtain ⟨n, hn⟩ := s.exists_resolve_eq (f32Sub (halfToFloat (s.reg ra)) (halfToFloat (s.reg rb)))
  obtain ⟨⟨d, u⟩, hr⟩ : ∃ p, s.resolve (f32Sub (halfToFloat (s.reg ra)) (halfToFloat (s.reg rb))) = p := ⟨_, rfl⟩
  obtain rfl : u = { s with draws := n } := by rw [← hn, hr]
  obtain ⟨hsysc, hip, hregs, hmem, hrest, -⟩ := ({ s with draws := n } : State).setCompare_setIp_frame
    (cmpfZero (cmpfTested s.cfg d)) (cmpfSign (cmpfTested s.cfg d)) (s.cursor 2)
  exact ⟨_, _, execCmpf_eq_next.2 ⟨ra, rb, d, _, ha, hb, hr, rfl⟩, by rw [hr], rfl, rfl, hsysc, hip, hregs, hmem, hrest⟩

/-- Settles O32: the pattern tested is a NaN just where the difference is one, and a NaN is no zero. -/
theorem floatCompareWritesBothFlags : Obligations.FloatCompareWritesBothFlags := by
  unfold Obligations.FloatCompareWritesBothFlags
  intro s a b ra rb ha hb
  obtain ⟨t, d, ht, hd, hzero, hsign, hframe⟩ := execCmpf_completes ha hb
  rw [cmpfZero_eq_isZero] at hzero
  refine ⟨t, ht, fun f hf => ?_, fun hnan => ?_, ?_, hframe⟩
  · obtain rfl : d = cmpfTested s.cfg f := by rw [hd, hf]; rfl
    have hno : F32.isNaN (cmpfTested s.cfg f) = false := (isNaN_cmpfTested _).trans (isNaN_of_f32Add hf)
    rw [hzero, hsign, cmpfSign_iff, and_iff_right hno]
    exact ⟨Iff.rfl, Iff.rfl⟩
  · have hisnan : F32.isNaN d = true := by
      rw [hd, hnan, isNaN_cmpfTested]
      exact s.isNaN_drawNan
    refine ⟨?_, ?_⟩
    · have hmag := F32.isNaN_iff.1 hisnan
      rw [hzero, ← Bool.not_eq_true, F32.isZero_iff]
      omega
    · rw [hsign, ← Bool.not_eq_true, cmpfSign_iff, hisnan]
      exact fun h => nomatch h.1
  · rw [hzero, hsign, ← cmpfZero_eq_isZero]
    exact not_cmpfZero_and_cmpfSign d

end Sys2Proof.Machine
end

section
/-! PROOF. Rounding to nearest, ties to even (40_half_converter.md R111, 92_eei_decisions.md D15): what nearest-even
means for an integer and a fraction, that `F32.round` gives it, and that no finite binary32 pattern is nearer. -/

namespace Sys2Proof.Machine

/-! ## Nearest-even integers -/

/-- `m` is the integer nearest to `n / d`, and the even one of two equally near. -/
def NearestEven (m n d : Nat) : Prop :=
  2 * n ≤ (2 * m + 1) * d ∧ 2 * m * d ≤ 2 * n + d ∧
    (2 * n = (2 * m + 1) * d ∨ 2 * m * d = 2 * n + d → m % 2 = 0)

/-- Nearest-even depends only on how the double of the fraction compares with each integer. -/
theorem NearestEven.of_compare {m n d n' d' : Nat} (h : NearestEven m n d)
    (hle : ∀ c, 2 * n ≤ c * d ↔ 2 * n' ≤ c * d') (hge : ∀ c, c * d ≤ 2 * n ↔ c * d' ≤ 2 * n') :
    NearestEven m n' d' := by
  obtain ⟨hhi, hlo, htie⟩ := h
  have heq : ∀ c, 2 * n' = c * d' → 2 * n = c * d := fun c hc =>
    Nat.le_antisymm ((hle c).2 (Nat.le_of_eq hc)) ((hge c).2 (Nat.le_of_eq hc.symm))
  refine ⟨(hle _).1 hhi, ?_, ?_⟩
  · cases m with
    | zero => omega
    | succ j =>
      have hsplit : ∀ z, 2 * (j + 1) * z = (2 * j + 1) * z + z := fun z => by ring
      have hodd := (hge (2 * j + 1)).1 (by rw [hsplit] at hlo; omega)
      rw [hsplit]
      omega
  · rintro (hup | hdown)
    · exact htie (.inl (heq _ hup))
    · cases m with
      | zero => rfl
      | succ j =>
        have hsplit : ∀ z, 2 * (j + 1) * z = (2 * j + 1) * z + z := fun z => by ring
        rw [hsplit] at hdown
        refine htie (.inr ?_)
        rw [hsplit, heq (2 * j + 1) (by omega)]

/-- Nearest-even depends on the fraction alone. -/
theorem NearestEven.of_cross {m n d n' d' : Nat} (h : NearestEven m n d) (hd : 0 < d) (hd' : 0 < d')
    (hcross : n * d' = n' * d) : NearestEven m n' d' := by
  have hn : 2 * n * d' = 2 * n' * d := by rw [Nat.mul_assoc, hcross, ← Nat.mul_assoc]
  have hc : ∀ c, c * d * d' = c * d' * d := fun c => Nat.mul_right_comm _ _ _
  refine h.of_compare (fun c => ?_) (fun c => ?_)
  · rw [← Nat.mul_le_mul_right_iff hd', hn, hc, Nat.mul_le_mul_right_iff hd]
  · rw [← Nat.mul_le_mul_right_iff hd', hn, hc, Nat.mul_le_mul_right_iff hd]

/-- No integer is nearer than the nearest-even one, and where another is as near, that one is even. -/
theorem NearestEven.le {m n d : Nat} (h : NearestEven m n d) (j : Int) :
    ((m * d : Int) - n).natAbs ≤ (j * d - n).natAbs ∧
      (((m * d : Int) - n).natAbs = (j * d - n).natAbs → j ≠ m → m % 2 = 0) := by
  obtain ⟨hhi, hlo, htie⟩ := h
  have hhi' : (2 * n : Int) ≤ 2 * (m * d) + d := by
    have : (2 * n : Int) ≤ (2 * m + 1) * d := by exact_mod_cast hhi
    linarith
  have hlo' : 2 * (m * d : Int) ≤ 2 * n + d := by
    have : (2 * m * d : Int) ≤ 2 * n + d := by exact_mod_cast hlo
    linarith
  have htie' : 2 * (n : Int) = 2 * (m * d) + d ∨ 2 * (m * d : Int) = 2 * n + d → m % 2 = 0 := by
    intro ht
    refine htie (ht.imp (fun h => ?_) (fun h => ?_))
    · have : (2 * n : Int) = (2 * m + 1) * d := by linarith
      exact_mod_cast this
    · have : (2 * m * d : Int) = 2 * n + d := by linarith
      exact_mod_cast this
  rcases lt_trichotomy j m with hj | rfl | hj
  · have hgap : (j * d : Int) + d ≤ m * d := by nlinarith
    exact ⟨by omega, fun heq _ => htie' (by omega)⟩
  · exact ⟨Nat.le_refl _, fun _ hne => absurd rfl hne⟩
  · have hgap : (m * d : Int) + d ≤ j * d := by nlinarith
    exact ⟨by omega, fun heq _ => htie' (by omega)⟩

theorem roundShift_nearestEven (n k : Nat) : NearestEven (roundShift n k) n (2 ^ k) := by
  have hdiv := Nat.div_add_mod n (2 ^ k)
  have hlt := Nat.mod_lt n (Nat.two_pow_pos k)
  unfold roundShift NearestEven
  simp only []
  generalize n / 2 ^ k = q at *
  generalize n % 2 ^ k = r at *
  generalize 2 ^ k = d at *
  subst hdiv
  have hq : (2 * q + 1) * d = 2 * (d * q) + d := by ring
  have hq' : (2 * (q + 1) + 1) * d = 2 * (d * q) + 3 * d := by ring
  have hm : 2 * q * d = 2 * (d * q) := by ring
  have hm' : 2 * (q + 1) * d = 2 * (d * q) + 2 * d := by ring
  split
  · rw [hq', hm']
    omega
  · rw [hq, hm]
    omega

/-! ## What `F32.round` gives -/

/-- The number of binary places `F32.round` drops below 2^-149: the exponent field, less one, of a normal result. -/
def roundedScale (n e : Nat) : Nat := max (Nat.log2 n + e - 23) 251 - 251

/-- The significand `F32.round` gives, before a carry moves into the exponent. -/
def roundedMant (n e : Nat) : Nat := roundedMagnitude n e - roundedScale n e * 2 ^ 23

section
variable {n e : Nat}

theorem roundedMagnitude_eq (n e : Nat) : roundedMagnitude n e = roundedScale n e * 2 ^ 23 + roundedMant n e := by
  have hle : roundedScale n e * 2 ^ 23 ≤ roundedMagnitude n e := Nat.le_add_right _ _
  unfold roundedMant
  omega

/-- Where the rounding drops `k` places of `n`, the significand is `n / 2^k`, rounded. -/
theorem roundedMant_eq {k : Nat} (hk : roundedScale n e + 251 = e + k) : roundedMant n e = roundShift n k := by
  unfold roundedScale at hk
  have hmag : roundedMagnitude n e - roundedScale n e * 2 ^ 23 =
      if max (Nat.log2 n + e - 23) 251 ≤ e then n * 2 ^ (e - max (Nat.log2 n + e - 23) 251)
      else roundShift n (max (Nat.log2 n + e - 23) 251 - e) :=
    Nat.add_sub_cancel_left _ _
  rw [roundedMant, hmag]
  split
  · obtain rfl : k = 0 := by omega
    rw [show e - max (Nat.log2 n + e - 23) 251 = 0 by omega]
    simp [roundShift, Nat.mod_one]
  · rw [show max (Nat.log2 n + e - 23) 251 - e = k by omega]

/-- The significand has at most 24 bits, or is 2^24 by a carry; and 24 where the result is normal, since so many bits
of `n` are kept. -/
theorem roundedMant_bounds (hn : 0 < n) {k : Nat} (hk : roundedScale n e + 251 = e + k) :
    roundedMant n e ≤ 2 ^ 24 ∧ (0 < roundedScale n e → 2 ^ 23 ≤ roundedMant n e ∧ 2 ^ 23 * 2 ^ k ≤ n) := by
  rw [roundedMant_eq hk]
  unfold roundedScale at hk ⊢
  have hlo := Nat.log2_self_le (Nat.ne_of_gt hn)
  have hhi := Nat.lt_log2_self (n := n)
  have hquot : roundShift n k ≤ n / 2 ^ k + 1 ∧ n / 2 ^ k ≤ roundShift n k := by
    unfold roundShift
    simp only []
    split <;> omega
  refine ⟨?_, fun hpos => ?_⟩
  · have hlt : n / 2 ^ k < 2 ^ 24 := by
      refine Nat.div_lt_of_lt_mul (Nat.lt_of_lt_of_le hhi ?_)
      rw [← Nat.pow_add]
      exact Nat.pow_le_pow_right (by decide) (by omega)
    omega
  · have hn' : 2 ^ 23 * 2 ^ k ≤ n := by
      rw [← Nat.pow_add]
      exact Nat.le_trans (Nat.pow_le_pow_right (by decide) (by omega)) hlo
    have hle : 2 ^ 23 ≤ n / 2 ^ k := (Nat.le_div_iff_mul_le (Nat.two_pow_pos k)).2 hn'
    omega

end

/-- The size of a finite pattern whose magnitude is a significand over a scale. -/
theorem F32.size_of_magnitude {f : F32} {m x : Nat} (hmag : F32.magnitude f = x * 2 ^ 23 + m) (hm : m ≤ 2 ^ 24)
    (hx : 0 < x → 2 ^ 23 ≤ m) : F32.size f = m * 2 ^ x := by
  have hexp := F32.toNat_exp f
  have hfrac := F32.toNat_frac f
  rcases Nat.lt_or_ge m (2 ^ 23) with hlt | hge
  · obtain rfl : x = 0 := by omega
    have he : F32.exp f = 0 := F32.exp_eq_zero_iff.2 (by omega)
    rw [F32.size_of_exp_eq_zero he, hfrac]
    omega
  · rw [F32.size_of_exp_ne_zero (F32.exp_ne_zero_of_pos (by omega)), hexp, hfrac, hmag]
    rcases Nat.lt_or_ge m (2 ^ 24) with hlt | hge'
    · rw [show (x * 2 ^ 23 + m) / 2 ^ 23 - 1 = x by omega, show 2 ^ 23 + (x * 2 ^ 23 + m) % 2 ^ 23 = m by omega]
    · rw [show (x * 2 ^ 23 + m) / 2 ^ 23 - 1 = x + 1 by omega, show 2 ^ 23 + (x * 2 ^ 23 + m) % 2 ^ 23 = 2 ^ 23 by omega,
        show m = 2 ^ 23 * 2 by omega, Nat.pow_succ]
      ring

section
variable {s : Bool} {n e : Nat}

theorem F32.exp_round_ne_max_iff : F32.exp (F32.round s n e) ≠ 255 ↔ roundedMagnitude n e < 255 * 2 ^ 23 := by
  rw [F32.exp_ne_max_iff, F32.magnitude_round]
  omega

theorem F32.size_round (hn : 0 < n) {k : Nat} (hk : roundedScale n e + 251 = e + k)
    (hfinite : F32.exp (F32.round s n e) ≠ 255) :
    F32.size (F32.round s n e) = roundedMant n e * 2 ^ roundedScale n e := by
  obtain ⟨hmax, hnormal⟩ := roundedMant_bounds hn hk
  refine F32.size_of_magnitude ?_ hmax fun hpos => (hnormal hpos).1
  rw [← roundedMagnitude_eq, F32.magnitude_round]
  exact Nat.min_eq_left (Nat.le_of_lt (F32.exp_round_ne_max_iff.1 hfinite))

/-- The last bit of a finite result is that of its significand. -/
theorem F32.lastBit_round (hfinite : F32.exp (F32.round s n e) ≠ 255) (heven : roundedMant n e % 2 = 0) :
    (F32.round s n e).getLsbD 0 = false := by
  have hmag : F32.magnitude (F32.round s n e) % 2 = 0 := by
    have hlt := F32.exp_round_ne_max_iff.1 hfinite
    have hmag := roundedMagnitude_eq n e
    rw [F32.magnitude_round]
    omega
  have hbit : F32.magnitude (F32.round s n e) % 2 = (F32.round s n e).toNat % 2 := by
    rw [F32.magnitude, BitVec.extractLsb'_toNat, Nat.shiftRight_zero]
    omega
  rw [← BitVec.testBit_toNat, Nat.testBit_zero, ← hbit, hmag]
  rfl

end

/-! ## No finite pattern is nearer -/

/-- A finite value is a multiple of `2^x` or, where the pattern's own scale is lower, below `2^(23 + x)` in size. -/
theorem F32.value_multiple_or_small (g : F32) (x : Nat) :
    (∃ j : Int, F32.value g = j * 2 ^ x) ∨ (0 < x ∧ F32.size g < 2 ^ 23 * 2 ^ x) := by
  rcases Nat.lt_or_ge (F32.scale g) x with hlt | hge
  · refine .inr ⟨by omega, ?_⟩
    have hmant : F32.mant g < 2 ^ 24 := by
      have := (F32.frac g).isLt
      unfold F32.mant
      split <;> omega
    have hpow : 2 ^ F32.scale g * 2 ≤ 2 ^ x := by
      rw [← Nat.pow_succ]
      exact Nat.pow_le_pow_right (by decide) hlt
    calc F32.mant g * 2 ^ F32.scale g
      _ < 2 ^ 24 * 2 ^ F32.scale g := (Nat.mul_lt_mul_right (Nat.two_pow_pos _)).2 hmant
      _ = 2 ^ 23 * (2 ^ F32.scale g * 2) := by ring
      _ ≤ 2 ^ 23 * 2 ^ x := Nat.mul_le_mul_left _ hpow
  · refine .inl ⟨signed (F32.sign g) (F32.mant g * 2 ^ (F32.scale g - x)), ?_⟩
    have hpow : 2 ^ F32.scale g = 2 ^ (F32.scale g - x) * 2 ^ x := by
      rw [← Nat.pow_add]
      congr 1
      omega
    rw [F32.value_eq, F32.size, hpow, ← Nat.mul_assoc, ← signed_mul_natCast]
    push_cast
    rfl

section
variable {m x num den : Nat}

/-- A significand nearest-even to `num / (den * 2^x)`, at scale `x`, is as near to `num / den` as any multiple of `2^x`
and, where the quotient is a normal number, nearer than any smaller value. -/
theorem NearestEven.le_of_multiple_or_small (h : NearestEven m num (den * 2 ^ x)) (hden : 0 < den)
    (hnormal : 0 < x → 2 ^ 23 * 2 ^ x * den ≤ num) {y : Int}
    (hy : (∃ j : Int, y = j * 2 ^ x) ∨ (0 < x ∧ y.natAbs < 2 ^ 23 * 2 ^ x)) :
    ((m * 2 ^ x : Nat) * den - num : Int).natAbs ≤ (y * den - num).natAbs ∧
      (((m * 2 ^ x : Nat) * den - num : Int).natAbs = (y * den - num).natAbs → y ≠ (m * 2 ^ x : Nat) → m % 2 = 0) := by
  have hm : ((m * 2 ^ x : Nat) * den : Int) = m * (den * 2 ^ x : Nat) := by
    push_cast
    ring
  rw [hm]
  rcases hy with ⟨j, rfl⟩ | ⟨hx, hsmall⟩
  · obtain ⟨hle, htie⟩ := h.le j
    have hj : (j * 2 ^ x * den : Int) = j * (den * 2 ^ x : Nat) := by
      push_cast
      ring
    rw [hj]
    refine ⟨hle, fun heq hne => htie heq fun hjm => hne ?_⟩
    rw [hjm]
    push_cast
    rfl
  · obtain ⟨hle, -⟩ := h.le (2 ^ 23)
    have hbig : ((2 ^ 23 * (den * 2 ^ x : Nat) : Nat) : Int) ≤ num := by
      refine Int.ofNat_le.2 (Nat.le_trans (Nat.le_of_eq ?_) (hnormal hx))
      ring
    have hylt : y * den < (2 ^ 23 * (den * 2 ^ x : Nat) : Nat) := by
      have hy' : y < (2 ^ 23 * 2 ^ x : Nat) := by omega
      have hmul := mul_lt_mul_of_pos_right hy' (Int.ofNat_lt.2 hden)
      refine lt_of_lt_of_eq hmul ?_
      push_cast
      ring
    push_cast at hbig hylt hle ⊢
    exact ⟨by omega, fun heq => by omega⟩

/-- The same for signed values. -/
theorem nearest_among_values (h : NearestEven m num (den * 2 ^ x)) (hden : 0 < den)
    (hnormal : 0 < x → 2 ^ 23 * 2 ^ x * den ≤ num) (s : Bool) (g : F32) :
    (signed s (m * 2 ^ x) * den - signed s num).natAbs ≤ (F32.value g * den - signed s num).natAbs ∧
      ((signed s (m * 2 ^ x) * den - signed s num).natAbs = (F32.value g * den - signed s num).natAbs →
        F32.value g ≠ signed s (m * 2 ^ x) → m % 2 = 0) := by
  have hg : (F32.value g).natAbs = F32.size g := by rw [F32.value_eq, natAbs_signed]
  have hvalue := F32.value_multiple_or_small g x
  rw [← hg] at hvalue
  cases s with
  | false =>
    simpa only [signed, Bool.false_eq_true, if_false, one_mul] using h.le_of_multiple_or_small hden hnormal hvalue
  | true =>
    have hneg : (∃ j : Int, -F32.value g = j * 2 ^ x) ∨ (0 < x ∧ (-F32.value g).natAbs < 2 ^ 23 * 2 ^ x) := by
      rw [Int.natAbs_neg]
      exact hvalue.imp (fun ⟨j, hj⟩ => ⟨-j, by rw [hj, neg_mul]⟩) id
    obtain ⟨hle, htie⟩ := h.le_of_multiple_or_small hden hnormal hneg
    have hflip : ∀ z : Int, (z * den - signed true num).natAbs = (-z * den - num).natAbs := by
      intro z
      rw [← Int.natAbs_neg]
      congr 1
      simp only [signed, if_true]
      ring
    have hm : -signed true (m * 2 ^ x) = (m * 2 ^ x : Nat) := by simp [signed]
    rw [hflip, hflip, hm]
    refine ⟨hle, fun heq hne => htie heq fun h' => hne ?_⟩
    rw [← neg_inj, h', hm]

end

end Sys2Proof.Machine
end

section
/-! PROOF. The binary32 sum and difference (40_half_converter.md R111): what `f32Add` does by the class of its
operands, and that for finite ones it rounds the exact sum to nearest-even. -/

namespace Sys2Proof.Machine

/-- An integer is its sign and its size. -/
theorem signed_natAbs (z : Int) : signed (decide (z < 0)) z.natAbs = z := by
  unfold signed
  by_cases hz : z < 0
  · simp only [hz, decide_true, if_true]
    omega
  · simp only [hz, decide_false, Bool.false_eq_true, if_false]
    omega

@[simp] theorem F32.value_zero (s : Bool) : F32.value (F32.zero s) = 0 := by
  rw [F32.value_eq, F32.size_eq_zero_iff.2 (F32.isZero_iff.2 (F32.magnitude_zero s))]
  simp [signed]

theorem F32.value_negate (f : F32) : F32.value (F32.negate f) = -F32.value f := by
  have hsize : F32.size (F32.negate f) = F32.size f := by simp [F32.size, F32.mant, F32.scale]
  rw [F32.value_eq, F32.value_eq, hsize, F32.sign_negate]
  cases F32.sign f <;> simp [signed]

/-- An infinity is the pattern of its sign. -/
theorem F32.eq_inf_of_isInf {f : F32} (hf : F32.isInf f = true) : f = F32.inf (F32.sign f) := by
  refine F32.ext (by simp) ?_
  rw [F32.isInf_iff.1 hf, F32.magnitude_inf]

/-! ## The threshold of the infinity -/

/-- From halfway above the largest finite value on, an integer is rounded to the infinity: there the significand is
carried to 2^24 at the largest scale, since 2^24 - 1 is odd. -/
theorem roundedMagnitude_ge_iff {n : Nat} (hn : 0 < n) :
    255 * 2 ^ 23 ≤ roundedMagnitude n 251 ↔ (2 ^ 25 - 1) * 2 ^ 252 ≤ n := by
  have hk : roundedScale n 251 + 251 = 251 + roundedScale n 251 := Nat.add_comm _ _
  obtain ⟨hmax, hnormal⟩ := roundedMant_bounds hn hk
  have hnear := roundShift_nearestEven n (roundedScale n 251)
  rw [← roundedMant_eq hk] at hnear
  rw [roundedMagnitude_eq]
  generalize roundedMant n 251 = m at *
  generalize roundedScale n 251 = x at *
  obtain ⟨hhi, hlo, htie⟩ := hnear
  rcases Nat.lt_trichotomy x 253 with hx | rfl | hx
  · have hpow : 2 ^ x ≤ 2 ^ 252 := Nat.pow_le_pow_right (by decide) (by omega)
    have hsmall : 2 * n ≤ (2 * 2 ^ 24 + 1) * 2 ^ 252 :=
      Nat.le_trans hhi (Nat.mul_le_mul (by omega) hpow)
    omega
  · omega
  · have hpow : 2 ^ 254 ≤ 2 ^ x := Nat.pow_le_pow_right (by decide) hx
    obtain ⟨hm, hn'⟩ := hnormal (by omega)
    have hbig : 2 ^ 23 * 2 ^ 254 ≤ n := Nat.le_trans (Nat.mul_le_mul_left _ hpow) hn'
    omega

/-! ## The sum of finite operands -/

/-- `r` is the integer `exact` (in units of 2^-149) rounded to binary32, the zero being that of `zeroSign`. -/
def RoundedTo (exact : Int) (zeroSign : Bool) (r : F32) : Prop :=
  (exact = 0 → r = F32.zero zeroSign) ∧
  (exact ≠ 0 → (F32.sign r = true ↔ exact < 0)) ∧
  (F32.isInf r = true ↔ (2 ^ 25 - 1) * 2 ^ 252 ≤ exact.natAbs) ∧
  (F32.exp r ≠ 255 → ∀ g : F32, F32.exp g ≠ 255 →
    (F32.value r - exact).natAbs ≤ (F32.value g - exact).natAbs ∧
    ((F32.value r - exact).natAbs = (F32.value g - exact).natAbs → F32.value g ≠ F32.value r →
      r.getLsbD 0 = false))

theorem roundedTo_zero (s : Bool) : RoundedTo 0 s (F32.zero s) := by
  refine ⟨fun _ => rfl, fun h => absurd rfl h, ?_, fun _ g _ => ?_⟩
  · rw [F32.isInf_iff, F32.magnitude_zero]
    decide
  · rw [F32.value_zero]
    exact ⟨by simp, fun heq hne => absurd (by simpa using heq.symm) hne⟩

theorem roundedTo_round {exact : Int} (hne : exact ≠ 0) (s : Bool) :
    RoundedTo exact s (F32.round (decide (exact < 0)) exact.natAbs 251) := by
  have hn : 0 < exact.natAbs := Int.natAbs_pos.2 hne
  have hk : roundedScale exact.natAbs 251 + 251 = 251 + roundedScale exact.natAbs 251 := Nat.add_comm _ _
  refine ⟨fun h => absurd h hne, fun _ => by simp, ?_, fun hfinite g _ => ?_⟩
  · rw [F32.isInf_iff, F32.magnitude_round, ← roundedMagnitude_ge_iff hn]
    omega
  · have hnear := roundShift_nearestEven exact.natAbs (roundedScale exact.natAbs 251)
    rw [← roundedMant_eq hk, ← Nat.one_mul (2 ^ roundedScale exact.natAbs 251)] at hnear
    obtain ⟨hle, htie⟩ := nearest_among_values hnear Nat.one_pos
      (fun hx => by rw [Nat.mul_one]; exact ((roundedMant_bounds hn hk).2 hx).2) (decide (exact < 0)) g
    rw [← F32.size_round hn hk hfinite] at hle htie
    have hvalue : signed (decide (exact < 0)) (F32.size (F32.round (decide (exact < 0)) exact.natAbs 251)) =
        F32.value (F32.round (decide (exact < 0)) exact.natAbs 251) := by
      rw [F32.value_eq, F32.sign_round]
    rw [hvalue, signed_natAbs, Nat.cast_one, Int.mul_one, Int.mul_one] at hle htie
    exact ⟨hle, fun heq hg => F32.lastBit_round hfinite (htie heq hg)⟩

section
variable {a b : F32}

theorem f32Add_of_finite (ha : F32.exp a ≠ 255) (hb : F32.exp b ≠ 255) :
    ∃ r, f32Add a b = .val r ∧ RoundedTo (F32.value a + F32.value b) (F32.sign a && F32.sign b) r := by
  unfold f32Add
  simp only [F32.isNaN_eq_false_of_finite ha, F32.isNaN_eq_false_of_finite hb, F32.isInf_eq_false_of_finite ha,
    F32.isInf_eq_false_of_finite hb, Bool.or_self, Bool.false_eq_true, if_false]
  by_cases hsum : F32.value a + F32.value b = 0
  · rw [if_pos hsum, hsum]
    exact ⟨_, rfl, roundedTo_zero _⟩
  · rw [if_neg hsum]
    exact ⟨_, rfl, roundedTo_round hsum _⟩

theorem f32Add_of_isInf_left (ha : F32.isInf a = true) (hb : F32.isNaN b = false) (hne : f32Add a b ≠ .nan) :
    f32Add a b = .val a := by
  have hna := F32.isNaN_eq_false_of_isInf ha
  have hno : ¬ (F32.isInf b = true ∧ F32.sign a ≠ F32.sign b) := fun ⟨hb', hs⟩ =>
    hne ((f32Add_eq_nan_iff a b).2 (.inr (.inr ⟨ha, hb', hs⟩)))
  simp [f32Add, hna, hb, ha, hno]

theorem f32Add_of_isInf_right (ha : F32.exp a ≠ 255) (hb : F32.isInf b = true) :
    f32Add a b = .val (F32.inf (F32.sign b)) := by
  rw [← F32.eq_inf_of_isInf hb]
  simp [f32Add, F32.isNaN_eq_false_of_finite ha, F32.isNaN_eq_false_of_isInf hb, F32.isInf_eq_false_of_finite ha, hb]

end

/-- Settles O29: a difference is the sum with the second operand negated, which turns its sign and its value. -/
theorem binarySumAndDifferenceAreNearestEven : Obligations.BinarySumAndDifferenceAreNearestEven := by
  unfold Obligations.BinarySumAndDifferenceAreNearestEven
  intro op flip hmem a b
  have key : ∃ b', op a b = f32Add a b' ∧ F32.sign b' = (F32.sign b ^^ flip) ∧ F32.exp b' = F32.exp b ∧
      F32.isNaN b' = F32.isNaN b ∧ F32.isInf b' = F32.isInf b ∧
      F32.value a + F32.value b' = if flip then F32.value a - F32.value b else F32.value a + F32.value b := by
    simp only [List.mem_cons, List.not_mem_nil, or_false, Prod.mk.injEq] at hmem
    rcases hmem with ⟨rfl, rfl⟩ | ⟨rfl, rfl⟩
    · exact ⟨b, rfl, by simp, rfl, rfl, rfl, rfl⟩
    · exact ⟨F32.negate b, rfl, by simp, by simp, by simp, by simp, by rw [F32.value_negate]; rfl⟩
  obtain ⟨b', hop, hsign, hexp, hnan, hinf, hvalue⟩ := key
  rw [hop, ← hexp, ← hnan, ← hinf, ← hsign, ← hvalue]
  refine ⟨fun ha hb => ?_, f32Add_of_isInf_left, f32Add_of_isInf_right⟩
  obtain ⟨r, hr, hrounded⟩ := f32Add_of_finite ha hb
  exact ⟨r, hr, fun exact hexact => by rw [hexact]; exact hrounded⟩

end Sys2Proof.Machine
end

section
/-! PROOF. CMPF of finite Halfs (44_fpu.md R205): the rounded difference is exact where it is small and large where
it is not, so what is tested tells the order of the operands. -/

namespace Sys2Proof.Machine

/-! ## Small values -/

/-- Every integer of at most 1024 is the value of a Half, in units of 2^-24: of a zero, a subnormal or the smallest
normal. -/
theorem Half.exists_value_eq {d : Int} (hd : d.natAbs ≤ 1024) : ∃ h : Word, Half.exp h ≠ 31 ∧ Half.value h = d := by
  have hmag : Half.magnitude (BitVec.ofBool (decide (d < 0)) ++ BitVec.ofNat 15 d.natAbs) = d.natAbs := by
    rw [Half.magnitude_append, BitVec.toNat_ofNat]
    omega
  generalize hh : BitVec.ofBool (decide (d < 0)) ++ BitVec.ofNat 15 d.natAbs = h at hmag
  have hexp := Half.toNat_exp h
  have hfrac := Half.toNat_frac h
  have hsize : Half.size h = d.natAbs := by
    rcases Nat.lt_or_ge d.natAbs 1024 with hlt | hge
    · have he : Half.exp h = 0 := BitVec.eq_of_toNat_eq (hexp.trans (by rw [hmag]; exact Nat.div_eq_of_lt hlt))
      rw [Half.size_of_exp_eq_zero he]
      omega
    · rw [Half.size_of_exp_ne_zero (Half.exp_ne_zero_of_pos (by omega)), hexp, hfrac, hmag,
        show d.natAbs = 1024 by omega]
      rfl
  refine ⟨h, Half.exp_ne_max_iff.2 (by omega), ?_⟩
  rw [Half.value_eq, hsize, ← hh, Half.sign_append, signed_natAbs]

/-- Its image is a finite binary32 pattern of the same value. -/
theorem F32.exists_value_eq {d : Int} (hd : d.natAbs ≤ 1024) : ∃ g : F32, F32.exp g ≠ 255 ∧ F32.value g = d * 2 ^ 125 := by
  obtain ⟨h, he, rfl⟩ := Half.exists_value_eq hd
  exact ⟨halfToFloat h, exp_halfToFloat_ne_max he, value_halfToFloat he⟩

theorem Half.size_lt {h : Word} (he : Half.exp h ≠ 31) : Half.size h < 2 ^ 40 := by
  have hlt := (Half.frac h).isLt
  have hmax : (Half.exp h).toNat ≤ 30 := by
    rw [Half.exp_ne_max_iff] at he
    rw [Half.toNat_exp]
    omega
  by_cases he0 : Half.exp h = 0
  · rw [Half.size_of_exp_eq_zero he0]
    omega
  · rw [Half.size_of_exp_ne_zero he0]
    calc (1024 + (Half.frac h).toNat) * 2 ^ ((Half.exp h).toNat - 1)
      _ ≤ 2047 * 2 ^ 29 := Nat.mul_le_mul (by omega) (Nat.pow_le_pow_right (by decide) (by omega))
      _ < 2 ^ 40 := by decide

/-- The exponent of a finite pattern tells the power of two its size is below. -/
theorem F32.size_lt_iff {f : F32} {x : Nat} : F32.size f < 2 ^ (23 + x) ↔ (F32.exp f).toNat ≤ x := by
  have hlt := (F32.frac f).isLt
  by_cases he : F32.exp f = 0
  · have hle : 2 ^ 23 ≤ 2 ^ (23 + x) := Nat.pow_le_pow_right (by decide) (Nat.le_add_right _ _)
    rw [F32.size_of_exp_eq_zero he, he]
    exact iff_of_true (by omega) (Nat.zero_le x)
  · rw [F32.size_of_exp_ne_zero he]
    have hpos : 0 < (F32.exp f).toNat := Nat.pos_of_ne_zero fun h0 => he (BitVec.eq_of_toNat_eq h0)
    constructor
    · intro h
      by_contra hx
      have hpow : 2 ^ x ≤ 2 ^ ((F32.exp f).toNat - 1) := Nat.pow_le_pow_right (by decide) (by omega)
      have hmul := Nat.mul_le_mul (Nat.le_add_right (2 ^ 23) (F32.frac f).toNat) hpow
      rw [← Nat.pow_add] at hmul
      exact absurd h (Nat.not_lt_of_le hmul)
    · intro h
      calc (2 ^ 23 + (F32.frac f).toNat) * 2 ^ ((F32.exp f).toNat - 1)
        _ < 2 ^ 24 * 2 ^ ((F32.exp f).toNat - 1) := (Nat.mul_lt_mul_right (Nat.two_pow_pos _)).2 (by omega)
        _ = 2 ^ (24 + ((F32.exp f).toNat - 1)) := (Nat.pow_add _ _ _).symm
        _ ≤ 2 ^ (23 + x) := Nat.pow_le_pow_right (by decide) (by omega)

/-! ## What is tested -/

section
variable {p : Params} {f : F32}

theorem sign_cmpfTested (p : Params) (f : F32) : F32.sign (cmpfTested p f) = F32.sign f := by
  unfold cmpfTested
  split
  · obtain ⟨hsign, -⟩ := floatToHalfKeepsSignAndClass p.halfRound f
    rw [sign_halfToFloat, hsign]
  · rfl

/-- Without demotion a zero is tested where the difference is one; with it, where the difference is below 2^-14. -/
theorem isZero_cmpfTested (hf : F32.isNaN f = false) :
    F32.isZero (cmpfTested p f) = true ↔ F32.size f < if p.cmpfDemote then 2 ^ 135 else 1 := by
  unfold cmpfTested
  split
  · have hcases := magnitude_halfToFloat_cases (floatToHalf p.halfRound f)
    have hrange := demotedMagnitude_range p.halfRound (F32.magnitude f)
    have hexp := F32.toNat_exp f
    rw [F32.isZero_iff, show (135 : Nat) = 23 + 112 from rfl, F32.size_lt_iff]
    rw [(floatToHalf_of_not_isNaN p.halfRound hf).2] at hcases
    omega
  · rw [← F32.size_eq_zero_iff, Nat.lt_one_iff]

end

/-! ## The rounded difference of two Halfs -/

section
variable {h k : Word} (hh : Half.exp h ≠ 31) (hk : Half.exp k ≠ 31)
include hh hk

/-- The difference is no NaN, has the sign of the exact one, is exact where that is at most 2^-14 in size, and is at
least 2^-14 in size where that is. -/
theorem f32Sub_halfToFloat : ∃ r, f32Sub (halfToFloat h) (halfToFloat k) = .val r ∧
    (Half.value h ≠ Half.value k → (F32.sign r = true ↔ Half.value h < Half.value k)) ∧
    ((Half.value h - Half.value k).natAbs ≤ 1024 → F32.size r = (Half.value h - Half.value k).natAbs * 2 ^ 125) ∧
    (1024 ≤ (Half.value h - Half.value k).natAbs → 2 ^ 135 ≤ F32.size r) := by
  have hmem : (f32Sub, true) ∈ [(f32Add, false), (f32Sub, true)] := by simp
  obtain ⟨hsum, -⟩ := binarySumAndDifferenceAreNearestEven f32Sub true hmem (halfToFloat h) (halfToFloat k)
  obtain ⟨r, hr, hrounded⟩ := hsum (exp_halfToFloat_ne_max hh) (exp_halfToFloat_ne_max hk)
  have hexact : (Half.value h - Half.value k) * 2 ^ 125 = F32.value (halfToFloat h) - F32.value (halfToFloat k) := by
    rw [value_halfToFloat hh, value_halfToFloat hk, sub_mul]
  obtain ⟨-, hsign, hinf, hnear⟩ := hrounded _ hexact
  have hhsize : (Half.value h).natAbs < 2 ^ 40 := by rw [Half.value_eq, natAbs_signed]; exact Half.size_lt hh
  have hksize : (Half.value k).natAbs < 2 ^ 40 := by rw [Half.value_eq, natAbs_signed]; exact Half.size_lt hk
  have hrsize : F32.size r = (F32.value r).natAbs := by rw [F32.value_eq, natAbs_signed]
  have hrfinite : F32.exp r ≠ 255 := by
    have hnan : F32.isNaN r = false := isNaN_of_f32Add hr
    have hnoinf : ¬ F32.isInf r = true := by
      rw [hinf]
      omega
    rw [F32.isNaN_eq_false_iff] at hnan
    rw [F32.isInf_iff] at hnoinf
    rw [F32.exp_ne_max_iff]
    omega
  have hnearest : ∀ d : Int, d.natAbs ≤ 1024 → (F32.value r - (Half.value h - Half.value k) * 2 ^ 125).natAbs ≤
      (d * 2 ^ 125 - (Half.value h - Half.value k) * 2 ^ 125).natAbs := by
    intro d hd
    obtain ⟨g, hg, hgd⟩ := F32.exists_value_eq hd
    rw [← hgd]
    exact (hnear hrfinite g hg).1
  refine ⟨r, hr, fun hne => ?_, fun hsmall => ?_, fun hlarge => ?_⟩
  · rw [hsign (by omega)]
    omega
  · have hself := hnearest _ hsmall
    omega
  · have hpos := hnearest 1024 (by decide)
    have hneg := hnearest (-1024) (by decide)
    omega

end

/-- Settles O33: the pattern tested is a zero just where the difference is below 1 or 1024 units, and otherwise has its
sign. -/
theorem floatCompareOrdersFiniteHalfs : Obligations.FloatCompareOrdersFiniteHalfs := by
  unfold Obligations.FloatCompareOrdersFiniteHalfs
  intro s t a b ra rb ha hb hh hk ht
  obtain ⟨r, hr, hsign, hsmall, hlarge⟩ := f32Sub_halfToFloat hh hk
  obtain ⟨t', d, ht', hd, hzero', hsign', -⟩ := execCmpf_completes ha hb
  obtain rfl : t = t' := Host.Outcome.next.inj (ht.symm.trans ht')
  obtain rfl : d = cmpfTested s.cfg r := by rw [hd, hr]; rfl
  have hno : F32.isNaN r = false := isNaN_of_f32Add hr
  rw [cmpfZero_eq_isZero] at hzero'
  have hzero := isZero_cmpfTested (p := s.cfg) hno
  have hbelow : t.sign = true ↔ F32.sign r = true ∧ ¬ F32.isZero (cmpfTested s.cfg r) = true := by
    rw [hsign', cmpfSign_iff, isNaN_cmpfTested, sign_cmpfTested, Bool.not_eq_true]
    exact and_iff_right hno
  rw [hbelow, hzero', hzero]
  refine ⟨fun hdemote => ?_, fun hdemote => ?_⟩
  · rw [hdemote]
    simp only [Bool.false_eq_true, if_false]
    have hnone : F32.size r < 1 ↔ Half.value (s.reg ra) = Half.value (s.reg rb) := by omega
    grind
  · rw [hdemote]
    simp only [if_true]
    have hclose : F32.size r < 2 ^ 135 ↔ (Half.value (s.reg ra) - Half.value (s.reg rb)).natAbs < 1024 := by omega
    grind

end Sys2Proof.Machine
end

section
/-! PROOF. The binary32 product and quotient of two Halfs (44_fpu.md R203, R204): the significands of promoted Halfs,
why rounding loses nothing of their product, and why the quotient's 65 bits with the remainder below them round to
nearest-even. -/

namespace Sys2Proof.Machine

/-! ## The significand of a promoted Half -/

theorem Half.isNaN_eq_false_of_finite {h : Word} (hh : Half.exp h ≠ 31) : Half.isNaN h = false := by
  rw [← isNaN_halfToFloat, F32.isNaN_eq_false_of_finite (exp_halfToFloat_ne_max hh)]

theorem Half.isInf_eq_false_of_finite {h : Word} (hh : Half.exp h ≠ 31) : Half.isInf h = false := by
  rw [← isInf_halfToFloat, F32.isInf_eq_false_of_finite (exp_halfToFloat_ne_max hh)]

theorem Half.isNaN_eq_false_of_isInf {h : Word} (hh : Half.isInf h = true) : Half.isNaN h = false := by
  rw [← isNaN_halfToFloat, F32.isNaN_eq_false_of_isInf (by rw [isInf_halfToFloat, hh])]

theorem Half.isZero_eq_false_of_isInf {h : Word} (hh : Half.isInf h = true) : Half.isZero h = false := by
  rw [← isZero_halfToFloat, F32.not_isZero_of_isInf (by rw [isInf_halfToFloat, hh])]

/-- The image of a finite Half other than 0 is normal: its significand has 24 bits, of which at most 11 are used. -/
theorem mant_scale_halfToFloat {h : Word} (hh : Half.exp h ≠ 31) (hz : Half.isZero h = false) :
    (∃ a, F32.mant (halfToFloat h) = a * 2 ^ 13 ∧ 2 ^ 10 ≤ a ∧ a < 2 ^ 11) ∧ 102 ≤ F32.scale (halfToFloat h) ∧
      F32.scale (halfToFloat h) ≤ 141 := by
  have hcases := magnitude_halfToFloat_cases h
  have hexp := F32.toNat_exp (halfToFloat h)
  have hfrac := F32.toNat_frac (halfToFloat h)
  rw [← Bool.not_eq_true, Half.isZero_iff] at hz
  rw [Half.exp_ne_max_iff] at hh
  have hlow : F32.magnitude (halfToFloat h) % 2 ^ 13 = 0 := by
    have hbits := congrArg BitVec.toNat (low_halfToFloat h)
    rw [BitVec.extractLsb'_toNat, Nat.shiftRight_zero] at hbits
    rw [F32.magnitude, BitVec.extractLsb'_toNat, Nat.shiftRight_zero]
    have hzero : (0 : BitVec 13).toNat = 0 := rfl
    omega
  have he : F32.exp (halfToFloat h) ≠ 0 := F32.exp_ne_zero_of_pos (by omega)
  rw [F32.mant, F32.scale, if_neg he, if_neg he]
  exact ⟨⟨2 ^ 10 + (F32.frac (halfToFloat h)).toNat / 2 ^ 13, by omega, by omega, by omega⟩, by omega, by omega⟩

/-! ## The product -/

/-- Nothing is lost where the integer rounded is a multiple of the place rounded to. -/
theorem NearestEven.eq_of_mul {m j d : Nat} (h : NearestEven m (j * d) d) (hd : 0 < d) : m = j := by
  obtain ⟨hle, -⟩ := h.le j
  have hzero : ((m * d : Nat) : Int) = (j * d : Nat) := by
    push_cast at hle ⊢
    omega
  exact Nat.eq_of_mul_eq_mul_right hd (Int.ofNat_inj.1 hzero)

/-- A product of two significands of promoted Halfs is rounded without loss: of its 48 bits the low 26 are 0. -/
theorem mant_mul_eq {a b : Nat} {e : Nat} (ha : 2 ^ 10 ≤ a ∧ a < 2 ^ 11) (hb : 2 ^ 10 ≤ b ∧ b < 2 ^ 11)
    (he : 306 ≤ e ∧ e ≤ 384) :
    ∃ k, roundedScale (a * 2 ^ 13 * (b * 2 ^ 13)) e + 251 = e + k ∧ roundedScale (a * 2 ^ 13 * (b * 2 ^ 13)) e ≤ 157 ∧
      roundedMant (a * 2 ^ 13 * (b * 2 ^ 13)) e * 2 ^ k = a * 2 ^ 13 * (b * 2 ^ 13) := by
  have hab : a * 2 ^ 13 * (b * 2 ^ 13) = a * b * 2 ^ 26 := by ring
  have hlo : 2 ^ 10 * 2 ^ 10 ≤ a * b := Nat.mul_le_mul ha.1 hb.1
  have hhi : a * b < 2 ^ 11 * 2 ^ 11 := Nat.mul_lt_mul'' ha.2 hb.2
  rw [hab]
  have hlog : 46 ≤ Nat.log2 (a * b * 2 ^ 26) ∧ Nat.log2 (a * b * 2 ^ 26) < 48 :=
    ⟨(Nat.le_log2 (by omega)).2 (by omega), (Nat.log2_lt (by omega)).2 (by omega)⟩
  have hk : roundedScale (a * b * 2 ^ 26) e + 251 = e + (Nat.log2 (a * b * 2 ^ 26) - 23) := by
    unfold roundedScale
    omega
  refine ⟨_, hk, by unfold roundedScale; omega, ?_⟩
  have hnear := roundShift_nearestEven (a * b * 2 ^ 26) (Nat.log2 (a * b * 2 ^ 26) - 23)
  rw [← roundedMant_eq hk] at hnear
  have hdropped : Nat.log2 (a * b * 2 ^ 26) - 23 ≤ 26 := by omega
  generalize Nat.log2 (a * b * 2 ^ 26) - 23 = k at *
  have hpow : a * b * 2 ^ 26 = a * b * 2 ^ (26 - k) * 2 ^ k := by
    rw [Nat.mul_assoc (a * b), ← Nat.pow_add, Nat.sub_add_cancel hdropped]
  generalize roundedMant (a * b * 2 ^ 26) e = m at *
  rw [hpow] at hnear ⊢
  rw [hnear.eq_of_mul (Nat.two_pow_pos k)]

/-! ## The quotient -/

section
variable {a b : Nat}

/-- The bits of the quotient with the remainder's bit below them compare with an even number as the quotient does. -/
theorem stickyQuotient_le_iff (hb : 0 < b) (c : Nat) : stickyQuotient a b ≤ 2 * c ↔ a * 2 ^ 64 ≤ c * b := by
  have hdiv := Nat.div_add_mod (a * 2 ^ 64) b
  have hlt := Nat.mod_lt (a * 2 ^ 64) hb
  unfold stickyQuotient
  generalize a * 2 ^ 64 / b = q at *
  generalize a * 2 ^ 64 % b = r at *
  rw [← hdiv]
  rcases Nat.lt_trichotomy q c with hq | rfl | hq
  · have hmul : b * (q + 1) ≤ c * b := by
      rw [Nat.mul_comm c]
      exact Nat.mul_le_mul_left b hq
    rw [Nat.mul_succ] at hmul
    split <;> omega
  · rw [Nat.mul_comm q b]
    split <;> omega
  · have hmul : (c + 1) * b ≤ b * q := by
      rw [Nat.mul_comm _ b]
      exact Nat.mul_le_mul_left b hq
    rw [Nat.succ_mul] at hmul
    split <;> omega

theorem le_stickyQuotient_iff (hb : 0 < b) (c : Nat) : 2 * c ≤ stickyQuotient a b ↔ c * b ≤ a * 2 ^ 64 := by
  rw [← Nat.le_div_iff_mul_le hb]
  unfold stickyQuotient
  split <;> omega

/-- Dropping two or more of its bits rounds the exact quotient. -/
theorem NearestEven.of_stickyQuotient {m k : Nat} (hb : 0 < b) (h : NearestEven m (stickyQuotient a b) (2 ^ (k + 2))) :
    NearestEven m (a * 2 ^ 64) (b * 2 ^ (k + 1)) := by
  have hpow : ∀ c, c * 2 ^ (k + 2) = 2 * (2 * (c * 2 ^ k)) := fun c => by ring
  have hpow' : ∀ c, c * (b * 2 ^ (k + 1)) = 2 * (c * 2 ^ k * b) := fun c => by ring
  refine h.of_compare (fun c => ?_) (fun c => ?_)
  · have hiff := stickyQuotient_le_iff (a := a) hb (c * 2 ^ k)
    rw [hpow, hpow']
    omega
  · have hiff := le_stickyQuotient_iff (a := a) hb (c * 2 ^ k)
    rw [hpow, hpow']
    omega

end

/-- The quotient of two 24-bit significands has 65 or 66 bits, of which 41 to 43 are dropped; as a multiple of the
scale it is normal. -/
theorem roundedScale_stickyQuotient {a b e : Nat} (ha : 2 ^ 23 ≤ a ∧ a < 2 ^ 24) (hb : 2 ^ 23 ≤ b ∧ b < 2 ^ 24)
    (he : 296 ≤ e ∧ e ≤ 374) :
    ∃ k, roundedScale (stickyQuotient a b) e + 251 = e + (k + 2) ∧ roundedScale (stickyQuotient a b) e ≤ 166 ∧
      0 < stickyQuotient a b ∧ 2 ^ (24 + k) * b ≤ a * 2 ^ 64 := by
  have hbpos : 0 < b := by omega
  have hlo : 2 * 2 ^ 63 ≤ stickyQuotient a b := (le_stickyQuotient_iff hbpos (2 ^ 63)).2 (by omega)
  have hhi : stickyQuotient a b ≤ 2 * (2 * 2 ^ 64) := by
    rw [stickyQuotient_le_iff hbpos, Nat.mul_right_comm]
    exact Nat.mul_le_mul_right _ (by omega)
  have hlog : 64 ≤ Nat.log2 (stickyQuotient a b) ∧ Nat.log2 (stickyQuotient a b) < 67 :=
    ⟨(Nat.le_log2 (by omega)).2 (by omega), (Nat.log2_lt (by omega)).2 (by omega)⟩
  refine ⟨Nat.log2 (stickyQuotient a b) - 25, by unfold roundedScale; omega, by unfold roundedScale; omega, by omega, ?_⟩
  refine (le_stickyQuotient_iff hbpos _).1 ?_
  calc 2 * 2 ^ (24 + (Nat.log2 (stickyQuotient a b) - 25))
    _ = 2 ^ Nat.log2 (stickyQuotient a b) := by
        rw [← Nat.pow_succ']
        congr 1
        omega
    _ ≤ stickyQuotient a b := Nat.log2_self_le (by omega)

section
variable {h k : Word} (hh : Half.exp h ≠ 31) (hk : Half.exp k ≠ 31)
include hh hk

/-- A product with a zero is the zero of the exclusive-or of the signs. -/
theorem f32Mul_halfToFloat_of_isZero (hz : Half.isZero h = true ∨ Half.isZero k = true) :
    f32Mul (halfToFloat h) (halfToFloat k) = .val (F32.zero (Half.sign h ^^ Half.sign k)) := by
  simp [f32Mul, isNaN_halfToFloat, isInf_halfToFloat, isZero_halfToFloat, sign_halfToFloat,
    Half.isNaN_eq_false_of_finite hh, Half.isNaN_eq_false_of_finite hk, Half.isInf_eq_false_of_finite hh,
    Half.isInf_eq_false_of_finite hk, hz]

theorem f32Mul_halfToFloat_of_ne_zero (hz : Half.isZero h = false) (kz : Half.isZero k = false) :
    f32Mul (halfToFloat h) (halfToFloat k) =
      .val (F32.round (Half.sign h ^^ Half.sign k) (F32.mant (halfToFloat h) * F32.mant (halfToFloat k))
        (F32.scale (halfToFloat h) + F32.scale (halfToFloat k) + 102)) := by
  simp [f32Mul, isNaN_halfToFloat, isInf_halfToFloat, isZero_halfToFloat, sign_halfToFloat,
    Half.isNaN_eq_false_of_finite hh, Half.isNaN_eq_false_of_finite hk, Half.isInf_eq_false_of_finite hh,
    Half.isInf_eq_false_of_finite hk, hz, kz]

/-- The product is finite and exact, with the exclusive-or of the signs. -/
theorem f32Mul_halfToFloat : ∃ r, f32Mul (halfToFloat h) (halfToFloat k) = .val r ∧ F32.exp r ≠ 255 ∧
    F32.value r = Half.value h * Half.value k * 2 ^ 101 ∧ F32.sign r = (Half.sign h ^^ Half.sign k) := by
  have hvalue : Half.value h * Half.value k * 2 ^ 101 =
      signed (Half.sign h ^^ Half.sign k) (Half.size h * Half.size k * 2 ^ 101) := by
    have hcast : ((2 ^ 101 : Nat) : Int) = 2 ^ 101 := by norm_num
    rw [Half.value_eq, Half.value_eq, signed_mul_signed, ← hcast, signed_mul_natCast]
  rw [hvalue]
  by_cases hz : Half.isZero h = true ∨ Half.isZero k = true
  · refine ⟨_, f32Mul_halfToFloat_of_isZero hh hk hz, F32.exp_ne_max_iff.2 (by rw [F32.magnitude_zero]; omega), ?_,
      F32.sign_zero _⟩
    have hsize : Half.size h * Half.size k = 0 := by
      rw [Nat.mul_eq_zero, Half.size_eq_zero_iff, Half.size_eq_zero_iff]
      exact hz
    rw [hsize, F32.value_zero]
    simp [signed]
  · simp only [not_or, Bool.not_eq_true] at hz
    obtain ⟨⟨a, hma, ha⟩, hsa⟩ := mant_scale_halfToFloat hh hz.1
    obtain ⟨⟨b, hmb, hb⟩, hsb⟩ := mant_scale_halfToFloat hk hz.2
    have hsh := size_halfToFloat hh
    have hsk := size_halfToFloat hk
    rw [F32.size, hma] at hsh
    rw [F32.size, hmb] at hsk
    have hr := f32Mul_halfToFloat_of_ne_zero hh hk hz.1 hz.2
    rw [hma, hmb] at hr
    generalize F32.scale (halfToFloat h) = x at *
    generalize F32.scale (halfToFloat k) = y at *
    obtain ⟨j, hj, hscale, hexact⟩ := mant_mul_eq (e := x + y + 102) ha hb (by omega)
    have hpos : 0 < a * 2 ^ 13 * (b * 2 ^ 13) := Nat.mul_pos (by omega) (by omega)
    obtain ⟨hmax, -⟩ := roundedMant_bounds hpos hj
    have hfinite : F32.exp (F32.round (Half.sign h ^^ Half.sign k) (a * 2 ^ 13 * (b * 2 ^ 13)) (x + y + 102)) ≠ 255 := by
      rw [F32.exp_round_ne_max_iff, roundedMagnitude_eq]
      omega
    refine ⟨_, hr, hfinite, ?_, F32.sign_round _ _ _⟩
    rw [F32.value_eq, F32.sign_round, F32.size_round hpos hj hfinite]
    refine congrArg (signed _) ?_
    generalize roundedScale (a * 2 ^ 13 * (b * 2 ^ 13)) (x + y + 102) = z at *
    generalize roundedMant (a * 2 ^ 13 * (b * 2 ^ 13)) (x + y + 102) = m at *
    refine Nat.eq_of_mul_eq_mul_right (Nat.two_pow_pos 149) ?_
    obtain ⟨w, rfl⟩ : ∃ w, z = j + w := ⟨z - j, by omega⟩
    have hxy : x + y = w + 149 := by omega
    calc m * 2 ^ (j + w) * 2 ^ 149
      _ = m * 2 ^ j * 2 ^ (w + 149) := by ring
      _ = a * 2 ^ 13 * 2 ^ x * (b * 2 ^ 13 * 2 ^ y) := by rw [hexact, ← hxy]; ring
      _ = Half.size h * Half.size k * 2 ^ 101 * 2 ^ 149 := by rw [hsh, hsk]; ring

end

/-- Turning both signs of a quotient's error does not change its size. -/
theorem natAbs_error (y : Int) (s t : Bool) (num den : Nat) :
    (y * signed t den - signed s num * 2 ^ 149).natAbs = (y * den - signed (s ^^ t) (num * 2 ^ 149)).natAbs := by
  cases t with
  | false =>
    rw [Bool.xor_false, ← signed_mul_natCast]
    congr 1
    simp [signed]
  | true =>
    rw [Bool.xor_true, ← Int.natAbs_neg]
    congr 1
    cases s <;> simp [signed] <;> ring

section
variable {h k : Word} (hh : Half.exp h ≠ 31) (hk : Half.exp k ≠ 31)
include hh hk

theorem f32Div_halfToFloat_of_isZero (hz : Half.isZero h = true) (kz : Half.isZero k = false) :
    f32Div (halfToFloat h) (halfToFloat k) = .val (F32.zero (Half.sign h ^^ Half.sign k)) := by
  simp [f32Div, isNaN_halfToFloat, isInf_halfToFloat, isZero_halfToFloat, sign_halfToFloat,
    Half.isNaN_eq_false_of_finite hh, Half.isNaN_eq_false_of_finite hk, Half.isInf_eq_false_of_finite hh,
    Half.isInf_eq_false_of_finite hk, hz, kz]

theorem f32Div_halfToFloat_of_ne_zero (hz : Half.isZero h = false) (kz : Half.isZero k = false) :
    f32Div (halfToFloat h) (halfToFloat k) =
      .val (F32.round (Half.sign h ^^ Half.sign k)
        (stickyQuotient (F32.mant (halfToFloat h)) (F32.mant (halfToFloat k)))
        (F32.scale (halfToFloat h) + 335 - F32.scale (halfToFloat k))) := by
  simp [f32Div, isNaN_halfToFloat, isInf_halfToFloat, isZero_halfToFloat, sign_halfToFloat,
    Half.isNaN_eq_false_of_finite hh, Half.isNaN_eq_false_of_finite hk, Half.isInf_eq_false_of_finite hh,
    Half.isInf_eq_false_of_finite hk, hz, kz]

/-- A quotient of finite Halfs other than 0 is finite, of the exclusive-or of the signs, and its significand nearest-even
to the exact quotient at its scale. -/
theorem f32Div_halfToFloat_nearestEven (hz : Half.isZero h = false) (kz : Half.isZero k = false) :
    ∃ r m x, f32Div (halfToFloat h) (halfToFloat k) = .val r ∧ F32.exp r ≠ 255 ∧
      F32.value r = signed (Half.sign h ^^ Half.sign k) (m * 2 ^ x) ∧ F32.sign r = (Half.sign h ^^ Half.sign k) ∧
      NearestEven m (Half.size h * 2 ^ 149) (Half.size k * 2 ^ x) ∧
      2 ^ 23 * 2 ^ x * Half.size k ≤ Half.size h * 2 ^ 149 ∧ (m % 2 = 0 → r.getLsbD 0 = false) := by
  obtain ⟨⟨a, hma, ha⟩, hsa⟩ := mant_scale_halfToFloat hh hz
  obtain ⟨⟨b, hmb, hb⟩, hsb⟩ := mant_scale_halfToFloat hk kz
  have hsh := size_halfToFloat hh
  have hsk := size_halfToFloat hk
  have hr := f32Div_halfToFloat_of_ne_zero hh hk hz kz
  have ha' : 2 ^ 23 ≤ F32.mant (halfToFloat h) ∧ F32.mant (halfToFloat h) < 2 ^ 24 := by omega
  have hb' : 2 ^ 23 ≤ F32.mant (halfToFloat k) ∧ F32.mant (halfToFloat k) < 2 ^ 24 := by omega
  rw [F32.size] at hsh hsk
  generalize F32.mant (halfToFloat h) = p at *
  generalize F32.mant (halfToFloat k) = q at *
  generalize F32.scale (halfToFloat h) = u at *
  generalize F32.scale (halfToFloat k) = v at *
  obtain ⟨j, hj, hscale, hpos, hnormal⟩ := roundedScale_stickyQuotient (e := u + 335 - v) ha' hb' (by omega)
  obtain ⟨hmax, -⟩ := roundedMant_bounds hpos hj
  have hfinite : F32.exp (F32.round (Half.sign h ^^ Half.sign k) (stickyQuotient p q) (u + 335 - v)) ≠ 255 := by
    rw [F32.exp_round_ne_max_iff, roundedMagnitude_eq]
    omega
  have hnear := roundShift_nearestEven (stickyQuotient p q) (j + 2)
  rw [← roundedMant_eq hj] at hnear
  refine ⟨_, _, _, hr, hfinite, by rw [F32.value_eq, F32.sign_round, F32.size_round hpos hj hfinite],
    F32.sign_round _ _ _, (hnear.of_stickyQuotient (by omega)).of_cross ?_ ?_ ?_, ?_, F32.lastBit_round hfinite⟩
  · exact Nat.mul_pos (by omega) (Nat.two_pow_pos _)
  · have hne : Half.size k ≠ 0 := fun h0 => Bool.false_ne_true (kz.symm.trans (Half.size_eq_zero_iff.1 h0))
    exact Nat.mul_pos (Nat.pos_of_ne_zero hne) (Nat.two_pow_pos _)
  · generalize roundedScale (stickyQuotient p q) (u + 335 - v) = x at *
    have hx : v + x = u + j + 86 := by omega
    refine Nat.eq_of_mul_eq_mul_right (Nat.two_pow_pos 125) ?_
    calc p * 2 ^ 64 * (Half.size k * 2 ^ x) * 2 ^ 125
      _ = p * 2 ^ 64 * 2 ^ x * (Half.size k * 2 ^ 125) := by ring
      _ = p * q * 2 ^ 64 * 2 ^ (v + x) := by rw [← hsk]; ring
      _ = p * 2 ^ u * 2 ^ 149 * (q * 2 ^ (j + 1)) := by rw [hx]; ring
      _ = Half.size h * 2 ^ 149 * (q * 2 ^ (j + 1)) * 2 ^ 125 := by rw [hsh]; ring
  · generalize roundedScale (stickyQuotient p q) (u + 335 - v) = x at *
    have hx : v + x = u + j + 86 := by omega
    refine Nat.le_of_mul_le_mul_right (c := 2 ^ 125) ?_ (Nat.two_pow_pos 125)
    calc 2 ^ 23 * 2 ^ x * Half.size k * 2 ^ 125
      _ = 2 ^ 23 * 2 ^ x * (Half.size k * 2 ^ 125) := by ring
      _ = 2 ^ 23 * q * 2 ^ (v + x) := by rw [← hsk]; ring
      _ = 2 ^ (24 + j) * q * 2 ^ (u + 85) := by rw [hx]; ring
      _ ≤ p * 2 ^ 64 * 2 ^ (u + 85) := Nat.mul_le_mul_right _ hnormal
      _ = p * 2 ^ u * 2 ^ 149 := by ring
      _ = Half.size h * 2 ^ 149 * 2 ^ 125 := by rw [hsh]; ring

/-- The quotient by a Half other than 0 is finite, of the exclusive-or of the signs, and no finite pattern is nearer to
the exact one; where another is as near, its last bit is 0. -/
theorem f32Div_halfToFloat (kz : Half.isZero k = false) : ∃ r, f32Div (halfToFloat h) (halfToFloat k) = .val r ∧
    F32.exp r ≠ 255 ∧ F32.sign r = (Half.sign h ^^ Half.sign k) ∧ ∀ g : F32, F32.exp g ≠ 255 →
      (F32.value r * Half.value k - Half.value h * 2 ^ 149).natAbs ≤
        (F32.value g * Half.value k - Half.value h * 2 ^ 149).natAbs ∧
      ((F32.value r * Half.value k - Half.value h * 2 ^ 149).natAbs =
        (F32.value g * Half.value k - Half.value h * 2 ^ 149).natAbs → F32.value g ≠ F32.value r →
          r.getLsbD 0 = false) := by
  have hsize : 0 < Half.size k :=
    Nat.pos_of_ne_zero fun h0 => Bool.false_ne_true (kz.symm.trans (Half.size_eq_zero_iff.1 h0))
  simp only [Half.value_eq, natAbs_error]
  cases hz : Half.isZero h with
  | true =>
    refine ⟨_, f32Div_halfToFloat_of_isZero hh hk hz kz, F32.exp_ne_max_iff.2 (by rw [F32.magnitude_zero]; omega),
      F32.sign_zero _, fun g _ => ?_⟩
    rw [Half.size_eq_zero_iff.2 hz, F32.value_zero]
    simp only [signed, Nat.cast_zero, mul_zero, zero_mul, sub_zero]
    refine ⟨Nat.zero_le _, fun heq hne => absurd ?_ hne⟩
    have hprod : F32.value g * Half.size k = 0 := Int.natAbs_eq_zero.1 heq.symm
    exact (mul_eq_zero.1 hprod).resolve_right (by omega)
  | false =>
    obtain ⟨r, m, x, hr, hfinite, hvalue, hsign, hnear, hnormal, hlast⟩ := f32Div_halfToFloat_nearestEven hh hk hz kz
    refine ⟨r, hr, hfinite, hsign, fun g _ => ?_⟩
    obtain ⟨hle, htie⟩ := nearest_among_values hnear hsize (fun _ => hnormal) (Half.sign h ^^ Half.sign k) g
    rw [← hvalue] at hle htie
    exact ⟨hle, fun heq hne => hlast (htie heq hne)⟩

end

/-! ## Zeros and infinities -/

section
variable {h k : Word}

theorem f32Div_halfToFloat_by_zero (hh : Half.exp h ≠ 31) (hz : Half.isZero h = false) (kz : Half.isZero k = true) :
    f32Div (halfToFloat h) (halfToFloat k) = .val (F32.inf (Half.sign h ^^ Half.sign k)) := by
  have hk : Half.exp k ≠ 31 := by
    rw [Half.isZero_iff] at kz
    rw [Half.exp_ne_max_iff]
    omega
  simp [f32Div, isNaN_halfToFloat, isInf_halfToFloat, isZero_halfToFloat, sign_halfToFloat,
    Half.isNaN_eq_false_of_finite hh, Half.isNaN_eq_false_of_finite hk, Half.isInf_eq_false_of_finite hh,
    Half.isInf_eq_false_of_finite hk, hz, kz]

variable (hi : Half.isInf h = true)
include hi

theorem f32Mul_halfToFloat_of_isInf (hn : Half.isNaN k = false) (kz : Half.isZero k = false) :
    f32Mul (halfToFloat h) (halfToFloat k) = .val (F32.inf (Half.sign h ^^ Half.sign k)) ∧
      f32Mul (halfToFloat k) (halfToFloat h) = .val (F32.inf (Half.sign h ^^ Half.sign k)) := by
  simp [f32Mul, isNaN_halfToFloat, isInf_halfToFloat, isZero_halfToFloat, sign_halfToFloat,
    Half.isNaN_eq_false_of_isInf hi, Half.isZero_eq_false_of_isInf hi, hi, hn, kz, Bool.xor_comm (Half.sign k)]

theorem f32Div_halfToFloat_of_isInf (hk : Half.exp k ≠ 31) :
    f32Div (halfToFloat h) (halfToFloat k) = .val (F32.inf (Half.sign h ^^ Half.sign k)) ∧
      f32Div (halfToFloat k) (halfToFloat h) = .val (F32.zero (Half.sign h ^^ Half.sign k)) := by
  simp [f32Div, isNaN_halfToFloat, isInf_halfToFloat, sign_halfToFloat, Half.isNaN_eq_false_of_isInf hi, hi,
    Half.isNaN_eq_false_of_finite hk, Half.isInf_eq_false_of_finite hk, Bool.xor_comm (Half.sign k)]

end

/-- Settles O30. -/
theorem halfProductsAndQuotientsInBinary32 : Obligations.HalfProductsAndQuotientsInBinary32 := by
  unfold Obligations.HalfProductsAndQuotientsInBinary32
  intro h k
  exact ⟨f32Mul_halfToFloat, f32Div_halfToFloat, f32Div_halfToFloat_by_zero, f32Mul_halfToFloat_of_isInf,
    f32Div_halfToFloat_of_isInf⟩

end Sys2Proof.Machine
end
